-- ==== Sys2Proof/Word.lean ====
section
/-!
DEFINITION. The words of HUFFCORE and the records its arrays hold: register words, stream bytes, entries
(10_state.md R40) and tree nodes (10_state.md R44), and the closed sets of names the sequencer uses.
-/

namespace Sys2Proof

/-- A word of the host register space (20_memory.md R60). -/
abbrev Word := BitVec 32

/-- A byte of a stream (20_memory.md R60). -/
abbrev Byte := BitVec 8

/-- A symbol as stored: 0 to 255 are byte values, 256 is the sentinel (00_scope.md R6, SYMW = 9). -/
abbrev Sym := BitVec 9

/-- An index into the node store (10_state.md R44). -/
abbrev NodeIx := BitVec 10

/-- PHASE, the sequencer state (10_state.md R22; U6: exactly ten values). -/
inductive Phase
  | idle | encCount | encCode | decMagic | decExt | decWait | decDict | decPayload | done | error
  deriving DecidableEq, Repr, Inhabited

/-- OP, the current or last operation (10_state.md R23; U6: value 3 is no state). -/
inductive Op
  | none | compress | decompress
  deriving DecidableEq, Repr, Inhabited

/-- The error codes (60_exceptions.md R281). -/
inductive ErrCode
  | none | magic | skel | extLong | eof | io | mismatch | conflict | policy | empty | cancel | badExt | range
  deriving DecidableEq, Repr, Inhabited

/-- DSTATE, what the next skeleton bit is (10_state.md R48). -/
inductive DState
  | mark | sym
  deriving DecidableEq, Repr, Inhabited

/-- An entry, the document's WeightedSymbol (10_state.md R40); `sym = none` is has_sym = 0 (log 12). -/
structure Entry where
  weight : Word
  sym    : Option Sym
  deriving DecidableEq, Repr, Inhabited

/-- A node of the tree (10_state.md R44): a leaf, an internal node that has no children yet, an internal node
with its two children (log 11). -/
inductive Node
  | leaf (sym : Sym)
  | bare
  | pair (left right : NodeIx)
  deriving DecidableEq, Repr, Inhabited

/-- The leaf bit of a node. -/
def Node.isLeaf : Node → Bool
  | .leaf _ => true
  | .bare => false
  | .pair _ _ => false

end Sys2Proof
end

