-- ==== Sys2Proof/Config.lean ====
section
/-!
DEFINITION. The fixed parameters (00_scope.md R6, R7), and the free values: what the spec leaves unspecified.
A free value is a constant with no body, so nothing can be proved of it (93_implementation_defined.md, "any value").
-/

namespace Sys2Proof.Config

/-- NSYM (R6). -/
def nsym : Nat := 257
/-- NSLOT (R6). -/
def nslot : Nat := 513
/-- SENT, the sentinel symbol (R6). -/
def sent : Sym := 256
/-- SENT_WEIGHT (R6). -/
def sentWeight : Word := 1
/-- EXT_MAX (R7). -/
def extMax : Nat := 255
/-- The one TOTAL_LEN above LEN_MAX, 2^32 − 1 (R7, 46_encoder.md R210). -/
def lenOver : Word := 0xFFFFFFFF
/-- The default of the open parameter MAGIC (R7, D4): DESIGN CHOICE for `State.reset` only, log 1. -/
def magicDefault : BitVec 16 := 0x4846
/-- The default of the open parameter EXT_TERM (R7, D5): DESIGN CHOICE for `State.reset` only, log 1. -/
def extTermDefault : Byte := 0x00
/-- ID (10_state.md R27). -/
def idWord : Word := 0x48550700

/-- What an unspecified window read returns, the n-th time one happens (U2; log 3). -/
opaque freeWord : Nat → Word
/-- What EXT[i] beyond EXT_LEN reads as, the n-th time one is read (U3; log 3). -/
opaque freeByte : Nat → Byte
/-- EXT[i] after the reset that drew number n (U1; log 2). -/
opaque resetExt : Nat → Nat → Byte
/-- FREQ[s] after reset (U1; log 2). -/
opaque resetFreq : Nat → Nat → Word
/-- HEAP[i + 1] after reset (U1; log 2). -/
opaque resetHeap : Nat → Nat → Entry
/-- PS[i] after reset (U1; log 2). -/
opaque resetPs : Nat → Nat → Entry
/-- NODE[i] after reset (U1; log 2). -/
opaque resetNode : Nat → Nat → Node
/-- CODE_LEN[s] after reset (U1; log 2). -/
opaque resetCodeLen : Nat → Nat → BitVec 9
/-- CODE_BITS[s] after reset (U1; log 2). -/
opaque resetCodeBits : Nat → Nat → BitVec 256
/-- PATH after reset (U1; log 2). -/
opaque resetPath : Nat → BitVec 256
/-- Whose code the table keeps where leaves repeat a symbol: that of the highest-numbered one (92_eei_decisions.md D29),
or else that of the one visited last (44_code_table.md R187). The spec says both, so it stays open (log 23). -/
opaque repeatedByNumber : Bool

end Sys2Proof.Config
end

