-- ==== Sys2Proof/Syntax.lean ====
section
/-!
DEFINITION. The instructions of HUFFCORE: one constructor per row of the opcode table. The first six are the host
commands (30_encoding.md R92), the other seven the tokens of the container (30_encoding.md R96 to R103).
-/

namespace Sys2Proof

inductive Instr
  /-- NOP (R263). -/
  | nop
  /-- ENC_START (R210). -/
  | encStart
  /-- DEC_START (R230). -/
  | decStart
  /-- SINK_OK (R237). -/
  | sinkOk
  /-- STOP with the reason in ARG (R93, R264). -/
  | stop (arg : Byte)
  /-- CLEAR (R265). -/
  | clear
  /-- The 16 bits at the start of the stream, which ought to equal the parameter MAGIC (R97). -/
  | magic (value : BitVec 16)
  /-- A literal extension byte, not EXT_TERM (R98). -/
  | extByte (b : Byte)
  /-- The byte EXT_TERM, which ends the extension (R98). -/
  | extTerm
  /-- Marker 0: an internal node or a padding slot (R99, R100). -/
  | slotInternal
  /-- Marker 1 and a 9-bit symbol (R99, R101). -/
  | slotLeaf (sym : Sym)
  /-- A code word, first transmitted bit first (R102). -/
  | code (bits : List Bool)
  /-- The bits between the sentinel's code and the byte boundary (R103); not examined when read (R244). -/
  | pad (bits : List Bool)
  deriving DecidableEq, Repr

end Sys2Proof
end

