-- ==== Sys2Proof/WellFormed.lean ====
section
/-!
DEFINITION. Which instructions have an encoding. `term` is the parameter EXT_TERM (00_scope.md R7).
-/

namespace Sys2Proof

/-- STOP's reason is 0, 1 or 2 (R93, R94); an EXTBYTE is not the terminator (R98); a CODE has 1 to 256 bits
(R102); a PAD has at most 7 (R103). A leaf slot's field may be any 9-bit value: dict_bit rejects none (R200). -/
def Instr.wellFormed (term : Byte) : Instr → Bool
  | .nop => true
  | .encStart => true
  | .decStart => true
  | .sinkOk => true
  | .stop arg => decide (arg.toNat ≤ 2)
  | .clear => true
  | .magic _ => true
  | .extByte b => decide (b ≠ term)
  | .extTerm => true
  | .slotInternal => true
  | .slotLeaf _ => true
  | .code bits => decide (1 ≤ bits.length ∧ bits.length ≤ 256)
  | .pad bits => decide (bits.length ≤ 7)

end Sys2Proof
end

