-- ==== Sys2Proof/Decode.lean ====
section
/-!
DEFINITION. Decoding and encoding (30_encoding.md). A command is one 32-bit word (R91, R92). A container token is a
run of stream bits whose kind follows from where the decoder stands, not from the bits alone (R96, R106); `Place` says
where. Beside them the bit-order helpers of 00_scope.md R9.
-/

namespace Sys2Proof

/-! ### Bit order (R9, R62, R63) -/

/-- The bits of a field, most significant first (R63). -/
def bitsMsb {n : Nat} (v : BitVec n) : List Bool := (List.range n).map v.getMsbD

/-- The value of a field whose bits are given most significant first; each bit is shifted in at the right. -/
def ofBits (n : Nat) (l : List Bool) : BitVec n := l.foldl BitVec.shiftConcat 0

/-- `bits_of(b)`, the bits of a stream byte in the order the decoder uses them (40_bitpacker.md R126). -/
def bitsOf (b : Byte) : List Bool := bitsMsb b

/-! ### Names of what is no instruction -/

/-- Why a word or a run of bits is no instruction. -/
inductive DecodeError
  /-- Bits [31:16] are not 0 (R94). -/
  | zeroField
  /-- OPCODE is 0x06 to 0xFF (R94). -/
  | opcodeReserved
  /-- ARG is not 0 and OPCODE is not STOP's (R94). -/
  | argNotZero
  /-- STOP with a reason 3 to 255 (R94). -/
  | stopReasonReserved
  /-- More stream bits are needed before the token is complete. -/
  | tokenIncomplete
  /-- The tree leads nowhere on the next bit: no finished tree (R106). -/
  | noSuchCode
  /-- More than 7 bits before a byte boundary (R103). -/
  | padTooLong
  deriving DecidableEq, Repr

/-! ### Commands (R91 to R94) -/

/-- The command word of an OPCODE and an ARG (R91). -/
def commandWord (opcode arg : Byte) : Word := (0#16 ++ arg) ++ opcode

/-- The command a word stands for (R92), or why it is illegal in every phase (R94). -/
def decodeCommand (w : Word) : Except DecodeError Instr :=
  let opcode : Byte := w.extractLsb' 0 8
  let arg : Byte := w.extractLsb' 8 8
  if w.extractLsb' 16 16 ≠ 0#16 then .error .zeroField
  else if opcode = 0x04 then
    if arg.toNat ≤ 2 then .ok (.stop arg) else .error .stopReasonReserved
  else if 5 < opcode.toNat then .error .opcodeReserved
  else if arg ≠ 0 then .error .argNotZero
  else if opcode = 0x00 then .ok .nop
  else if opcode = 0x01 then .ok .encStart
  else if opcode = 0x02 then .ok .decStart
  else if opcode = 0x03 then .ok .sinkOk
  else .ok .clear

/-! ### Container tokens (R96 to R106) -/

/-- What the decoder is about to read. -/
inductive Place
  /-- The start of the stream: the magic (R97). -/
  | magic
  /-- The extension field; the terminator's value (R98). -/
  | ext (term : Byte)
  /-- A slot of the skeleton (R99). -/
  | slot
  /-- A code word of the tree in the node store (R102, R106). -/
  | code (nodes : Vector Node 513)
  /-- The rest of the byte that held the end of the sentinel's code (R103). -/
  | pad

/-- The child a bit leads to: left on 0, right on 1 (47_decoder.md R240). None where the node has no children. -/
def childOf (nodes : Vector Node 513) (cur : NodeIx) (bit : Bool) : Option NodeIx :=
  match nodes[cur.toNat]? with
  | some (.pair l r) => some (if bit then r else l)
  | some (.leaf _) => none
  | some .bare => none
  | none => none

/-- Whether an index holds a leaf. -/
def leafAt (nodes : Vector Node 513) (k : NodeIx) : Bool :=
  match nodes[k.toNat]? with
  | some n => n.isLeaf
  | none => false

/-- The width of the CODE token at the head of `bits`, found by walking the tree from `cur` until a leaf (R106). -/
def codeWidth (nodes : Vector Node 513) : NodeIx → List Bool → Except DecodeError Nat
  | _, [] => .error .tokenIncomplete
  | cur, b :: rest =>
    match childOf nodes cur b with
    | none => .error .noSuchCode
    | some k =>
      if leafAt nodes k then .ok 1
      else
        match codeWidth nodes k rest with
        | .ok n => .ok (n + 1)
        | .error e => .error e

/-- The token at the head of a run of stream bits, and the bits after it; or why there is none. A code word has at
most 256 bits (R102). -/
def decodeToken : Place → List Bool → Except DecodeError (Instr × List Bool)
  | .magic, bits =>
    if 16 ≤ bits.length then .ok (.magic (ofBits 16 (bits.take 16)), bits.drop 16) else .error .tokenIncomplete
  | .ext term, bits =>
    if 8 ≤ bits.length then
      let b : Byte := ofBits 8 (bits.take 8)
      .ok (if b = term then .extTerm else .extByte b, bits.drop 8)
    else .error .tokenIncomplete
  | .slot, [] => .error .tokenIncomplete
  | .slot, false :: rest => .ok (.slotInternal, rest)
  | .slot, true :: rest =>
    if 9 ≤ rest.length then .ok (.slotLeaf (ofBits 9 (rest.take 9)), rest.drop 9) else .error .tokenIncomplete
  | .code nodes, bits =>
    match codeWidth nodes 0 (bits.take 256) with
    | .ok n => .ok (.code (bits.take n), bits.drop n)
    | .error e => .error e
  | .pad, bits => if bits.length ≤ 7 then .ok (.pad bits, []) else .error .padTooLong

/-! ### The encoder -/

/-- What an instruction is written as: a word for CMD, or a run of stream bits. -/
inductive Encoded
  | word (w : Word)
  | bits (l : List Bool)
  deriving DecidableEq, Repr

/-- The encoding of an instruction (R91 to R93, R97 to R103); `term` is the parameter EXT_TERM. -/
def encode (term : Byte) : Instr → Encoded
  | .nop => .word (commandWord 0x00 0)
  | .encStart => .word (commandWord 0x01 0)
  | .decStart => .word (commandWord 0x02 0)
  | .sinkOk => .word (commandWord 0x03 0)
  | .stop arg => .word (commandWord 0x04 arg)
  | .clear => .word (commandWord 0x05 0)
  | .magic value => .bits (bitsMsb value)
  | .extByte b => .bits (bitsMsb b)
  | .extTerm => .bits (bitsMsb term)
  | .slotInternal => .bits [false]
  | .slotLeaf sym => .bits (true :: bitsMsb sym)
  | .code bits => .bits bits
  | .pad bits => .bits bits

/-- Decoding of either format at a place: a command word is read whatever the place is. -/
def decode (place : Place) : Encoded → Except DecodeError (Instr × List Bool)
  | .word w =>
    match decodeCommand w with
    | .ok i => .ok (i, [])
    | .error e => .error e
  | .bits l => decodeToken place l

/-! ### The opcode table's numbering -/

/-- The instruction the decoder reads from a table row's bits. A 32-bit row is a command. The container's tokens are
told apart by the place only (R106), so the width chooses it: 16 bits are read at the start of the stream, 8 bits in
the extension field (EXT_TERM at its default), 10 bits and 1 bit as a slot with its first transmitted bit most
significant (log 10). -/
def decodeTableWord (nbits w : Nat) : Option Instr :=
  let tok (p : Place) (l : List Bool) : Option Instr :=
    match decodeToken p l with
    | .ok (i, _) => some i
    | .error _ => none
  if nbits = 32 then
    match decodeCommand (BitVec.ofNat 32 w) with
    | .ok i => some i
    | .error _ => none
  else if nbits = 16 then
    tok .magic (bitsOf (BitVec.ofNat 8 w) ++ bitsOf (BitVec.ofNat 8 (w / 256)))
  else if nbits = 8 then tok (.ext Config.extTermDefault) (bitsOf (BitVec.ofNat 8 w))
  else if nbits = 10 then tok .slot (bitsMsb (BitVec.ofNat 10 w))
  else if nbits = 1 then tok .slot (bitsMsb (BitVec.ofNat 1 w))
  else none

end Sys2Proof
end

