-- ==== Sys2Proof/Machine/State.lean ====
section
/-!
DEFINITION. The state of HUFFCORE (10_state.md R20 to R55), the ways a step can stop, and the state after reset.
Units of the block hold their own registers: the queue, the pair stack, the tree, the code table, the output path,
the decoder. The last fields of `State` are the host's side of the interface (logs 3 to 6).
-/

namespace Sys2Proof.Machine

/-- Stops that no run from reset reaches; each is safe: a step that takes one proves nothing of the hardware (log 14). -/
inductive Fault
  /-- An index outside its array's bound (00_scope.md R10, 20_memory.md R73). Raised by `push`, `deriveCodes` and the
  payload walk. Safe. -/
  | arrayBound
  /-- A payload bit at a node that has no children (47_decoder.md R240 rules it out). Raised by `payloadBit` and the
  CODE token. Safe. -/
  | walkOffTree
  /-- put_code of a symbol that has no code (93_implementation_defined.md U11). Raised by `putCode`. Safe. -/
  | codeMissing
  /-- Code derivation on a tree that is not finished (44_code_table.md R181 requires one). Raised by `deriveStep`. Safe. -/
  | treeUnfinished
  /-- The assembly of a built pair stack is malformed (43_tree_builder.md R172 rules it out). Raised by `tbBuild`. Safe. -/
  | buildMalformed
  deriving DecidableEq, Repr

/-- What has no meaning. -/
inductive Refusal
  /-- An instruction whose meaning is not written yet. Raised by `exec` only. Safe. -/
  | notModelled (mnemonic : String)
  /-- removeMin on an empty queue (93_implementation_defined.md U9: refuse). Raised by `tbBuild`. Safe. -/
  | emptyQueue
  /-- insert into a full queue (93_implementation_defined.md U10: refuse). Raised by `tbBuild`. Safe. -/
  | fullQueue
  /-- A container token where the decoder does not stand at such a token (30_encoding.md R96, R106): those bits are no
  such token there. Raised by the token meanings, never by a step (log 9). Safe. -/
  | tokenOutOfPlace
  deriving DecidableEq, Repr

/-- The host events (00_scope.md R15; reset 70_reset_and_hazards.md R320). -/
inductive HostEvent
  /-- RD(a), a register read at a byte address. -/
  | read (a : BitVec 15)
  /-- WR(a, v), a register write. -/
  | write (a : BitVec 15) (v : Word)
  /-- An access of a width other than 32 bits (20_memory.md R68). -/
  | narrow (a : BitVec 15)
  /-- IN(b), a byte offered on the input port. -/
  | inByte (b : Byte)
  /-- OUT, the host ready to take the oldest output byte. -/
  | outByte
  /-- The hardware reset. -/
  | reset
  deriving DecidableEq, Repr

/-- What the host port answered to the last access (20_memory.md R61, R66 to R69; log 6). -/
inductive Reply
  | nothing
  | ack
  | data (v : Word)
  | busError
  deriving DecidableEq, Repr

/-- ERR and ERRINFO (10_state.md R29). -/
structure Err where
  code  : ErrCode
  phase : Phase
  info  : Word
  deriving DecidableEq, Repr

/-- The priority queue's storage; HEAP[i] is `heap[i - 1]` (10_state.md R42). -/
structure Queue where
  heap : Vector Entry 257
  hn   : BitVec 9
  deriving DecidableEq, Repr

/-- The pair stack (10_state.md R43). -/
structure Stack where
  ps  : Vector Entry 513
  psn : BitVec 10
  deriving DecidableEq, Repr

/-- The node store and its registers (10_state.md R44). -/
structure Tree where
  node     : Vector Node 513
  nn       : BitVec 10
  fill     : BitVec 10
  sentNode : NodeIx
  deriving DecidableEq, Repr

/-- CODE_LEN, CODE_BITS and the path buffer (10_state.md R45, R46). -/
structure Codes where
  len     : Vector (BitVec 9) 257
  bits    : Vector (BitVec 256) 257
  path    : BitVec 256
  pathLen : BitVec 9
  deriving DecidableEq, Repr

/-- The output path: the BitPacker's accumulator (10_state.md R47), OUTSEQ (R50), OUT_CNT (R34), and how many bytes
of OUTSEQ the host has taken (log 5). -/
structure Output where
  acc   : Byte
  nb    : BitVec 3
  seq   : List Byte
  cnt   : BitVec 64
  taken : Nat
  deriving DecidableEq, Repr

/-- The decoder's registers (10_state.md R48, R49). -/
structure Dec where
  magAcc : BitVec 16
  magN   : BitVec 2
  dstate : DState
  symAcc : Sym
  symCnt : BitVec 4
  slot   : BitVec 10
  cur    : NodeIx
  deriving DecidableEq, Repr

/-- The whole state (10_state.md R20). -/
structure State where
  /-- PHASE (R22). -/
  phase     : Phase
  /-- OP (R23). -/
  op        : Op
  /-- The stored flags (R24). -/
  cmderr    : Bool
  discard   : Bool
  freqValid : Bool
  codeValid : Bool
  /-- ERR, ERRINFO and BADCMD (R29). -/
  err       : Err
  badCmd    : Word
  /-- CTRL.FORCE (R30). -/
  force     : Bool
  /-- IRQ_EN and IRQ_PEND (R31). -/
  irqEn     : BitVec 5
  irqPend   : BitVec 5
  /-- TOTAL_LEN (R32). -/
  totalLen  : Word
  /-- EXT_LEN and EXT[0..254] (R33). -/
  extLen    : Byte
  ext       : Vector Byte 255
  /-- IN_CNT (R34). -/
  inCnt     : Word
  /-- EST_BYTES, NLEAF, NNODE (R35). -/
  estBytes  : BitVec 64
  nleaf     : BitVec 9
  nnode     : BitVec 10
  /-- PCT (R36). -/
  pct       : BitVec 7
  /-- MAGIC and PARAM.EXT_TERM, the read-only copies of the open parameters (R37; log 1). -/
  magicReg  : BitVec 16
  termReg   : Byte
  /-- FREQ[0..256] (R41). -/
  freq      : Vector Word 257
  /-- HEAP, HN (R42). -/
  queue     : Queue
  /-- PS, PSN (R43). -/
  stack     : Stack
  /-- NODE, NN, FILL, SENT_NODE (R44). -/
  tree      : Tree
  /-- CODE_LEN, CODE_BITS, PATH, PATHLEN (R45, R46). -/
  codes     : Codes
  /-- ACC, NB (R47), OUT_CNT (R34), OUTSEQ (R50). -/
  out       : Output
  /-- MAGACC to CUR (R48, R49). -/
  dec       : Dec
  /-- The host's pending events, oldest first (log 4). -/
  events    : List HostEvent
  /-- The host port's last answer (log 6). -/
  reply     : Reply
  /-- How many free values have been used (log 3); no statement rests on its value. -/
  draws     : Nat
  deriving DecidableEq, Repr

/-- A table whose element i is `f i`. -/
def tabulate {α : Type} (n : Nat) (f : Nat → α) : Vector α n :=
  ⟨((List.range n).map f).toArray, by simp⟩

/-- The state after the hardware reset of a block whose parameters are `magic` and `term` (10_state.md R55,
70_reset_and_hazards.md R320): every scalar 0, the arrays and PATH unspecified, the free values drawn as number
`draw` (log 2). -/
def State.afterReset (magic : BitVec 16) (term : Byte) (draw : Nat) : State where
  phase := .idle
  op := .none
  cmderr := false
  discard := false
  freqValid := false
  codeValid := false
  err := { code := .none, phase := .idle, info := 0 }
  badCmd := 0
  force := false
  irqEn := 0
  irqPend := 0
  totalLen := 0
  extLen := 0
  ext := tabulate 255 (Config.resetExt draw)
  inCnt := 0
  estBytes := 0
  nleaf := 0
  nnode := 0
  pct := 0
  magicReg := magic
  termReg := term
  freq := tabulate 257 (Config.resetFreq draw)
  queue := { heap := tabulate 257 (Config.resetHeap draw), hn := 0 }
  stack := { ps := tabulate 513 (Config.resetPs draw), psn := 0 }
  tree := { node := tabulate 513 (Config.resetNode draw), nn := 0, fill := 0, sentNode := 0 }
  codes :=
    { len := tabulate 257 (Config.resetCodeLen draw), bits := tabulate 257 (Config.resetCodeBits draw),
      path := Config.resetPath draw, pathLen := 0 }
  out := { acc := 0, nb := 0, seq := [], cnt := 0, taken := 0 }
  dec := { magAcc := 0, magN := 0, dstate := .mark, symAcc := 0, symCnt := 0, slot := 0, cur := 0 }
  events := []
  reply := .nothing
  draws := draw + 1

/-- The machine right after reset, with the spec's default parameters (00_scope.md R7; log 1) and no host event
pending. -/
def State.reset : State := State.afterReset Config.magicDefault Config.extTermDefault 0

end Sys2Proof.Machine
end

