-- ==== Sys2Proof/Machine/Flags.lean ====
section
/-!
DEFINITION. Every flag and status computation: the derived flags and the words of STATUS, ERR and PARAM (10_state.md
R24, R26), the interrupt bits (60_exceptions.md R300 to R302), the progress percentage (R310), and which events the
ports can take (20_memory.md R61).
-/

namespace Sys2Proof.Machine

/-- The value of PHASE (10_state.md R22). -/
def phaseBits : Phase → BitVec 4
  | .idle => 0
  | .encCount => 1
  | .encCode => 2
  | .decMagic => 3
  | .decExt => 4
  | .decWait => 5
  | .decDict => 6
  | .decPayload => 7
  | .done => 8
  | .error => 9

/-- The value of OP (10_state.md R23). -/
def opBits : Op → BitVec 2
  | .none => 0
  | .compress => 1
  | .decompress => 2

/-- The value of an error code, its class in the high nibble (60_exceptions.md R281). -/
def errBits : ErrCode → BitVec 8
  | .none => 0x00
  | .magic => 0x01
  | .skel => 0x02
  | .extLong => 0x03
  | .eof => 0x10
  | .io => 0x11
  | .mismatch => 0x12
  | .conflict => 0x20
  | .policy => 0x30
  | .empty => 0x31
  | .cancel => 0x40
  | .badExt => 0x50
  | .range => 0x51

/-- Whether IN(b) is accepted in a phase (10_state.md R22, last column). -/
def phaseAccepts : Phase → Bool
  | .idle => false
  | .encCount => true
  | .encCode => true
  | .decMagic => true
  | .decExt => true
  | .decWait => false
  | .decDict => true
  | .decPayload => true
  | .done => false
  | .error => false

/-- The decoder phases that accept input (47_decoder.md R231). -/
def phaseDecoding : Phase → Bool
  | .idle => false
  | .encCount => false
  | .encCode => false
  | .decMagic => true
  | .decExt => true
  | .decWait => false
  | .decDict => true
  | .decPayload => true
  | .done => false
  | .error => false

/-- The phases of a running operation, 1 to 7 (48_host_commands.md R264). -/
def phaseRunning : Phase → Bool
  | .idle => false
  | .encCount => true
  | .encCode => true
  | .decMagic => true
  | .decExt => true
  | .decWait => true
  | .decDict => true
  | .decPayload => true
  | .done => false
  | .error => false

/-- DONE, ERRF and WAIT (10_state.md R24). -/
def State.doneFlag (s : State) : Bool := decide (s.phase = .done)
def State.errFlag (s : State) : Bool := decide (s.phase = .error)
def State.waitFlag (s : State) : Bool := decide (s.phase = .decWait)

/-- One flag as a bit. -/
def bit1 (b : Bool) : BitVec 1 := BitVec.ofBool b

/-- STATUS (10_state.md R26); BUSY reads 0 (70_reset_and_hazards.md R335). -/
def State.statusWord (s : State) : Word :=
  0#18 ++ bit1 s.waitFlag ++ bit1 s.codeValid ++ bit1 s.freqValid ++ bit1 s.discard ++ bit1 s.cmderr
    ++ bit1 s.errFlag ++ bit1 s.doneFlag ++ 0#1 ++ opBits s.op ++ phaseBits s.phase

/-- ERR (10_state.md R26). -/
def State.errWord (s : State) : Word := 0#20 ++ phaseBits s.err.phase ++ errBits s.err.code

/-- PARAM (10_state.md R26): NSLOT = 513, SYMW = 9, EXT_MAX = 255, EXT_TERM. -/
def State.paramWord (s : State) : Word := 0#2 ++ 513#10 ++ 9#4 ++ 255#8 ++ s.termReg

/-- The interrupt sources (60_exceptions.md R300). -/
inductive Irq
  | done | error | wait | prog | cmderr
  deriving DecidableEq, Repr

/-- The bit of a source in IRQ_PEND and IRQ_EN (R300). -/
def Irq.bit : Irq → BitVec 5
  | .done => 0x01
  | .error => 0x02
  | .wait => 0x04
  | .prog => 0x08
  | .cmderr => 0x10

/-- An event sets its pending bit, enabled or not (R301). -/
def State.pend (s : State) (q : Irq) : State := { s with irqPend := s.irqPend ||| q.bit }

/-- The interrupt line (R302). -/
def State.irq (s : State) : Bool := decide (s.irqPend &&& s.irqEn ≠ 0)

/-- Writing PCT pends PROG when the value rises (R310). -/
def State.setPct (s : State) (v : BitVec 7) : State :=
  let t : State := { s with pct := v }
  if s.pct < v then t.pend .prog else t

/-- The progress formula (R310); a compress counts each pass as half. TOTAL_LEN is not 0 where it is used (log 16). -/
def State.progress (s : State) : BitVec 7 :=
  let n := s.totalLen.toNat
  let k := s.inCnt.toNat
  match s.op with
  | .compress =>
    let p := if s.phase = .encCode then n else 0
    BitVec.ofNat 7 (100 * (p + k) / (2 * n))
  | .decompress => BitVec.ofNat 7 (100 * k / n)
  | .none => s.pct

/-- `update PCT` (R310). -/
def State.updatePct (s : State) : State := s.setPct s.progress

/-- in_ready (20_memory.md R61). -/
def State.inReady (s : State) : Bool := phaseAccepts s.phase

/-- The oldest byte of OUTSEQ not yet transferred, where there is one: out_valid and out_data (20_memory.md R61). -/
def State.outData (s : State) : Option Byte := s.out.seq[s.out.taken]?

/-- Whether a host event can take place now; an offered byte waits while in_ready = 0 (48_host_commands.md R267), a
host that is ready for output waits while there is none. -/
def State.canTake (s : State) : HostEvent → Bool
  | .inByte _ => s.inReady
  | .outByte => s.outData.isSome
  | .read _ => true
  | .write _ _ => true
  | .narrow _ => true
  | .reset => true

end Sys2Proof.Machine
end

