-- ==== Sys2Proof/Machine/Ops.lean ====
section
/-!
DEFINITION. The operations every meaning shares: how a transition goes on or ends (`Flow`), error entry
(60_exceptions.md R290) and the return from it (R294, 48_host_commands.md R265), command rejection (R261), success,
and the part common to the two start commands.
-/

namespace Sys2Proof.Machine

/-- How a transition stands after one of its steps: it goes on, it has ended (a raise, or DONE), or it has stopped. -/
inductive Flow
  | go (s : State)
  | ended (s : State)
  | stop (f : Fault)
  | refuse (r : Refusal)
  deriving DecidableEq, Repr

/-- The next step of a transition; nothing after a raise is done (60_exceptions.md R290). -/
def Flow.bind (m : Flow) (f : State → Flow) : Flow :=
  match m with
  | .go s => f s
  | .ended s => .ended s
  | .stop e => .stop e
  | .refuse r => .refuse r

/-- The outcome of a whole transition. -/
def Flow.outcome : Flow → Host.Outcome State Fault Refusal
  | .go s => .next s
  | .ended s => .next s
  | .stop e => .fault e
  | .refuse r => .refused r

/-- Error entry (R290): ERR and ERRINFO take the values at the moment of the raise, PHASE becomes ERROR. -/
def errorEntry (c : ErrCode) (s : State) : State :=
  { s with
    err := { code := c, phase := s.phase, info := s.inCnt }
    discard := true
    phase := .error
    irqPend := s.irqPend ||| Irq.error.bit }

/-- `raise E_X`: error entry, and the rest of the transition is abandoned (R290). -/
def raise (c : ErrCode) (s : State) : Flow := .ended (errorEntry c s)

/-- Return from ERROR or DONE to IDLE, the effect of CLEAR (R294, 48_host_commands.md R265). -/
def returnToIdle (s : State) : State :=
  { s with
    phase := .idle
    op := .none
    err := { code := .none, phase := .idle, info := 0 }
    cmderr := false
    discard := false
    irqPend := 0
    inCnt := 0
    out := { s.out with cnt := 0 }
    pct := 0 }

/-- `reject(w)` (48_host_commands.md R261). -/
def reject (w : Word) (s : State) : State :=
  { s with cmderr := true, badCmd := w, irqPend := s.irqPend ||| Irq.cmderr.bit }

/-- Rejection of an instruction that is not legal in the current PHASE (30_encoding.md R94): `reject` of its word. -/
def rejectCommand (opcode arg : Byte) (s : State) : State := reject (commandWord opcode arg) s

/-- `PCT <- 100 ; PHASE <- DONE ; IRQ_PEND.DONE <- 1` (46_encoder.md R218, 47_decoder.md R240). -/
def finish (s : State) : State :=
  let t := s.setPct 100
  ({ t with phase := .done }).pend .done

/-- `eof_check()` (47_decoder.md R242). -/
def eofCheck (s : State) : Flow := if s.inCnt = s.totalLen then raise .eof s else .go s

/-- `emit(b)` (00_scope.md R10). -/
def emit (b : Byte) (o : Output) : Output := { o with seq := o.seq ++ [b], cnt := o.cnt + 1 }

/-- `push(e)` (10_state.md R43); the index is checked against the array bound (00_scope.md R10). -/
def push (e : Entry) (k : Stack) : Option Stack :=
  if k.psn.toNat < 513 then some { ps := k.ps.setIfInBounds k.psn.toNat e, psn := k.psn + 1 } else none

/-- Pop (10_state.md R43); none from an empty stack. The index is checked against the array bound (00_scope.md R10). -/
def pop (k : Stack) : Option (Entry × Stack) :=
  if k.psn = 0 then none
  else k.ps[(k.psn - 1).toNat]?.map fun e => (e, { k with psn := k.psn - 1 })

/-- `ft_clear()` (41_frequency_table.md R135). -/
def ftClear : Vector Word 257 := (Vector.replicate 257 0).set 256 Config.sentWeight

/-- `add(b)` (41_frequency_table.md R136). -/
def ftAdd (b : Byte) (freq : Vector Word 257) : Vector Word 257 :=
  have h : b.toNat < 257 := by have := b.isLt; omega
  freq.set b.toNat (freq[b.toNat] + 1)

/-- The assignments ENC_START and DEC_START share (46_encoder.md R210, 47_decoder.md R230). The output port has no
byte left to offer after OUTSEQ is emptied (log 5). -/
def startOperation (o : Op) (s : State) : State :=
  { s with
    op := o
    err := { code := .none, phase := .idle, info := 0 }
    discard := false
    freqValid := false
    codeValid := false
    inCnt := 0
    out := { s.out with seq := [], cnt := 0, taken := 0 }
    estBytes := 0
    nleaf := 0
    nnode := 0
    pct := 0
    stack := { s.stack with psn := 0 }
    tree := { s.tree with nn := 0, fill := 0, sentNode := 0 }
    freq := ftClear }

end Sys2Proof.Machine
end

