-- ==== Sys2Proof/Machine/Operands.lean ====
section
/-!
DEFINITION. Every operand form: STOP's reason (30_encoding.md R93), and the host register space, that is which
register an address names (10_state.md R26, 20_memory.md R74), what it reads as (R66, R71) and what a write does to it
(R67 to R69).
-/

namespace Sys2Proof.Machine

/-- The error a STOP reason raises where it is legal (48_host_commands.md R264): CONFLICT only in DEC_WAIT. -/
def stopCause (arg : Byte) (p : Phase) : Option ErrCode :=
  if phaseRunning p = false then none
  else if arg = 0 then some .cancel
  else if arg = 1 then (if p = .decWait then some .conflict else none)
  else if arg = 2 then some .io
  else none

/-- The host-visible registers and windows (10_state.md R26). -/
inductive Reg
  | id | cmd | status | err | errInfo | ctrl | irqEn | irqPend | totalLen | extLen | inCnt | outCntLo | outCntHi
  | estLo | estHi | nleaf | nnode | pct | magic | param | badCmd
  | ext (i : Nat) | freq (s : Nat) | codeLen (s : Nat) | codeBits (s w : Nat)
  deriving DecidableEq, Repr

/-- The 21 control and status registers in address order, 0x000 to 0x050 (R26). -/
def controlRegs : List Reg :=
  [.id, .cmd, .status, .err, .errInfo, .ctrl, .irqEn, .irqPend, .totalLen, .extLen, .inCnt, .outCntLo, .outCntHi,
   .estLo, .estHi, .nleaf, .nnode, .pct, .magic, .param, .badCmd]

/-- The register at a byte address; none where the address is misaligned (R68) or unmapped (R69, R74). -/
def regAt (a : BitVec 15) : Option Reg :=
  let n := a.toNat
  if n % 4 ≠ 0 then none
  else if n < 0x400 then controlRegs[n / 4]?
  else if n < 0x7FC then some (.ext ((n - 0x400) / 4))
  else if n < 0x800 then none
  else if n < 0xC04 then some (.freq ((n - 0x800) / 4))
  else if n < 0x1000 then none
  else if n < 0x1404 then some (.codeLen ((n - 0x1000) / 4))
  else if n < 0x2000 then none
  else if n < 0x4020 then some (.codeBits ((n - 0x2000) / 32) ((n - 0x2000) % 32 / 4))
  else none

/-- Word `w` of a 256-bit code, word 0 the most significant (10_state.md R45). -/
def codeWord (v : BitVec 256) (w : Nat) : Word := v.extractLsb' (224 - 32 * w) 32

/-- What a register reads as, unlisted bits 0 (R26, R66, R71); a free word or byte where the spec gives no value (U2,
U3; log 3). -/
def regValue (r : Reg) (s : State) : Word :=
  match r with
  | .id => Config.idWord
  | .cmd => 0
  | .status => s.statusWord
  | .err => s.errWord
  | .errInfo => s.err.info
  | .ctrl => (bit1 s.force).setWidth 32
  | .irqEn => s.irqEn.setWidth 32
  | .irqPend => s.irqPend.setWidth 32
  | .totalLen => s.totalLen
  | .extLen => s.extLen.setWidth 32
  | .inCnt => s.inCnt
  | .outCntLo => s.out.cnt.extractLsb' 0 32
  | .outCntHi => s.out.cnt.extractLsb' 32 32
  | .estLo => s.estBytes.extractLsb' 0 32
  | .estHi => s.estBytes.extractLsb' 32 32
  | .nleaf => s.nleaf.setWidth 32
  | .nnode => s.nnode.setWidth 32
  | .pct => s.pct.setWidth 32
  | .magic => s.magicReg.setWidth 32
  | .param => s.paramWord
  | .badCmd => s.badCmd
  | .ext i =>
    if i < s.extLen.toNat then (s.ext[i]?.getD 0).setWidth 32 else (Config.freeByte s.draws).setWidth 32
  | .freq k => if s.freqValid then s.freq[k]?.getD 0 else Config.freeWord s.draws
  | .codeLen k => if s.codeValid then (s.codes.len[k]?.getD 0).setWidth 32 else Config.freeWord s.draws
  | .codeBits k w => if s.codeValid then codeWord (s.codes.bits[k]?.getD 0) w else Config.freeWord s.draws

/-- Whether a read draws a free value (U2, U3). -/
def readsFree (r : Reg) (s : State) : Bool :=
  match r with
  | .ext i => decide (s.extLen.toNat ≤ i)
  | .freq _ => !s.freqValid
  | .codeLen _ => !s.codeValid
  | .codeBits _ _ => !s.codeValid
  | .id | .cmd | .status | .err | .errInfo | .ctrl | .irqEn | .irqPend | .totalLen | .extLen | .inCnt | .outCntLo
  | .outCntHi | .estLo | .estHi | .nleaf | .nnode | .pct | .magic | .param | .badCmd => false

/-- `HostRead(a)` (R66): the value to the port and no effect on any register; a bus error where nothing is mapped or
the address is misaligned (R68, R69). -/
def hostRead (a : BitVec 15) (s : State) : State :=
  match regAt a with
  | none => { s with reply := .busError }
  | some r =>
    { s with reply := .data (regValue r s), draws := if readsFree r s then s.draws + 1 else s.draws }

/-- The access is refused and changes nothing (R68, R69). -/
def refuseAccess (s : State) : State := { s with reply := .busError }

/-- A write of a configuration register or extension byte: only in IDLE (RW-IDLE, R26, R67, R69). -/
def writeConfig (s t : State) : State := if s.phase = .idle then { t with reply := .ack } else refuseAccess s

/-- `HostWrite(a, v)` of a register other than CMD (R67 to R69). -/
def writeReg (r : Reg) (v : Word) (s : State) : State :=
  match r with
  | .ctrl => writeConfig s { s with force := v.getLsbD 0 }
  | .totalLen => writeConfig s { s with totalLen := v }
  | .extLen => writeConfig s { s with extLen := v.extractLsb' 0 8 }
  | .ext i => writeConfig s { s with ext := s.ext.setIfInBounds i (v.extractLsb' 0 8) }
  | .irqEn => { s with irqEn := v.extractLsb' 0 5, reply := .ack }
  | .irqPend => { s with irqPend := s.irqPend &&& ~~~(v.extractLsb' 0 5), reply := .ack }
  | .cmd => { s with reply := .ack }
  | .id | .status | .err | .errInfo | .inCnt | .outCntLo | .outCntHi | .estLo | .estHi | .nleaf | .nnode | .pct
  | .magic | .param | .badCmd | .freq _ | .codeLen _ | .codeBits _ _ => refuseAccess s

end Sys2Proof.Machine
end

