-- ==== Sys2Proof/Machine/Commands.lean ====
section
/-!
DEFINITION. The host commands that belong to no one codec (48_host_commands.md): NOP (R263), STOP (R264), CLEAR (R265).
-/

namespace Sys2Proof.Machine

/-- NOP (R263): legal in every phase, changes nothing. -/
def execNop (s : State) : Host.Outcome State Fault Refusal := .next s

/-- STOP (R264): error entry with the reason's code, or rejection where the reason is not legal in this phase (R94). -/
def execStop (arg : Byte) (s : State) : Host.Outcome State Fault Refusal :=
  match stopCause arg s.phase with
  | some c => .next (errorEntry c s)
  | none => .next (rejectCommand 0x04 arg s)

/-- CLEAR (R265): the return to IDLE, legal in IDLE, DONE and ERROR. -/
def execClear (s : State) : Host.Outcome State Fault Refusal :=
  if phaseRunning s.phase then .next (rejectCommand 0x05 0 s) else .next (returnToIdle s)

end Sys2Proof.Machine
end

