-- ==== Sys2Proof/Machine/Queue.lean ====
section
/-!
DEFINITION. The MinPriorityQueue (42_priority_queue.md R146 to R150), its sifts transcribed literally
(70_reset_and_hazards.md R331). HEAP is indexed from 1.
-/

namespace Sys2Proof.Machine

/-- HEAP[i], for 1 ≤ i ≤ 257. -/
def heapAt (h : Vector Entry 257) (i : Nat) : Entry := h[i - 1]?.getD default

/-- `swap HEAP[i] and HEAP[j]`. -/
def heapSwap (h : Vector Entry 257) (i j : Nat) : Vector Entry 257 :=
  (h.setIfInBounds (i - 1) (heapAt h j)).setIfInBounds (j - 1) (heapAt h i)

/-- `less(x, y)` (R147): the weights alone, so two equal weights are less in neither direction. -/
def less (x y : Entry) : Bool := decide (x.weight < y.weight)

/-- `pq_clear()` (R146). -/
def pqClear (q : Queue) : Queue := { q with hn := 0 }

/-- The sift-up of R148; the loop halves `i`, so `i` rounds are enough. -/
def siftUp : Nat → Vector Entry 257 → Nat → Vector Entry 257
  | 0, h, _ => h
  | fuel + 1, h, i =>
    if 1 < i ∧ less (heapAt h i) (heapAt h (i / 2)) = true then siftUp fuel (heapSwap h i (i / 2)) (i / 2) else h

/-- `insert(e)` (R148); none on a full queue (U10). -/
def pqInsert (e : Entry) (q : Queue) : Option Queue :=
  if q.hn.toNat < 257 then
    let n := q.hn.toNat + 1
    some { heap := siftUp n (q.heap.setIfInBounds (n - 1) e) n, hn := q.hn + 1 }
  else none

/-- The child a sinking entry is compared with: the right one only if strictly lighter than the left (R149). -/
def siftChild (h : Vector Entry 257) (n i : Nat) : Nat :=
  if 2 * i + 1 ≤ n ∧ less (heapAt h (2 * i + 1)) (heapAt h (2 * i)) = true then 2 * i + 1 else 2 * i

/-- The sift-down of R149 in HEAP[1..n]; the loop doubles `i`, so `n` rounds are enough. -/
def siftDown : Nat → Vector Entry 257 → Nat → Nat → Vector Entry 257
  | 0, h, _, _ => h
  | fuel + 1, h, n, i =>
    if n < 2 * i then h
    else
      let c := siftChild h n i
      if less (heapAt h c) (heapAt h i) = true then siftDown fuel (heapSwap h c i) n c else h

/-- `removeMin()` (R149): the entry and the queue without it; none on an empty queue (U9), and none where HN is
beyond the array (00_scope.md R10). -/
def removeMin (q : Queue) : Option (Entry × Queue) :=
  let n := q.hn.toNat
  if 1 ≤ n ∧ n ≤ 257 then
    some (heapAt q.heap 1,
      { heap := siftDown n (q.heap.setIfInBounds 0 (heapAt q.heap n)) (n - 1) 1, hn := q.hn - 1 })
  else none

/-- `size()` (R150). -/
def pqSize (q : Queue) : Nat := q.hn.toNat

end Sys2Proof.Machine
end

