-- ==== Sys2Proof/Machine/Builder.lean ====
section
/-!
DEFINITION. The TreeBuilder (43_tree_builder.md R160 to R171): queue loading, merge loop, pair stack, tree assembly.
-/

namespace Sys2Proof.Machine

/-! ### From counts to the pair stack -/

/-- Insertion of the byte values from `s` upward, `k` of them (R161). -/
def loadFrom (freq : Vector Word 257) : Nat → Nat → Queue → Option Queue
  | 0, _, q => some q
  | k + 1, s, q =>
    let w := freq[s]?.getD 0
    if w = 0 then loadFrom freq k (s + 1) q
    else
      match pqInsert { weight := w, sym := some (BitVec.ofNat 9 s) } q with
      | some q' => loadFrom freq k (s + 1) q'
      | none => none

/-- Queue loading (R161): the sentinel first, then the byte values in ascending order. -/
def loadQueue (freq : Vector Word 257) (q : Queue) : Option Queue :=
  match pqInsert { weight := 1, sym := some Config.sent } (pqClear q) with
  | some q' => loadFrom freq 256 0 q'
  | none => none

/-- What a build loop can come to. -/
inductive Built
  | ok (q : Queue) (k : Stack)
  | emptyQueue
  | fullQueue
  | arrayBound
  deriving DecidableEq, Repr

/-- One round of the merge loop (R162). -/
def mergeOnce (q : Queue) (k : Stack) : Built :=
  match removeMin q with
  | none => .emptyQueue
  | some (left, q1) =>
    match removeMin q1 with
    | none => .emptyQueue
    | some (right, q2) =>
      match push left k with
      | none => .arrayBound
      | some k1 =>
        match push right k1 with
        | none => .arrayBound
        | some k2 =>
          match pqInsert { weight := left.weight + right.weight, sym := none } q2 with
          | none => .fullQueue
          | some q3 => .ok q3 k2

/-- The merge loop (R162), while the queue holds more than one entry; each round takes one away. -/
def mergeLoop : Nat → Queue → Stack → Built
  | 0, q, k => .ok q k
  | fuel + 1, q, k =>
    if 1 < pqSize q then
      match mergeOnce q k with
      | .ok q' k' => mergeLoop fuel q' k'
      | .emptyQueue => .emptyQueue
      | .fullQueue => .fullQueue
      | .arrayBound => .arrayBound
    else .ok q k

/-- The last entry (R164). -/
def pushLast (q : Queue) (k : Stack) : Built :=
  match removeMin q with
  | none => .emptyQueue
  | some (last, q') =>
    match push last k with
    | none => .arrayBound
    | some k' => .ok q' k'

/-- The pair stack of a frequency table: loading, merging, the last entry (R160). -/
def buildStack (freq : Vector Word 257) (q : Queue) (k : Stack) : Built :=
  match loadQueue freq q with
  | none => .fullQueue
  | some q1 =>
    match mergeLoop (pqSize q1) q1 { k with psn := 0 } with
    | .ok q2 k2 => pushLast q2 k2
    | .emptyQueue => .emptyQueue
    | .fullQueue => .fullQueue
    | .arrayBound => .arrayBound

/-- Entries popped one after another until the stack is exhausted, at most `fuel` (R168); with what is left. -/
def popEntries : Nat → Stack → List Entry × Stack
  | 0, k => ([], k)
  | fuel + 1, k =>
    match pop k with
    | none => ([], k)
    | some (e, k') => (e :: (popEntries fuel k').1, (popEntries fuel k').2)

/-- The construction sequence of a built stack: the popped entries' symbols, so from the top down (R166). -/
def constructionOrder (k : Stack) : List (Option Sym) := (popEntries k.psn.toNat k).1.map Entry.sym

/-- The stack once its construction sequence has been popped: "consumed once by tree (re)construction, then discarded"
(10_state.md R43). -/
def consumed (k : Stack) : Stack := (popEntries k.psn.toNat k).2

/-! ### From the construction sequence to the tree -/

/-- The node an entry becomes (R167). -/
def nodeOf : Option Sym → Node
  | some sym => .leaf sym
  | none => .bare

/-- Node creation from index `k` on (R167). -/
def createNodes : List (Option Sym) → Nat → Vector Node 513 → Vector Node 513
  | [], _, v => v
  | e :: q, k, v => createNodes q (k + 1) (v.setIfInBounds k (nodeOf e))

/-- The scan of R168: the least childless placeholder from `fill` on, or `k`; at most `fuel` moves. -/
def advanceFill (v : Vector Node 513) (k : Nat) : Nat → Nat → Nat
  | 0, fill => fill
  | fuel + 1, fill =>
    if fill < k ∧ v[fill]? ≠ some Node.bare then advanceFill v k fuel (fill + 1) else fill

/-- The attaching of pairs (R168): `m` pairs, the next one (k, k + 1). The flag is false at a pair that finds no
childless placeholder. -/
def attachPairs : Nat → Nat → Vector Node 513 → Nat → Bool × Vector Node 513 × Nat
  | 0, _, v, fill => (true, v, fill)
  | m + 1, k, v, fill =>
    let f := advanceFill v k (k - fill) fill
    if k ≤ f then (false, v, f)
    else attachPairs m (k + 2) (v.setIfInBounds f (.pair (BitVec.ofNat 10 k) (BitVec.ofNat 10 (k + 1)))) f

/-- `assemble(Q)` (R167, R168): false where it returns MALFORMED. What was done before stays done (R290; log 13). -/
def assemble (q : List (Option Sym)) (t : Tree) : Bool × Tree :=
  let n := q.length
  let v := createNodes q 0 t.node
  let t1 : Tree := { t with node := v, nn := BitVec.ofNat 10 n }
  if n % 2 = 0 then (false, t1)
  else
    let (ok, v2, f) := attachPairs ((n - 1) / 2) 1 v 0
    let t2 : Tree := { t1 with node := v2, fill := BitVec.ofNat 10 f }
    if ok = false then (false, t2)
    else if (v2.toList.take n).contains Node.bare then (false, t2)
    else if leafAt v2 0 then (false, t2)
    else (true, t2)

/-- The number of leaves among the first `n` nodes (R170). -/
def leafCount (v : Vector Node 513) (n : Nat) : Nat := ((v.toList.take n).filter Node.isLeaf).length

/-- NLEAF and NNODE after an assembly (R170). -/
def recordSizes (s : State) : State :=
  { s with nleaf := BitVec.ofNat 9 (leafCount s.tree.node s.tree.nn.toNat), nnode := s.tree.nn }

/-- `tb_build()` (R160), with SENT_NODE the last node (R171). It cannot fail in a state a run reaches (R172; log 14). -/
def tbBuild (s : State) : Flow :=
  match buildStack s.freq s.queue s.stack with
  | .emptyQueue => .refuse .emptyQueue
  | .fullQueue => .refuse .fullQueue
  | .arrayBound => .stop .arrayBound
  | .ok q k =>
    let (ok, t) := assemble (constructionOrder k) s.tree
    if ok = false then .stop .buildMalformed
    else .go (recordSizes { s with queue := q, stack := consumed k, tree := { t with sentNode := t.nn - 1 } })

end Sys2Proof.Machine
end

