-- ==== Sys2Proof/Machine/Packer.lean ====
section
/-!
DEFINITION. The BitPacker (40_bitpacker.md R120 to R124).
-/

namespace Sys2Proof.Machine

/-- `bp_reset()` (R120). -/
def bpReset (o : Output) : Output := { o with acc := 0, nb := 0 }

/-- `put_bit(b)` (R121). -/
def putBit (b : Bool) (o : Output) : Output :=
  let acc := o.acc.shiftConcat b
  if o.nb = 7 then { emit acc o with acc := 0, nb := 0 } else { o with acc := acc, nb := o.nb + 1 }

/-- `put_bit` of each bit of a list, in order. -/
def putAll : List Bool → Output → Output
  | [], o => o
  | b :: bits, o => putAll bits (putBit b o)

/-- `put_bits(v, n)`, most significant bit first (R122). -/
def putBits {n : Nat} (v : BitVec n) (o : Output) : Output := putAll (bitsMsb v) o

/-- `bp_flush()` (R123). -/
def bpFlush (o : Output) : Output :=
  if o.nb = 0 then o else { emit (o.acc <<< (8 - o.nb.toNat)) o with acc := 0, nb := 0 }

/-- The bits of a code of length `len` in transmission order: CODE_BITS[255], CODE_BITS[254], … (10_state.md R45). -/
def codeBitList (len : BitVec 9) (bits : BitVec 256) : List Bool := (List.range len.toNat).map bits.getMsbD

/-- The code of a symbol as the code table holds it; none for a symbol outside the table or without a code. -/
def codeOf (c : Codes) (sym : Sym) : Option (List Bool) :=
  match c.len[sym.toNat]?, c.bits[sym.toNat]? with
  | some n, some v => if n = 0 then none else some (codeBitList n v)
  | _, _ => none

/-- `put_code(s)` (R124); a symbol without a code is never passed (93_implementation_defined.md U11). -/
def putCode (sym : Sym) (s : State) : Flow :=
  match codeOf s.codes sym with
  | some bits => .go { s with out := putAll bits s.out }
  | none => .stop .codeMissing

end Sys2Proof.Machine
end

