-- ==== Sys2Proof/Machine/Codes.lean ====
section
/-!
DEFINITION. The code-table generator and the size estimate (44_code_table.md R181, R185).
-/

namespace Sys2Proof.Machine

/-- `PATH[i] <- b`. -/
def setPathBit (path : BitVec 256) (i : Nat) (b : Bool) : BitVec 256 :=
  if b then path ||| (1#256 <<< i) else path &&& ~~~(1#256 <<< i)

/-- A path with bits [255 − n : 0] forced to 0 (R181). -/
def keepTop (path : BitVec 256) (n : Nat) : BitVec 256 := path &&& (BitVec.allOnes 256 <<< (256 - n))

/-- Append one character to the path buffer (R181); none where the buffer is full. -/
def pathPush (b : Bool) (c : Codes) : Option Codes :=
  if c.pathLen.toNat < 256 then
    some { c with path := setPathBit c.path (255 - c.pathLen.toNat) b, pathLen := c.pathLen + 1 }
  else none

/-- Remove the last character (R181). -/
def pathPop (c : Codes) : Codes := { c with pathLen := c.pathLen - 1 }

/-- Record the path as the code of a leaf's symbol (R181); none for a symbol outside the table. -/
def recordCode (sym : Sym) (c : Codes) : Option Codes :=
  if sym.toNat < 257 then
    some { c with
      len := c.len.setIfInBounds sym.toNat c.pathLen
      bits := c.bits.setIfInBounds sym.toNat (keepTop c.path c.pathLen.toNat) }
  else none

/-- Whether a node of the tree with a higher number than `k` is a leaf of the same symbol (R187). -/
def higherLeaf (t : Tree) (k : NodeIx) (sym : Sym) : Bool :=
  (List.range t.nn.toNat).any fun i => decide (k.toNat < i) && decide (t.node[i]? = some (.leaf sym))

/-- `visit(k)` (R181), with the one shared path buffer (70_reset_and_hazards.md R330). `fuel` bounds the depth. A leaf
that gives way to another one of its symbol is visited and not recorded; of the others the one visited last stays. -/
def visit (givesWay : NodeIx → Sym → Bool) (v : Vector Node 513) : Nat → NodeIx → Codes → Option Codes
  | 0, _, _ => none
  | fuel + 1, k, c =>
    match v[k.toNat]? with
    | some (.leaf sym) => if givesWay k sym = true then some c else recordCode sym c
    | some (.pair l r) =>
      (pathPush false c).bind fun c1 =>
      (visit givesWay v fuel l c1).bind fun c2 =>
      (pathPush true (pathPop c2)).bind fun c3 =>
      (visit givesWay v fuel r c3).map pathPop
    | some .bare => none
    | none => none

/-- `derive_codes()` (R181): the tables cleared, then the traversal from the root; a tree has at most 257 levels. None
on a tree that is not finished. Where leaves repeat a symbol (R187) the code that stays is, `byNumber` (D29), that of the
highest-numbered one, else that of the one visited last. -/
def deriveCodesBy (byNumber : Bool) (t : Tree) (c : Codes) : Option Codes :=
  visit (fun k sym => higherLeaf t k sym && byNumber) t.node 257 0
    { c with len := Vector.replicate 257 0, bits := Vector.replicate 257 0, pathLen := 0 }

/-- `derive_codes()` (R181), of the two readings of R187 the one that holds (log 23). -/
def deriveCodes (t : Tree) (c : Codes) : Option Codes := deriveCodesBy Config.repeatedByNumber t c

/-- `derive_codes() ; CODE_VALID <- 1` (46_encoder.md R214, 47_decoder.md R238, R243). -/
def deriveStep (s : State) : Flow :=
  match deriveCodes s.tree s.codes with
  | some c => .go { s with codes := c, codeValid := true }
  | none => .stop .treeUnfinished

/-- HDR_BITS (R185). -/
def headerBits (s : State) : Nat := 16 + 8 * (s.extLen.toNat + 1) + 513 + 9 * s.nleaf.toNat

/-- PAY_BITS (R185): the sum over all 257 symbols of count times code length. -/
def payloadBits (freq : Vector Word 257) (len : Vector (BitVec 9) 257) : Nat :=
  ((freq.toList.zip len.toList).map fun p => p.1.toNat * p.2.toNat).sum

/-- `estimate()` (R185), rounded up to whole bytes. -/
def estimate (s : State) : State :=
  { s with estBytes := BitVec.ofNat 64 ((headerBits s + payloadBits s.freq s.codes.len + 7) / 8) }

end Sys2Proof.Machine
end

