-- ==== Sys2Proof/Machine/Skeleton.lean ====
section
/-!
DEFINITION. The dictionary skeleton (45_skeleton.md): the serializer (R197), `dict_bit` (R200), `rebuild` (R202) and
the conditions that make a skeleton malformed (R203).
-/

namespace Sys2Proof.Machine

/-! ### Write side -/

/-- The bits of one slot (R197): a leaf of the tree, or an internal node or padding. -/
def slotBits (t : Tree) (k : Nat) : List Bool :=
  if k < t.nn.toNat then
    match t.node[k]? with
    | some (.leaf sym) => true :: bitsMsb sym
    | some .bare => [false]
    | some (.pair _ _) => [false]
    | none => [false]
  else [false]

/-- The bits of all 513 slots (R196, R197). -/
def skeletonBits (t : Tree) : List Bool := (List.range Config.nslot).flatMap (slotBits t)

/-- `write_skeleton()` (R197). -/
def writeSkeleton (t : Tree) (o : Output) : Output := putAll (skeletonBits t) o

/-! ### Read side -/

/-- One plus the index of the last entry with a symbol, 0 when there is none (R202). -/
def realSlots : List Entry → Nat
  | [] => 0
  | e :: rest =>
    match realSlots rest with
    | 0 => if e.sym.isSome then 1 else 0
    | n + 1 => n + 2

/-- Conditions 2 to 5 of R203 on the cut sequence: an even count, a leaf at the root, a last leaf that is not 256,
another leaf above 255. Condition 1 is tested before, condition 6 is `assemble`'s. -/
def skeletonMalformed (q : List (Option Sym)) : Bool :=
  q.length % 2 == 0
    || (q.head?.getD none).isSome
    || q.getLast?.getD none != some Config.sent
    || q.dropLast.any fun e => match e with
      | some sym => decide (256 ≤ sym.toNat)
      | none => false

/-- `rebuild()` (R202, R203). -/
def rebuild (s : State) : Flow :=
  let n := realSlots s.stack.ps.toList
  if n = 0 then raise .skel s
  else
    let s1 : State := { s with stack := { s.stack with psn := BitVec.ofNat 10 n } }
    let q := (s.stack.ps.toList.take n).map Entry.sym
    if skeletonMalformed q then raise .skel s1
    else
      let (ok, t) := assemble q s1.tree
      if ok = false then raise .skel { s1 with tree := t }
      else
        .go (recordSizes
          { s1 with
            tree := { t with sentNode := BitVec.ofNat 10 (n - 1) }
            dec := { s1.dec with cur := 0 }
            stack := { s1.stack with psn := 0 } })

/-- `push( (weight = 1, symbol-or-none) ) ; SLOT <- SLOT + 1` (R200). -/
def pushSlot (sym : Option Sym) (s : State) : Flow :=
  match push { weight := 1, sym := sym } s.stack with
  | some k => .go { s with stack := k, dec := { s.dec with slot := s.dec.slot + 1 } }
  | none => .stop .arrayBound

/-- What follows every bit of the skeleton: at slot 513 `rebuild()` (R200), then the code table and DecodePayload
(47_decoder.md R238, R243). -/
def slotCheck (s : State) : Flow :=
  if s.dec.slot = 513 then
    (rebuild s).bind fun s1 => (deriveStep s1).bind fun s2 => .go { s2 with phase := .decPayload }
  else .go s

/-- `dict_step(bit)` (47_decoder.md R238), that is `dict_bit(bit)` (R200) and what follows it. -/
def dictStep (bit : Bool) (s : State) : Flow :=
  match s.dec.dstate with
  | .mark =>
    if bit then slotCheck { s with dec := { s.dec with dstate := .sym, symAcc := 0, symCnt := 0 } }
    else (pushSlot none s).bind slotCheck
  | .sym =>
    let s1 : State :=
      { s with dec := { s.dec with symAcc := s.dec.symAcc.shiftConcat bit, symCnt := s.dec.symCnt + 1 } }
    if s1.dec.symCnt = 9 then
      (pushSlot (some s1.dec.symAcc) s1).bind fun s2 =>
      slotCheck { s2 with dec := { s2.dec with dstate := .mark } }
    else slotCheck s1

end Sys2Proof.Machine
end

