-- ==== Sys2Proof/Machine/Encoder.lean ====
section
/-!
DEFINITION. The encoder (46_encoder.md): the command ENC_START (R210) and the reaction to IN(b) in ENC_COUNT (R212)
and ENC_CODE (R218).
-/

namespace Sys2Proof.Machine

/-- Whether some extension byte below EXT_LEN is EXT_TERM (R210). -/
def extHoldsTerm (s : State) : Bool := (s.ext.toList.take s.extLen.toNat).contains s.termReg

/-- What ENC_START leaves before its checks (R210): PHASE is ENC_COUNT already. -/
def encStarted (s : State) : State :=
  let s1 := startOperation .compress s
  { s1 with out := bpReset s1.out, phase := .encCount }

/-- ENC_START (R210): the three checks in this order. -/
def execEncStart (s : State) : Host.Outcome State Fault Refusal :=
  if s.phase = .idle then
    let s1 := encStarted s
    if s1.totalLen = 0 then .next (errorEntry .empty s1)
    else if s1.totalLen = Config.lenOver then .next (errorEntry .range s1)
    else if extHoldsTerm s1 then .next (errorEntry .badExt s1)
    else .next s1
  else .next (rejectCommand 0x01 0 s)

/-- `size_guard()` (R216). -/
def sizeGuard (s : State) : Flow :=
  if s.totalLen.toNat ≤ s.estBytes.toNat ∧ s.force = false then raise .policy s else .go s

/-- `write_header()` (R217). -/
def writeHeader (s : State) : State :=
  let o1 := putBits s.magicReg s.out
  let o2 := putAll ((s.ext.toList.take s.extLen.toNat).flatMap bitsOf) o1
  let o3 := putBits s.termReg o2
  { s with out := writeSkeleton s.tree o3 }

/-- `end_of_pass_1()` (R214). -/
def endOfPass1 (s : State) : Flow :=
  (tbBuild { s with freqValid := true }).bind fun s1 =>
  (deriveStep s1).bind fun s2 =>
  (sizeGuard (estimate s2)).bind fun s3 =>
  .go { writeHeader s3 with inCnt := 0, phase := .encCode }

/-- `IN(b)` in ENC_COUNT (R212). -/
def inEncCount (b : Byte) (s : State) : Flow :=
  let s1 := State.updatePct { s with freq := ftAdd b s.freq, inCnt := s.inCnt + 1 }
  if s1.inCnt = s1.totalLen then endOfPass1 s1 else .go s1

/-- The end of pass 2 (R218): the sentinel's code, the flush, DONE. -/
def endOfPass2 (s : State) : Flow :=
  (putCode Config.sent s).bind fun s1 => .ended (finish { s1 with out := bpFlush s1.out })

/-- `IN(b)` in ENC_CODE (R218). A byte without a code differs from pass 1. -/
def inEncCode (b : Byte) (s : State) : Flow :=
  let s1 : State := { s with inCnt := s.inCnt + 1 }
  if s1.codes.len[b.toNat]? = some 0 then raise .mismatch s1
  else
    (putCode (b.setWidth 9) s1).bind fun s2 =>
    let s3 := s2.updatePct
    if s3.inCnt = s3.totalLen then endOfPass2 s3 else .go s3

end Sys2Proof.Machine
end

