-- ==== Sys2Proof/Machine/Decoder.lean ====
section
/-!
DEFINITION. The decoder (47_decoder.md): the commands DEC_START (R230) and SINK_OK (R237), the reaction to IN(b) in
its phases (R231 to R234) and the payload walk (R240).
-/

namespace Sys2Proof.Machine

/-- What DEC_START leaves before its check (R230). -/
def decStarted (s : State) : State :=
  { startOperation .decompress s with
    dec := { magAcc := 0, magN := 0, dstate := .mark, symAcc := 0, symCnt := 0, slot := 0, cur := 0 }
    extLen := 0
    phase := .decMagic }

/-- DEC_START (R230): an empty stream is E_EOF at once (R242). -/
def execDecStart (s : State) : Host.Outcome State Fault Refusal :=
  if s.phase = .idle then (eofCheck (decStarted s)).outcome else .next (rejectCommand 0x02 0 s)

/-- SINK_OK (R237). -/
def execSinkOk (s : State) : Host.Outcome State Fault Refusal :=
  if s.phase = .decWait then (eofCheck { s with phase := .decDict }).outcome else .next (rejectCommand 0x03 0 s)

/-- ReadMagic (R233), one byte. -/
def magicByte (b : Byte) (s : State) : Flow :=
  let s1 : State :=
    { s with dec := { s.dec with magAcc := s.dec.magAcc.extractLsb' 0 8 ++ b, magN := s.dec.magN + 1 } }
  if s1.dec.magN = 2 then
    if s1.dec.magAcc ≠ s1.magicReg then raise .magic s1 else .go { s1 with phase := .decExt }
  else .go s1

/-- The terminator ends the extension (R234): the core waits for the host's verdict (R236). -/
def extEnd (s : State) : State := ({ s with phase := .decWait }).pend .wait

/-- An extension byte is appended; a 256th is E_EXT_LONG (R234). -/
def extAppend (b : Byte) (s : State) : Flow :=
  if s.extLen = 255 then raise .extLong s
  else .go { s with ext := s.ext.setIfInBounds s.extLen.toNat b, extLen := s.extLen + 1 }

/-- ReadExtension (R234), one byte. -/
def extensionByte (b : Byte) (s : State) : Flow := if b = s.termReg then .go (extEnd s) else extAppend b s

/-- A leaf has been reached (R240): the sentinel ends the operation, any other leaf is emitted and the cursor returns
to the root. `s` holds the leaf's index in CUR. -/
def leafReached (sym : Sym) (s : State) : Flow :=
  if s.dec.cur = s.tree.sentNode then .ended (finish s)
  else .go { s with out := emit (sym.extractLsb' 0 8) s.out, dec := { s.dec with cur := 0 } }

/-- `payload_bit(bit)` (R240). -/
def payloadBit (bit : Bool) (s : State) : Flow :=
  match childOf s.tree.node s.dec.cur bit with
  | none => .stop .walkOffTree
  | some k =>
    let s1 : State := { s with dec := { s.dec with cur := k } }
    match s.tree.node[k.toNat]? with
    | some (.leaf sym) => leafReached sym s1
    | some .bare => .go s1
    | some (.pair _ _) => .go s1
    | none => .stop .arrayBound

/-- One bit of DEC_DICT or DEC_PAYLOAD; the phase is tested before every bit, and in any other phase the bit is
dropped (R232). -/
def takeBit (bit : Bool) (s : State) : Flow :=
  match s.phase with
  | .decDict => dictStep bit s
  | .decPayload => payloadBit bit s
  | .idle => .ended s
  | .encCount => .ended s
  | .encCode => .ended s
  | .decMagic => .ended s
  | .decExt => .ended s
  | .decWait => .ended s
  | .done => .ended s
  | .error => .ended s

/-- The bits of an input byte one after another (R232). -/
def takeBits : List Bool → State → Flow
  | [], s => .go s
  | b :: bits, s => (takeBit b s).bind (takeBits bits)

/-- The frame of IN(b) in the decoder phases (R231): the count, the progress, the phase's own part, the end check. -/
def decFrame (part : State → Flow) (s : State) : Flow :=
  (part (State.updatePct { s with inCnt := s.inCnt + 1 })).bind fun s1 =>
  if phaseDecoding s1.phase then eofCheck s1 else .go s1

end Sys2Proof.Machine
end

