-- ==== Sys2Proof/Machine/Tokens.lean ====
section
/-!
DEFINITION. The container tokens as the decoder executes them: the action the opcode table names for each
(47_decoder.md R233, R234, R240, R244; 45_skeleton.md R200), on the token's own bits. Counting the bytes that carry
them, the progress and the end-of-input check are the frame of IN(b) (R231), which the step adds (log 8).
While no input is accepted a token changes nothing: it waits on the port (48_host_commands.md R267), and pad bits are
dropped (R244). Elsewhere the decoder must stand at such a token (30_encoding.md R96, R106; log 9).
-/

namespace Sys2Proof.Machine

/-- Where the decoder stands, when it stands between two tokens (30_encoding.md R96, R106). -/
def placeOf (s : State) : Option Place :=
  match s.phase with
  | .decMagic => if s.dec.magN = 0 then some .magic else none
  | .decExt => some (.ext s.termReg)
  | .decDict => if s.dec.dstate = .mark then some .slot else none
  | .decPayload => if s.dec.cur = 0 then some (.code s.tree.node) else none
  | .done => some .pad
  | .idle => none
  | .encCount => none
  | .encCode => none
  | .decWait => none
  | .error => none

/-- A token's effect: none while no input is accepted (R267), `act` where the decoder stands at such a token. -/
def tokenAt (atToken : Bool) (act : State → Flow) (s : State) : Host.Outcome State Fault Refusal :=
  if phaseAccepts s.phase = false then .next s
  else if atToken then (act s).outcome
  else .refused .tokenOutOfPlace

/-- ReadMagic on both bytes (R233). -/
def takeMagic (value : BitVec 16) (s : State) : Flow :=
  let s1 : State := { s with dec := { s.dec with magAcc := value, magN := 2 } }
  if value ≠ s1.magicReg then raise .magic s1 else .go { s1 with phase := .decExt }

/-- MAGIC (R97, R233). -/
def execMagic (value : BitVec 16) (s : State) : Host.Outcome State Fault Refusal :=
  tokenAt (decide (s.phase = .decMagic ∧ s.dec.magN = 0)) (takeMagic value) s

/-- EXTBYTE (R98, R234): a byte other than the terminator. -/
def execExtByte (b : Byte) (s : State) : Host.Outcome State Fault Refusal :=
  tokenAt (decide (s.phase = .decExt ∧ b ≠ s.termReg)) (extAppend b) s

/-- EXTTERM (R98, R234). -/
def execExtTerm (s : State) : Host.Outcome State Fault Refusal :=
  tokenAt (decide (s.phase = .decExt)) (fun t => .go (extEnd t)) s

/-- A whole slot (R200): the entry pushed, the slot counted, and what follows the 513th (R202, R238). -/
def takeSlot (sym : Option Sym) (s : State) : Flow := (pushSlot sym s).bind slotCheck

/-- SLOT_INTERNAL (R99, R100, R200). -/
def execSlotInternal (s : State) : Host.Outcome State Fault Refusal :=
  tokenAt (decide (s.phase = .decDict ∧ s.dec.dstate = .mark)) (takeSlot none) s

/-- SLOT_LEAF (R99, R101, R200): the field's bits have gone through SYMACC. -/
def takeLeafSlot (sym : Sym) (s : State) : Flow :=
  takeSlot (some sym) { s with dec := { s.dec with symAcc := sym, symCnt := 9 } }

def execSlotLeaf (sym : Sym) (s : State) : Host.Outcome State Fault Refusal :=
  tokenAt (decide (s.phase = .decDict ∧ s.dec.dstate = .mark)) (takeLeafSlot sym) s

/-- The node a run of bits leads to from `cur` (R240). -/
def walkTo (nodes : Vector Node 513) : NodeIx → List Bool → Option NodeIx
  | cur, [] => some cur
  | cur, b :: rest =>
    match childOf nodes cur b with
    | some k => walkTo nodes k rest
    | none => none

/-- Whether a run of bits is a code word of the tree: a path from the root to the first leaf on it (R102, R106). -/
def isCode (nodes : Vector Node 513) (bits : List Bool) : Bool :=
  match codeWidth nodes 0 bits with
  | .ok n => decide (n = bits.length)
  | .error _ => false

/-- DecodePayload on a whole code word (R240): the walk to its leaf, and what reaching a leaf does. -/
def takeCode (bits : List Bool) (s : State) : Flow :=
  match walkTo s.tree.node 0 bits with
  | none => .stop .walkOffTree
  | some k =>
    match s.tree.node[k.toNat]? with
    | some (.leaf sym) => leafReached sym { s with dec := { s.dec with cur := k } }
    | some .bare => .stop .walkOffTree
    | some (.pair _ _) => .stop .walkOffTree
    | none => .stop .arrayBound

/-- CODE (R102, R240). -/
def execCode (bits : List Bool) (s : State) : Host.Outcome State Fault Refusal :=
  tokenAt (decide (s.phase = .decPayload ∧ s.dec.cur = 0 ∧ isCode s.tree.node bits = true)) (takeCode bits) s

/-- PAD (R103, R244): not examined; the operation is over when the decoder meets it. -/
def execPad (_bits : List Bool) (s : State) : Host.Outcome State Fault Refusal := tokenAt false (fun t => .go t) s

end Sys2Proof.Machine
end

