-- ==== Sys2Proof/Machine/Dispatch.lean ====
section
/-!
DEFINITION. One arm per instruction.
-/

namespace Sys2Proof.Machine

def exec (i : Instr) (s : State) : Host.Outcome State Fault Refusal :=
  match i with
  | .nop => Sys2Proof.Machine.execNop s
  | .encStart => Sys2Proof.Machine.execEncStart s
  | .decStart => Sys2Proof.Machine.execDecStart s
  | .sinkOk => Sys2Proof.Machine.execSinkOk s
  | .stop arg => Sys2Proof.Machine.execStop arg s
  | .clear => Sys2Proof.Machine.execClear s
  | .magic value => Sys2Proof.Machine.execMagic value s
  | .extByte b => Sys2Proof.Machine.execExtByte b s
  | .extTerm => Sys2Proof.Machine.execExtTerm s
  | .slotInternal => Sys2Proof.Machine.execSlotInternal s
  | .slotLeaf sym => Sys2Proof.Machine.execSlotLeaf sym s
  | .code bits => Sys2Proof.Machine.execCode bits s
  | .pad bits => Sys2Proof.Machine.execPad bits s

end Sys2Proof.Machine
end

