-- ==== Sys2Proof/Machine/Events.lean ====
section
/-!
DEFINITION. The core's reaction to each host event (00_scope.md R15), and which event is next.
-/

namespace Sys2Proof.Machine

/-- The oldest event that can take place, and the others in their order. An event that has to wait (a byte while
in_ready = 0, a host ready for output while there is none) holds up no other kind of event (48_host_commands.md R267;
log 4). -/
def takeEvent (s : State) : List HostEvent → Option (HostEvent × List HostEvent)
  | [] => none
  | e :: rest =>
    if s.canTake e then some (e, rest)
    else
      match takeEvent s rest with
      | some (f, others) => some (f, e :: others)
      | none => none

/-- `WR(0x004, w)` (48_host_commands.md R260): the command is executed or the word rejected. -/
def commandWrite (w : Word) (s : State) : Host.Outcome State Fault Refusal :=
  match decodeCommand w with
  | .ok i => exec i s
  | .error _ => .next (reject w s)

/-- `WR(a, v)` (20_memory.md R67 to R69). A write of CMD always completes without a bus error (R260). -/
def hostWrite (a : BitVec 15) (v : Word) (s : State) : Host.Outcome State Fault Refusal :=
  match regAt a with
  | none => .next (refuseAccess s)
  | some .cmd => commandWrite v { s with reply := .ack }
  | some r => .next (writeReg r v s)

/-- `IN(b)` (46_encoder.md R212, R218; 47_decoder.md R231 to R234). Outside an accepting phase there is no such event
(48_host_commands.md R267). -/
def inByte (b : Byte) (s : State) : Flow :=
  match s.phase with
  | .encCount => inEncCount b s
  | .encCode => inEncCode b s
  | .decMagic => decFrame (magicByte b) s
  | .decExt => decFrame (extensionByte b) s
  | .decDict => decFrame (takeBits (bitsOf b)) s
  | .decPayload => decFrame (takeBits (bitsOf b)) s
  | .idle => .go s
  | .decWait => .go s
  | .done => .go s
  | .error => .go s

/-- `OUT`: the oldest output byte passes to the host, and nothing else changes (R15; log 5). -/
def outTransfer (s : State) : State := { s with out := { s.out with taken := s.out.taken + 1 } }

/-- The hardware reset (70_reset_and_hazards.md R320). The parameters and the host's pending events are not the
core's (log 17). -/
def hardReset (s : State) : State := { State.afterReset s.magicReg s.termReg s.draws with events := s.events }

/-- The core's whole reaction to one host event (R15). -/
def react (e : HostEvent) (s : State) : Host.Outcome State Fault Refusal :=
  match e with
  | .read a => .next (hostRead a s)
  | .write a v => hostWrite a v s
  | .narrow _ => .next (refuseAccess s)
  | .inByte b => (inByte b s).outcome
  | .outByte => .next (outTransfer s)
  | .reset => .next (hardReset s)

/-- A state whose next step takes up one container token, placed by its width (log 10): a byte of the extension, or
the second byte of the magic after its first, or the last eight bits of a leaf slot after its first two. -/
def placeToken (s : State) (nbits w : Nat) : State :=
  let lo : Byte := BitVec.ofNat 8 w
  let hi : Byte := BitVec.ofNat 8 (w / 256)
  let t : State := { s with op := .decompress, totalLen := Config.lenOver, inCnt := 0 }
  if nbits = 8 then { t with phase := .decExt, events := .inByte lo :: s.events }
  else if nbits = 16 then
    { t with
      phase := .decMagic, inCnt := 1, events := .inByte hi :: s.events
      dec := { s.dec with magAcc := lo.setWidth 16, magN := 1 } }
  else if nbits = 10 then
    { t with
      phase := .decDict, events := .inByte lo :: s.events
      dec := { s.dec with dstate := .sym, symAcc := (BitVec.ofNat 9 (w / 256 % 2)), symCnt := 1 } }
  else { t with phase := .decDict, events := .inByte lo :: s.events, dec := { s.dec with dstate := .mark } }

end Sys2Proof.Machine
end

