-- ==== Sys2Proof/Machine/Step.lean ====
section
/-!
DEFINITION. One step is the reaction to one host event (00_scope.md R15); while none can take place the core waits and
nothing changes (70_reset_and_hazards.md R337).
-/

namespace Sys2Proof.Machine

/-- One step. -/
def step (s : State) : Host.Outcome State Fault Refusal :=
  match takeEvent s s.events with
  | none => .next s
  | some (e, rest) => react e { s with events := rest }

/-- The state whose next step runs one instruction of the opcode table (log 10): a command is the next write to CMD,
a container token the next input. -/
def State.withFetchWord (s : State) (nbits w : Nat) : State :=
  if nbits = 32 then { s with events := .write 0x004 (BitVec.ofNat 32 w) :: s.events } else placeToken s nbits w

end Sys2Proof.Machine
end

