-- ==== Sys2Proof/Safety.lean ====
section
/-!
DEFINITION. What counts as a safe run, in the terms the statements use: the legal command words (30_encoding.md R92,
R94), the ways PHASE may change (48_host_commands.md R262), the invariants of the state, one per unit,
and what the sifts and the code derivation do (42_priority_queue.md R148, R149; 44_code_table.md R187).
-/

namespace Sys2Proof.Machine

/-! ### Legal commands -/

/-- The last column but one of the opcode map (30_encoding.md R92): whether OPCODE with ARG is a command that is legal
in a phase. -/
def legalCommand (opcode arg : Nat) (p : Phase) : Bool :=
  match opcode with
  | 0 => decide (arg = 0)
  | 1 => decide (arg = 0 ∧ p = .idle)
  | 2 => decide (arg = 0 ∧ p = .idle)
  | 3 => decide (arg = 0 ∧ p = .decWait)
  | 4 => (decide (arg = 0 ∨ arg = 2) && phaseRunning p) || decide (arg = 1 ∧ p = .decWait)
  | 5 => decide (arg = 0 ∧ (p = .idle ∨ p = .done ∨ p = .error))
  | _ => false

/-- A word is illegal in a phase (R94): bits [31:16] not 0, or OPCODE and ARG no legal command there. -/
def illegalWord (w : Word) (p : Phase) : Bool :=
  decide (65536 ≤ w.toNat) || !legalCommand (w.toNat % 256) (w.toNat / 256 % 256) p

/-! ### Phase changes (R262) -/

/-- Where a command may lead from a phase. -/
def commandMoves : Instr → Phase → List Phase
  | .encStart, .idle => [.encCount, .error]
  | .decStart, .idle => [.decMagic, .error]
  | .sinkOk, .decWait => [.decDict, .error]
  | .stop _, p => if phaseRunning p then [p, .error] else [p]
  | .clear, p => if phaseRunning p then [p] else [.idle]
  | .nop, p | .encStart, p | .decStart, p | .sinkOk, p | .magic _, p | .extByte _, p | .extTerm, p
  | .slotInternal, p | .slotLeaf _, p | .code _, p | .pad _, p => [p]

/-- Where an accepted input byte may lead from a phase. -/
def inputMoves : Phase → List Phase
  | .encCount => [.encCount, .encCode, .error]
  | .encCode => [.encCode, .done, .error]
  | .decMagic => [.decMagic, .decExt, .error]
  | .decExt => [.decExt, .decWait, .error]
  | .decDict => [.decDict, .decPayload, .done, .error]
  | .decPayload => [.decPayload, .done, .error]
  | .idle => [.idle]
  | .decWait => [.decWait]
  | .done => [.done]
  | .error => [.error]

/-- Where a host event may lead from a phase; any event not listed leaves PHASE as it is (R262). -/
def phaseMoves : HostEvent → Phase → List Phase
  | .write a v, p =>
    if a = 0x004 then
      match decodeCommand v with
      | .ok i => commandMoves i p
      | .error _ => [p]
    else [p]
  | .inByte _, p => inputMoves p
  | .reset, _ => [.idle]
  | .read _, p => [p]
  | .narrow _, p => [p]
  | .outByte, p => [p]

/-! ### Invariants -/

/-- IN_CNT never exceeds TOTAL_LEN, is below it while a byte is awaited, and is 0 in IDLE (10_state.md R32, R34). -/
def countersOk (s : State) : Prop :=
  (phaseAccepts s.phase = true → s.inCnt.toNat < s.totalLen.toNat) ∧
  (s.phase ≠ .idle → s.inCnt.toNat ≤ s.totalLen.toNat) ∧ (s.phase = .idle → s.inCnt = 0)

/-- OP agrees with the phase (10_state.md R22, R23). -/
def opOk (s : State) : Prop :=
  match s.phase with
  | .idle => s.op = .none
  | .encCount => s.op = .compress
  | .encCode => s.op = .compress
  | .decMagic => s.op = .decompress
  | .decExt => s.op = .decompress
  | .decWait => s.op = .decompress
  | .decDict => s.op = .decompress
  | .decPayload => s.op = .decompress
  | .done => s.op ≠ .none
  | .error => s.op ≠ .none

/-- ERR and DISCARD tell of the current ERROR phase and are 0 in every other (10_state.md R24, R29). -/
def errorOk (s : State) : Prop :=
  if s.phase = .error then s.err.code ≠ .none ∧ s.discard = true
  else s.err = { code := .none, phase := .idle, info := 0 } ∧ s.discard = false

/-- While an operation runs PCT is the progress made (60_exceptions.md R310). -/
def progressOk (s : State) : Prop := phaseRunning s.phase = true → s.pct = s.progress

/-- The accumulator holds NB bits and zeros above them (10_state.md R47, 40_bitpacker.md R121). -/
def packerOk (o : Output) : Prop := o.acc.toNat < 2 ^ o.nb.toNat

/-- OUT_CNT counts OUTSEQ while an operation is current (10_state.md R34), and no more bytes have been taken than
emitted. -/
def outputOk (s : State) : Prop :=
  (s.phase ≠ .idle → s.out.cnt = BitVec.ofNat 64 s.out.seq.length) ∧ s.out.taken ≤ s.out.seq.length

/-- The phases in which nothing has been emitted (46_encoder.md R221, 47_decoder.md R245). -/
def phaseSilent : Phase → Bool
  | .encCount => true
  | .decMagic => true
  | .decExt => true
  | .decWait => true
  | .decDict => true
  | .idle => false
  | .encCode => false
  | .decPayload => false
  | .done => false
  | .error => false

/-- Nothing is emitted before pass 2 or the payload. -/
def silenceOk (s : State) : Prop := phaseSilent s.phase = true → s.out.seq = []

/-- Σ FREQ[0..255]. -/
def byteCount (freq : Vector Word 257) : Nat := ((freq.toList.take 256).map BitVec.toNat).sum

/-- The counts (10_state.md R41, 41_frequency_table.md R138): FREQ[256] is 1 in every operation; in pass 1 the counts
add up to the bytes accepted, and to TOTAL_LEN after it; TOTAL_LEN is at most LEN_MAX in a compress. -/
def countsOk (s : State) : Prop :=
  (s.phase ≠ .idle → s.freq[256] = 1) ∧
  (s.phase = .encCount → byteCount s.freq = s.inCnt.toNat ∧ s.totalLen.toNat < 2 ^ 32 - 1) ∧
  (s.phase = .encCode → byteCount s.freq = s.totalLen.toNat ∧ s.totalLen.toNat < 2 ^ 32 - 1)

/-- The decoder's registers: fewer than two magic bytes are in while the magic is read; in DEC_DICT the pair stack
holds one entry per slot read, the slots are not complete, and a symbol field is not complete (10_state.md R43, R48). -/
def decoderOk (s : State) : Prop :=
  (s.phase = .decMagic → s.dec.magN.toNat < 2) ∧
  (s.phase = .decMagic ∨ s.phase = .decExt ∨ s.phase = .decWait →
    s.stack.psn = 0 ∧ s.dec.slot = 0 ∧ s.dec.dstate = .mark) ∧
  (s.phase = .decDict →
    s.stack.psn = s.dec.slot ∧ s.dec.slot.toNat < 513 ∧ (s.dec.dstate = .sym → s.dec.symCnt.toNat < 9))

/-- Node `k` exists and is internal with both children. -/
def hasKids (t : Tree) (k : NodeIx) : Prop := k.toNat < t.nn.toNat ∧ ∃ l r, t.node[k.toNat]? = some (.pair l r)

/-- A finished tree (10_state.md R44, 43_tree_builder.md R168): the root has children, no node is a childless
placeholder, and children are later nodes of the tree. -/
def treeFinished (t : Tree) : Prop :=
  t.nn.toNat ≤ 513 ∧ hasKids t 0 ∧
  ∀ k : Nat, k < t.nn.toNat →
    match t.node[k]? with
    | some (.leaf _) => True
    | some (.pair l r) => k < l.toNat ∧ l.toNat < t.nn.toNat ∧ k < r.toNat ∧ r.toNat < t.nn.toNat
    | some .bare => False
    | none => False

/-- In DEC_PAYLOAD the tree is finished and the cursor is at an internal node (47_decoder.md R240). -/
def payloadOk (s : State) : Prop := s.phase = .decPayload → treeFinished s.tree ∧ hasKids s.tree s.dec.cur

/-- In ENC_CODE the sentinel has a code (44_code_table.md R183). -/
def codesOk (s : State) : Prop := s.phase = .encCode → s.codes.len[256] ≠ 0

/-- PATHLEN is 0 between transitions (10_state.md R46). -/
def pathOk (s : State) : Prop := s.codes.pathLen = 0

/-- The invariant of the whole machine. -/
def State.inv (s : State) : Prop :=
  countersOk s ∧ opOk s ∧ errorOk s ∧ packerOk s.out ∧ outputOk s ∧ silenceOk s ∧ countsOk s ∧ decoderOk s ∧
  payloadOk s ∧ codesOk s ∧ pathOk s

/-- The heap order (42_priority_queue.md R152): no entry of HEAP[2..HN] is lighter than its parent. -/
def heapOrdered (q : Queue) : Prop :=
  ∀ i, 2 ≤ i → i ≤ q.hn.toNat → (heapAt q.heap (i / 2)).weight ≤ (heapAt q.heap i).weight

/-- The way of an entry up from index `i` past `k` ancestors (R148): they are strictly heavier and each moves down one
place, the next one is not or there is none, and everything else stays where it was. -/
def rises (h h' : Vector Entry 257) (i k : Nat) : Prop :=
  1 ≤ i / 2 ^ k ∧ (∀ j, j < k → (heapAt h i).weight < (heapAt h (i / 2 ^ (j + 1))).weight) ∧
  (i / 2 ^ k = 1 ∨ ¬ (heapAt h i).weight < (heapAt h (i / 2 ^ (k + 1))).weight) ∧
  heapAt h' (i / 2 ^ k) = heapAt h i ∧ (∀ j, j < k → heapAt h' (i / 2 ^ j) = heapAt h (i / 2 ^ (j + 1))) ∧
  ∀ x, 1 ≤ x → (∀ j, j ≤ k → x ≠ i / 2 ^ j) → heapAt h' x = heapAt h x

/-- The way of an entry down from index `i` in HEAP[1..n] past `k` chosen children (R149): they are strictly lighter and
each moves up one place, the next one is not or there is none, and everything else stays where it was. -/
def sinks (h h' : Vector Entry 257) (n i k : Nat) : Prop :=
  (∀ j, j < k → 2 * (siftChild h n)^[j] i ≤ n ∧
    (heapAt h ((siftChild h n)^[j + 1] i)).weight < (heapAt h i).weight) ∧
  (n < 2 * (siftChild h n)^[k] i ∨ ¬ (heapAt h ((siftChild h n)^[k + 1] i)).weight < (heapAt h i).weight) ∧
  heapAt h' ((siftChild h n)^[k] i) = heapAt h i ∧
  (∀ j, j < k → heapAt h' ((siftChild h n)^[j] i) = heapAt h ((siftChild h n)^[j + 1] i)) ∧
  ∀ x, 1 ≤ x → (∀ j, j ≤ k → x ≠ (siftChild h n)^[j] i) → heapAt h' x = heapAt h x

/-- A walk parts from another one by going left where the other goes right: its leaf is visited before the other's. -/
def goesBefore (w w' : List Bool) : Prop := ∃ p r r', w = p ++ false :: r ∧ w' = p ++ true :: r'

/-! ### The bits of the output -/

/-- The bits still waiting in the accumulator, oldest first (10_state.md R47). -/
def pendingBits (o : Output) : List Bool := (List.range o.nb.toNat).map fun j => o.acc.getLsbD (o.nb.toNat - 1 - j)

/-- All bits written, in order: those of the emitted bytes, then the pending ones (40_bitpacker.md R125). -/
def writtenBits (o : Output) : List Bool := o.seq.flatMap bitsOf ++ pendingBits o

/-! ### Places of tokens -/

/-- The place an instruction's bits are read at (30_encoding.md R96, R106); a command word is read at any. -/
def fits (term : Byte) : Place → Instr → Prop
  | .magic, .magic _ => True
  | .ext t, .extByte _ => t = term
  | .ext t, .extTerm => t = term
  | .slot, .slotInternal => True
  | .slot, .slotLeaf _ => True
  | .code nodes, .code bits => codeWidth nodes 0 bits = .ok bits.length
  | .pad, .pad _ => True
  | _, .nop => True
  | _, .encStart => True
  | _, .decStart => True
  | _, .sinkOk => True
  | _, .stop _ => True
  | _, .clear => True
  | _, _ => False

end Sys2Proof.Machine
end

