-- ==== Sys2Proof/Certificates/Slice0/Obligations.lean ====
section
/-!
DEFINITION. The statements for the provers. A statement holds for every value of the open parameters MAGIC and EXT_TERM
(they are fields of the state, log 1) and for every value of the free ones. Where an equation of states is the
conclusion, it is the whole frame: every register, table, stream and flag not named keeps its value.
-/

open Sys2Proof Sys2Proof.Machine

/-! ### Encoding -/

/-- A few encodings written out from R91 to R93 and R97 to R101. -/
def Obligations.WrittenOutWordsDecode : Prop :=
  decodeCommand 0x00000000#32 = .ok .nop ∧ decodeCommand 0x00000001#32 = .ok .encStart ∧
  decodeCommand 0x00000002#32 = .ok .decStart ∧ decodeCommand 0x00000003#32 = .ok .sinkOk ∧
  decodeCommand 0x00000104#32 = .ok (.stop 1) ∧ decodeCommand 0x00000005#32 = .ok .clear ∧
  decodeToken .magic [false, true, false, false, true, false, false, false,
    false, true, false, false, false, true, true, false] = .ok (.magic 0x4846, []) ∧
  decodeToken (.ext 0x00) [false, false, true, false, true, true, true, false] = .ok (.extByte 0x2E, []) ∧
  decodeToken (.ext 0x00) [false, false, false, false, false, false, false, false] = .ok (.extTerm, []) ∧
  decodeToken .slot [false] = .ok (.slotInternal, []) ∧
  decodeToken .slot [true, false, false, true, false, false, false, false, false, true] = .ok (.slotLeaf 65, [])

/-- Decoding an encoded well-formed instruction gives it back (R91 to R93, R97 to R103), and a token is found whatever
bits follow it (PAD is whatever is left of its byte). -/
def Obligations.DecodingAnEncodingGivesItBack : Prop :=
  ∀ (term : Byte) (place : Place) (i : Instr), i.wellFormed term = true → fits term place i →
    decode place (encode term i) = .ok (i, []) ∧
    ∀ bits rest, encode term i = .bits bits → (∀ l, i ≠ .pad l) → decodeToken place (bits ++ rest) = .ok (i, rest)

/-- No bit of an encoding is dropped: what decodes to an instruction is that instruction's encoding: the whole command
word (R91, R92), or the bits of the token, the bits left being the rest of those given (R96, R106). -/
def Obligations.WhatDecodesIsItsEncoding : Prop :=
  (∀ (term : Byte) (w : Word) (i : Instr), decodeCommand w = .ok i →
    i.wellFormed term = true ∧ encode term i = .word w) ∧
  ∀ (term : Byte) (place : Place) (bits rest : List Bool) (i : Instr), (∀ t, place = .ext t → t = term) →
    decodeToken place bits = .ok (i, rest) →
    i.wellFormed term = true ∧ ∃ enc, encode term i = .bits enc ∧ enc ++ rest = bits

/-! ### Commands -/

/-- R94, R261: a word that is illegal, or not legal in the current PHASE, changes CMDERR, BADCMD and
IRQ_PEND.CMDERR, and nothing else; so does the instruction itself where it is such a word. -/
def Obligations.IllegalWordsAreRejected : Prop :=
  ∀ (w : Word) (s : State), illegalWord w s.phase = true →
    commandWrite w s = .next { s with cmderr := true, badCmd := w, irqPend := s.irqPend ||| 0x10#5 } ∧
    ∀ (term : Byte) (i : Instr), encode term i = .word w →
      exec i s = .next { s with cmderr := true, badCmd := w, irqPend := s.irqPend ||| 0x10#5 }

/-- R92, R260: a legal word is executed, and leaves BADCMD alone; only CLEAR touches CMDERR. -/
def Obligations.LegalWordsAreExecuted : Prop :=
  ∀ (w : Word) (s : State), illegalWord w s.phase = false →
    ∃ i t, decodeCommand w = .ok i ∧ commandWrite w s = exec i s ∧ exec i s = .next t ∧
      t.badCmd = s.badCmd ∧ (i ≠ .clear → t.cmderr = s.cmderr) ∧ (i = .clear → t.cmderr = false)

/-- R263. -/
def Obligations.NopChangesNothing : Prop :=
  decodeCommand 0x00000000#32 = .ok .nop ∧ ∀ s : State, exec .nop s = .next s

/-- R210 where its checks pass: the whole next state. FREQ is 0 but for FREQ[256] = 1 (R135). That no byte is left to
offer on the output port is the model's choice (log 5). -/
def Obligations.EncStartBeginsPassOne : Prop :=
  ∀ s : State, s.phase = .idle → s.totalLen ≠ 0 → s.totalLen ≠ 0xFFFFFFFF#32 →
    (∀ i (h : i < 255), i < s.extLen.toNat → s.ext[i] ≠ s.termReg) →
    ∃ f : Vector Word 257, f[256] = 1 ∧ (∀ k (h : k < 256), f[k] = 0) ∧
      exec .encStart s = .next { s with
        phase := .encCount, op := .compress, err := { code := .none, phase := .idle, info := 0 }, discard := false,
        freqValid := false, codeValid := false, inCnt := 0,
        out := { acc := 0, nb := 0, seq := [], cnt := 0, taken := 0 }, estBytes := 0, nleaf := 0, nnode := 0, pct := 0,
        stack := { s.stack with psn := 0 }, tree := { s.tree with nn := 0, fill := 0, sentNode := 0 }, freq := f }

/-- R210, R292: the three checks of ENC_START in their order, recorded with ERRPHASE = ENC_COUNT and ERRINFO = 0. -/
def Obligations.EncStartChecksInOrder : Prop :=
  ∀ s : State, s.phase = .idle →
    ∀ c : ErrCode,
      ((s.totalLen = 0 ∧ c = .empty) ∨ (s.totalLen = 0xFFFFFFFF#32 ∧ c = .range) ∨
        (s.totalLen ≠ 0 ∧ s.totalLen ≠ 0xFFFFFFFF#32 ∧ c = .badExt ∧
          ∃ i, ∃ h : i < 255, i < s.extLen.toNat ∧ s.ext[i] = s.termReg)) →
      ∃ t, exec .encStart s = .next t ∧ t.phase = .error ∧ t.err = { code := c, phase := .encCount, info := 0 } ∧
        t.discard = true ∧ t.irqPend = s.irqPend ||| 0x02#5 ∧ t.op = .compress ∧ t.out.seq = [] ∧
        t.ext = s.ext ∧ t.extLen = s.extLen ∧ t.totalLen = s.totalLen ∧ t.force = s.force ∧ t.irqEn = s.irqEn ∧
        t.badCmd = s.badCmd ∧ t.cmderr = s.cmderr ∧ t.codes = s.codes ∧ t.queue = s.queue ∧ t.dec = s.dec

/-- R230: DEC_START of a stream that is not empty: the whole next state (log 5 for the output port); of an empty one
E_EOF at once (R242), with ERRPHASE = DEC_MAGIC. -/
def Obligations.DecStartBeginsTheMagic : Prop :=
  ∀ s : State, s.phase = .idle →
    (s.totalLen ≠ 0 → ∃ f : Vector Word 257, f[256] = 1 ∧ (∀ k (h : k < 256), f[k] = 0) ∧
      exec .decStart s = .next { s with
        phase := .decMagic, op := .decompress, err := { code := .none, phase := .idle, info := 0 }, discard := false,
        freqValid := false, codeValid := false, inCnt := 0, out := { s.out with seq := [], cnt := 0, taken := 0 },
        estBytes := 0, nleaf := 0, nnode := 0, pct := 0, extLen := 0,
        stack := { s.stack with psn := 0 }, tree := { s.tree with nn := 0, fill := 0, sentNode := 0 }, freq := f,
        dec := { magAcc := 0, magN := 0, dstate := .mark, symAcc := 0, symCnt := 0, slot := 0, cur := 0 } }) ∧
    (s.totalLen = 0 →
      ∃ t, exec .decStart s = .next t ∧ t.phase = .error ∧ t.err = { code := .eof, phase := .decMagic, info := 0 } ∧
        t.discard = true ∧ t.irqPend = s.irqPend ||| 0x02#5 ∧ t.op = .decompress ∧ t.extLen = 0 ∧ t.out.seq = [] ∧
        t.totalLen = s.totalLen ∧ t.ext = s.ext ∧ t.codes = s.codes ∧ t.queue = s.queue ∧ t.badCmd = s.badCmd)

/-- R237: SINK_OK goes on to the skeleton, or to E_EOF (with ERRPHASE = DEC_DICT) where the stream has ended; outside
DEC_WAIT it is rejected. -/
def Obligations.SinkOkGoesOnToTheSkeleton : Prop :=
  decodeCommand 0x00000003#32 = .ok .sinkOk ∧ ∀ s : State,
    (s.phase = .decWait →
      (s.inCnt ≠ s.totalLen → exec .sinkOk s = .next { s with phase := .decDict }) ∧
      (s.inCnt = s.totalLen → exec .sinkOk s = .next { s with
        phase := .error, err := { code := .eof, phase := .decDict, info := s.inCnt }, discard := true,
        irqPend := s.irqPend ||| 0x02#5 })) ∧
    (s.phase ≠ .decWait → exec .sinkOk s = .next { s with
      cmderr := true, badCmd := 0x00000003#32, irqPend := s.irqPend ||| 0x10#5 })

/-- R264 with R290: the word of STOP; in a running phase it is error entry with the reason's code, CONFLICT only in
DEC_WAIT; anywhere else it is rejected. -/
def Obligations.StopEntersTheError : Prop :=
  (∀ arg : Byte, arg.toNat ≤ 2 → decodeCommand (0x00000004#32 ||| (arg.setWidth 32 <<< 8)) = .ok (.stop arg)) ∧
  ∀ (s : State) (arg : Byte),
    (∀ c : ErrCode, phaseRunning s.phase = true →
      ((arg = 0 ∧ c = .cancel) ∨ (arg = 1 ∧ c = .conflict ∧ s.phase = .decWait) ∨ (arg = 2 ∧ c = .io)) →
      exec (.stop arg) s = .next { s with
        phase := .error, err := { code := c, phase := s.phase, info := s.inCnt }, discard := true,
        irqPend := s.irqPend ||| 0x02#5 }) ∧
    (s.phase = .idle ∨ s.phase = .done ∨ s.phase = .error ∨ (arg = 1 ∧ s.phase ≠ .decWait) →
      exec (.stop arg) s = .next { s with
        cmderr := true, badCmd := 0x00000004#32 ||| (arg.setWidth 32 <<< 8), irqPend := s.irqPend ||| 0x10#5 })

/-- R265: CLEAR in IDLE, DONE and ERROR: the whole next state. -/
def Obligations.ClearReturnsToIdle : Prop :=
  ∀ s : State, s.phase = .idle ∨ s.phase = .done ∨ s.phase = .error →
    exec .clear s = .next { s with
      phase := .idle, op := .none, err := { code := .none, phase := .idle, info := 0 }, cmderr := false,
      discard := false, irqPend := 0, inCnt := 0, out := { s.out with cnt := 0 }, pct := 0 }

/-! ### Container tokens -/

/-- R233: the magic at the start of the stream: on to the extension, or E_MAGIC. -/
def Obligations.MagicIsCompared : Prop :=
  ∀ (s : State) (v : BitVec 16), s.phase = .decMagic → s.dec.magN = 0 →
    (v = s.magicReg → exec (.magic v) s = .next { s with
      phase := .decExt, dec := { s.dec with magAcc := v, magN := 2 } }) ∧
    (v ≠ s.magicReg → exec (.magic v) s = .next { s with
      phase := .error, err := { code := .magic, phase := .decMagic, info := s.inCnt }, discard := true,
      irqPend := s.irqPend ||| 0x02#5, dec := { s.dec with magAcc := v, magN := 2 } })

/-- R234: an extension byte is appended, a 256th is E_EXT_LONG; the terminator is not stored and leads to DEC_WAIT. -/
def Obligations.ExtensionTokensAreCollected : Prop :=
  ∀ s : State, s.phase = .decExt →
    (∀ b : Byte, b ≠ s.termReg →
      (s.extLen ≠ 255#8 → ∃ x : Vector Byte 255,
        (∀ j (h : j < 255), x[j] = if j = s.extLen.toNat then b else s.ext[j]) ∧
        exec (.extByte b) s = .next { s with ext := x, extLen := s.extLen + 1 }) ∧
      (s.extLen = 255#8 → exec (.extByte b) s = .next { s with
        phase := .error, err := { code := .extLong, phase := .decExt, info := s.inCnt }, discard := true,
        irqPend := s.irqPend ||| 0x02#5 })) ∧
    exec .extTerm s = .next { s with phase := .decWait, irqPend := s.irqPend ||| 0x04#5 }

/-- R200: a slot before the 513th pushes its entry with weight 1 and counts, whichever form it has. -/
def Obligations.SlotsPushTheirEntries : Prop :=
  ∀ s : State, s.phase = .decDict → s.dec.dstate = .mark → s.dec.slot.toNat < 512 → s.stack.psn.toNat < 513 →
    (∃ ps : Vector Entry 513,
      (∀ j (h : j < 513), ps[j] = if j = s.stack.psn.toNat then { weight := 1, sym := none } else s.stack.ps[j]) ∧
      exec .slotInternal s = .next { s with
        stack := { ps := ps, psn := s.stack.psn + 1 }, dec := { s.dec with slot := s.dec.slot + 1 } }) ∧
    ∀ sym : Sym, ∃ ps : Vector Entry 513,
      (∀ j (h : j < 513), ps[j] = if j = s.stack.psn.toNat then { weight := 1, sym := some sym } else s.stack.ps[j]) ∧
      exec (.slotLeaf sym) s = .next { s with
        stack := { ps := ps, psn := s.stack.psn + 1 },
        dec := { s.dec with symAcc := sym, symCnt := 9, slot := s.dec.slot + 1 } }

/-- R202, R203, R238: the 513th slot of a malformed skeleton is E_SKEL, and nothing of the tree is offered to the
host: no sizes, no code table, no output. `slots` are the 513 slots in stream order, `n` counts them up to the last
leaf. First conditions 1 to 5, which leave the tree as it was; then condition 6, the assembly's: some pair, the one of
the nodes 2 j + 1 and 2 j + 2, finds no childless placeholder among the nodes before it, or one is left at the end. There
NODE, NN and FILL keep what was done (log 13). -/
def Obligations.AMalformedSkeletonIsRefused : Prop :=
  ∀ (s : State) (sym : Option Sym) (i : Instr) (slots : List (Option Sym)) (n : Nat),
    s.phase = .decDict → s.dec.dstate = .mark → s.dec.slot = 512 → s.stack.psn = 512 →
    (i = .slotInternal ∧ sym = none ∨ ∃ k, i = .slotLeaf k ∧ sym = some k) →
    slots = ((s.stack.ps.toList.take 512).map Entry.sym) ++ [sym] →
    ((n = 0 ∧ (∀ e ∈ slots, e = none) ∨
        n ≤ 513 ∧ 0 < n ∧ (∃ k, slots[n - 1]? = some (some k)) ∧ (∀ e ∈ slots.drop n, e = none) ∧
          (n % 2 = 0 ∨ (∃ k, slots[0]? = some (some k)) ∨ slots[n - 1]? ≠ some (some 256) ∨
            ∃ j, j < n - 1 ∧ ∃ k : Sym, slots[j]? = some (some k) ∧ 256 ≤ k.toNat)) →
      ∃ t, exec i s = .next t ∧ t.phase = .error ∧ t.err = { code := .skel, phase := .decDict, info := s.inCnt } ∧
        t.discard = true ∧ t.irqPend = s.irqPend ||| 0x02#5 ∧ t.nleaf = s.nleaf ∧ t.nnode = s.nnode ∧
        t.codes = s.codes ∧ t.codeValid = s.codeValid ∧ t.out = s.out ∧ t.tree = s.tree ∧ t.dec.cur = s.dec.cur) ∧
    (n ≤ 513 → slots[n - 1]? = some (some 256) → (∀ e ∈ slots.drop n, e = none) → n % 2 = 1 →
      slots[0]? = some none → (∀ j (k : Sym), j < n - 1 → slots[j]? = some (some k) → k.toNat < 256) →
      ((∃ j, 2 * j + 1 < n ∧ (slots.take (2 * j + 1)).countP Option.isNone ≤ j) ∨
        n < 2 * (slots.take n).countP Option.isNone + 1) →
      ∃ t, exec i s = .next t ∧ t.phase = .error ∧ t.err = { code := .skel, phase := .decDict, info := s.inCnt } ∧
        t.discard = true ∧ t.irqPend = s.irqPend ||| 0x02#5 ∧ t.nleaf = s.nleaf ∧ t.nnode = s.nnode ∧
        t.codes = s.codes ∧ t.codeValid = s.codeValid ∧ t.out = s.out ∧ t.tree.sentNode = s.tree.sentNode ∧
        t.dec.cur = s.dec.cur)

/-- R202, R238, R243: the 513th slot of a skeleton that assembles completes the tree and the code table and goes on to
the payload. `slots`, `n` as in `AMalformedSkeletonIsRefused`; `t` is the assembled tree and `c` its code table. -/
def Obligations.AGoodSkeletonStartsThePayload : Prop :=
  ∀ (s : State) (sym : Option Sym) (i : Instr) (slots : List (Option Sym)) (n : Nat) (t : Tree) (c : Codes),
    s.phase = .decDict → s.dec.dstate = .mark → s.dec.slot = 512 → s.stack.psn = 512 →
    (i = .slotInternal ∧ sym = none ∨ ∃ k, i = .slotLeaf k ∧ sym = some k) →
    slots = ((s.stack.ps.toList.take 512).map Entry.sym) ++ [sym] →
    n ≤ 513 → slots[n - 1]? = some (some 256) → (∀ e ∈ slots.drop n, e = none) → n % 2 = 1 →
    slots[0]? = some none → (∀ j (k : Sym), j < n - 1 → slots[j]? = some (some k) → k.toNat < 256) →
    assemble (slots.take n) s.tree = (true, t) →
    deriveCodes { t with sentNode := BitVec.ofNat 10 (n - 1) } s.codes = some c →
    ∃ u, exec i s = .next u ∧ u.phase = .decPayload ∧ u.codeValid = true ∧ u.codes = c ∧
      u.tree = { t with sentNode := BitVec.ofNat 10 (n - 1) } ∧ u.nnode = BitVec.ofNat 10 n ∧
      u.nleaf = BitVec.ofNat 9 ((slots.take n).filter Option.isSome).length ∧ u.dec.cur = 0 ∧ u.stack.psn = 0 ∧
      u.dec.slot = 513 ∧ u.out = s.out ∧ u.freqValid = s.freqValid ∧ u.freq = s.freq ∧ u.err = s.err ∧
      u.inCnt = s.inCnt ∧ u.irqPend = s.irqPend ∧ u.ext = s.ext ∧ u.queue = s.queue

/-- R240: a code word that leads to a leaf other than the sentinel's emits the symbol's low byte and returns the
cursor to the root; the sentinel's ends the operation. That the rise of PCT to 100 at that DONE pends PROG is the
model's reading of R310 (log 18, DEDUCED), not the spec's own words. -/
def Obligations.CodeWordsAreDecoded : Prop :=
  ∀ (s : State) (bits : List Bool) (k : NodeIx) (sym : Sym), s.phase = .decPayload → s.dec.cur = 0 → bits ≠ [] →
    walkTo s.tree.node 0 bits = some k → s.tree.node[k.toNat]? = some (.leaf sym) →
    (k ≠ s.tree.sentNode → exec (.code bits) s = .next { s with
      out := { s.out with seq := s.out.seq ++ [sym.extractLsb' 0 8], cnt := s.out.cnt + 1 },
      dec := { s.dec with cur := 0 } }) ∧
    (k = s.tree.sentNode → exec (.code bits) s = .next { s with
      phase := .done, pct := 100, dec := { s.dec with cur := k },
      irqPend := s.irqPend ||| (if s.pct < 100 then 0x09#5 else 0x01#5) })

/-- R103, R244: the bits after the sentinel's code are dropped. -/
def Obligations.PadBitsAreDropped : Prop :=
  ∀ (s : State) (bits : List Bool), s.phase = .done → exec (.pad bits) s = .next s

/-- In IDLE, DEC_WAIT, DONE and ERROR executing a token answers the same state. That is the model's choice (log 9): R267
gives IN no step in those phases, so a token there has none of its own. -/
def Obligations.TokensWaitWhileInputIsClosed : Prop :=
  ∀ (s : State) (v : BitVec 16) (b : Byte) (sym : Sym) (bits : List Bool),
    s.phase = .idle ∨ s.phase = .decWait ∨ s.phase = .done ∨ s.phase = .error →
    ∀ i, i ∈ [.magic v, .extByte b, .extTerm, .slotInternal, .slotLeaf sym, .code bits, .pad bits] →
      exec i s = .next s

/-- R96, R106: while input is accepted, a token has a meaning exactly where the decoder stands at such a token; the
refusal elsewhere is the model's (log 9). -/
def Obligations.TokensHaveMeaningAtTheirPlaceOnly : Prop :=
  ∀ (s : State) (i : Instr), phaseAccepts s.phase = true → i.wellFormed s.termReg = true →
    (∀ w, encode s.termReg i ≠ .word w) →
    (exec i s = .refused .tokenOutOfPlace ↔ ¬ ∃ place, placeOf s = some place ∧ fits s.termReg place i)

/-! ### The units -/

/-- R121: the accumulator shifts the bit in at the right; the eighth bit emits the byte. The invariant is kept. -/
def Obligations.PutBitPacksMsbFirst : Prop :=
  ∀ (b : Bool) (o : Output), packerOk o →
    packerOk (putBit b o) ∧
    (o.nb.toNat < 7 → (putBit b o).acc.toNat = 2 * o.acc.toNat + b.toNat ∧
      putBit b o = { o with acc := (putBit b o).acc, nb := o.nb + 1 }) ∧
    (o.nb.toNat = 7 → ∃ byte : Byte, byte.toNat = 2 * o.acc.toNat + b.toNat ∧
      putBit b o = { o with acc := 0, nb := 0, seq := o.seq ++ [byte], cnt := o.cnt + 1 })

/-- R125: after B bits from an empty packer, floor(B / 8) bytes are out and NB = B mod 8; the emitted bytes and the
pending bits are exactly the bits written; after the flush ceil(B / 8) bytes are out. -/
def Obligations.TheBitCountLaw : Prop :=
  ∀ (bits : List Bool) (o : Output), o.acc = 0 → o.nb = 0 → o.seq = [] →
    (putAll bits o).seq.length = bits.length / 8 ∧ (putAll bits o).nb.toNat = bits.length % 8 ∧
    writtenBits (putAll bits o) = bits ∧ (bpFlush (putAll bits o)).seq.length = (bits.length + 7) / 8

/-- R123: the flush emits the pending bits followed by zeros, or nothing where none are pending. -/
def Obligations.FlushPadsWithZeros : Prop :=
  ∀ o : Output, packerOk o →
    (o.nb = 0 → bpFlush o = o) ∧
    (o.nb ≠ 0 → ∃ byte : Byte, bitsOf byte = pendingBits o ++ List.replicate (8 - o.nb.toNat) false ∧
      bpFlush o = { o with acc := 0, nb := 0, seq := o.seq ++ [byte], cnt := o.cnt + 1 })

/-- R147: the weights alone, unsigned; on a tie neither is less. -/
def Obligations.TiesAreNeverLess : Prop :=
  ∀ x y : Entry, (less x y = true ↔ x.weight.toNat < y.weight.toNat) ∧
    (x.weight = y.weight → less x y = false ∧ less y x = false)

/-- R147, R148, R152: insert keeps the heap order and the entries; the new entry rises from HEAP[HN] past the strictly
heavier entries above it, each of which moves down one place, and everything else stays; so an entry not strictly
lighter than its parent stays at HEAP[HN], with every other entry where it was. -/
def Obligations.InsertKeepsTheHeapOrder : Prop :=
  ∀ (q : Queue) (e : Entry), q.hn.toNat < 257 →
    ∃ p, pqInsert e q = some p ∧ p.hn.toNat = q.hn.toNat + 1 ∧ (heapOrdered q → heapOrdered p) ∧
      (p.heap.toList.take p.hn.toNat).Perm (e :: q.heap.toList.take q.hn.toNat) ∧
      (∃ k, rises (q.heap.setIfInBounds q.hn.toNat e) p.heap p.hn.toNat k) ∧
      (q.hn = 0 ∨ ¬ e.weight < (heapAt q.heap (p.hn.toNat / 2)).weight →
        p.heap = q.heap.setIfInBounds q.hn.toNat e)

/-- R147, R149, R152: removeMin returns HEAP[1], an entry of least weight, and keeps the heap order and the other
entries; the last entry takes its place and sinks past the chosen children strictly lighter than it, each of which moves
up one place, and everything else stays; so it stays where the chosen child of the root is not strictly lighter. The
child chosen is the left one unless the right one is strictly lighter. -/
def Obligations.RemoveMinReturnsTheLeast : Prop :=
  (∀ q : Queue, 1 ≤ q.hn.toNat → q.hn.toNat ≤ 257 →
    ∃ p, removeMin q = some (heapAt q.heap 1, p) ∧ p.hn.toNat = q.hn.toNat - 1 ∧
      (heapOrdered q → heapOrdered p ∧
        ∀ i, 1 ≤ i → i ≤ q.hn.toNat → (heapAt q.heap 1).weight ≤ (heapAt q.heap i).weight) ∧
      (heapAt q.heap 1 :: p.heap.toList.take p.hn.toNat).Perm (q.heap.toList.take q.hn.toNat) ∧
      (∃ k, sinks (q.heap.setIfInBounds 0 (heapAt q.heap q.hn.toNat)) p.heap p.hn.toNat 1 k) ∧
      (p.hn.toNat < 2 ∨
          ¬ (heapAt q.heap (siftChild q.heap p.hn.toNat 1)).weight < (heapAt q.heap q.hn.toNat).weight →
        p.heap = q.heap.setIfInBounds 0 (heapAt q.heap q.hn.toNat))) ∧
  ∀ (h : Vector Entry 257) (n i : Nat), 1 ≤ i → 2 * i ≤ n →
    (2 * i + 1 ≤ n → (heapAt h (2 * i + 1)).weight < (heapAt h (2 * i)).weight → siftChild h n i = 2 * i + 1) ∧
    (2 * i = n ∨ (heapAt h (2 * i)).weight ≤ (heapAt h (2 * i + 1)).weight → siftChild h n i = 2 * i)

/-- R160 to R165, R171, R172: with a byte counted, the build empties the queue and makes a stack of 2L − 1 entries with
the sentinel's entry at the bottom: the sentinel's and one for each byte counted, with its count, and for each pair one
without a symbol, with the pair's weights added; the top one of these has the total, modulo 2^32. Popped until it is
exhausted the stack gives its entries from the top down and is empty (R43, R166), and the assembly of that sequence is a
finished tree. -/
def Obligations.TheBuildAlwaysSucceeds : Prop :=
  ∀ (freq : Vector Word 257) (q : Queue) (k : Stack) (t : Tree), (∃ s, ∃ h : s < 256, freq[s] ≠ 0) →
    ∃ p m, buildStack freq q k = .ok p m ∧ p.hn = 0 ∧
      m.psn.toNat = 2 * ((freq.toList.take 256).filter (· ≠ 0)).length + 1 ∧
      m.ps[0] = { weight := 1, sym := some 256 } ∧
      ((m.ps.toList.take m.psn.toNat).filter fun e => e.sym.isSome).Perm
        ({ weight := 1, sym := some 256 } ::
          ((List.range 256).filter fun s => freq[s]?.getD 0 ≠ 0).map fun s =>
            { weight := freq[s]?.getD 0, sym := some (BitVec.ofNat 9 s) }) ∧
      ((m.ps.toList.take m.psn.toNat).filter fun e => e.sym.isNone).Perm
        ((List.range (m.psn.toNat / 2)).map fun j =>
          { weight := (m.ps[2 * j]?.getD default).weight + (m.ps[2 * j + 1]?.getD default).weight, sym := none }) ∧
      (∃ e, m.ps[m.psn.toNat - 1]? = some e ∧ e.sym = none ∧ e.weight.toNat = (byteCount freq + 1) % 2 ^ 32 ∧
        (byteCount freq < 2 ^ 32 - 1 → e.weight.toNat = byteCount freq + 1)) ∧
      constructionOrder m = ((m.ps.toList.take m.psn.toNat).map Entry.sym).reverse ∧ consumed m = { m with psn := 0 } ∧
      (assemble (constructionOrder m) t).1 = true ∧ treeFinished (assemble (constructionOrder m) t).2

/-- R44, R170: a successful assembly gives a finished tree of 2L − 1 nodes for its L leaves, with node k made from
entry k of the sequence. -/
def Obligations.AssemblyMakesAFinishedTree : Prop :=
  ∀ (q : List (Option Sym)) (t u : Tree), q.length ≤ 513 → assemble q t = (true, u) →
    treeFinished u ∧ u.nn.toNat = q.length ∧ q.length = 2 * (q.filter Option.isSome).length - 1 ∧
    ∀ k sym, q[k]? = some (some sym) ↔ k < q.length ∧ u.node[k]? = some (.leaf sym)

/-- R181, R336: on a finished tree of 2L − 1 nodes for its L leaves, with symbols up to 256, the derivation ends, with
PATHLEN 0. -/
def Obligations.DerivationEndsOnAFinishedTree : Prop :=
  ∀ (t : Tree) (c : Codes), treeFinished t →
    (∀ k sym, k < t.nn.toNat → t.node[k]? = some (.leaf sym) → sym.toNat < 257) →
    2 * leafCount t.node t.nn.toNat = t.nn.toNat + 1 →
    ∃ d, deriveCodes t c = some d ∧ d.pathLen = 0

/-- R45, R182: every code the derivation records is at most 256 bits long and leads, by the decoder's own walk, from the
root to a leaf of its symbol, and the bits after it are 0. Which leaf, where several hold the symbol, is open between
two readings (log 23): the one visited last (R187), or the one with the highest number (D29); both are stated, the first
as: another leaf's walk parts from the code by going left where the code goes right. They differ on no tree without
repeated symbols. R183(a), (b): on an assembled tree, the symbols of the leaves get a code and the others get none. -/
def Obligations.CodesArePathsToTheirLeaves : Prop :=
  (∀ (t : Tree) (c : Codes), deriveCodes t c = deriveCodesBy Config.repeatedByNumber t c) ∧
  (∀ (byNumber : Bool) (t : Tree) (c d : Codes), deriveCodesBy byNumber t c = some d → ∀ s (h : s < 257),
    (d.len[s] ≠ 0 →
      (∃ k : NodeIx, walkTo t.node 0 (codeBitList d.len[s] d.bits[s]) = some k ∧
        t.node[k.toNat]? = some (.leaf (BitVec.ofNat 9 s)) ∧
        (byNumber = true → ∀ i : Nat, k.toNat < i → i < t.nn.toNat → t.node[i]? ≠ some (.leaf (BitVec.ofNat 9 s)))) ∧
      d.len[s].toNat ≤ 256 ∧ ∀ j, d.len[s].toNat ≤ j → d.bits[s].getMsbD j = false) ∧
    (byNumber = false → ∀ (w : List Bool) (k : NodeIx), walkTo t.node 0 w = some k →
      t.node[k.toNat]? = some (.leaf (BitVec.ofNat 9 s)) →
      w = codeBitList d.len[s] d.bits[s] ∨ goesBefore w (codeBitList d.len[s] d.bits[s]))) ∧
  (∀ (t : Tree) (c : Codes), (∀ (i j : Nat) (x : Sym), i < t.nn.toNat → j < t.nn.toNat →
      t.node[i]? = some (.leaf x) → t.node[j]? = some (.leaf x) → i = j) →
    deriveCodesBy true t c = deriveCodesBy false t c) ∧
  ∀ (byNumber : Bool) (q : List (Option Sym)) (t u : Tree) (c : Codes), q.length ≤ 513 → assemble q t = (true, u) →
    (∀ x : Sym, some x ∈ q → x.toNat < 257) →
    ∃ d, deriveCodesBy byNumber u c = some d ∧ ∀ s (h : s < 257),
      (some (BitVec.ofNat 9 s) ∈ q → 1 ≤ d.len[s].toNat ∧ d.len[s].toNat ≤ 256) ∧
      (some (BitVec.ofNat 9 s) ∉ q → d.len[s] = 0)

/-- R183(c): no code of a derived table is a prefix of another symbol's code. -/
def Obligations.TheCodeTableIsPrefixFree : Prop :=
  ∀ (t : Tree) (c d : Codes), deriveCodes t c = some d →
    ∀ a b (ha : a < 257) (hb : b < 257), d.len[a] ≠ 0 → d.len[b] ≠ 0 → a ≠ b →
      ¬ codeBitList d.len[a] d.bits[a] <+: codeBitList d.len[b] d.bits[b]

/-- R198: the skeleton has exactly 513 + 9 · NLEAF bits. -/
def Obligations.TheSkeletonSizeLaw : Prop :=
  ∀ t : Tree, t.nn.toNat ≤ 513 → (skeletonBits t).length = 513 + 9 * leafCount t.node t.nn.toNat

/-- R205: the bits the serializer writes for an assembled tree whose last leaf alone is the sentinel, fed to the decoder
from the first slot, give that tree back and start the payload. -/
def Obligations.TheSkeletonRoundTrip : Prop :=
  ∀ (s : State) (q : List (Option Sym)) (t u : Tree), q.length ≤ 513 → assemble q t = (true, u) →
    q.getLast? = some (some 256) → (∀ k : Sym, some k ∈ q.dropLast → k.toNat < 256) →
    s.phase = .decDict → s.dec.dstate = .mark → s.dec.slot = 0 → s.stack.psn = 0 →
    ∃ v, takeBits (skeletonBits u) s = .go v ∧ v.phase = .decPayload ∧ v.codeValid = true ∧ v.tree.nn = u.nn ∧
      (∀ k : Nat, k < u.nn.toNat → v.tree.node[k]? = u.node[k]?) ∧ v.tree.sentNode = u.nn - 1 ∧
      v.nleaf = BitVec.ofNat 9 (leafCount u.node u.nn.toNat) ∧ v.nnode = u.nn ∧ v.dec.cur = 0 ∧ v.out = s.out

/-! ### Steps -/

/-- R15, R67, R260: a step that takes a write is the reaction to that write, whatever its address and its value; a write
of CMD is its word's command, on the state whose port has answered (log 6), and where the word decodes to an instruction
that is exec of it. -/
def Obligations.AStepRunsTheCommandWritten : Prop :=
  (∀ (s : State) (a : BitVec 15) (v : Word) (rest : List HostEvent),
    takeEvent s s.events = some (.write a v, rest) → step s = hostWrite a v { s with events := rest }) ∧
  (∀ (s : State) (w : Word), hostWrite 0x004 w s = commandWrite w { s with reply := .ack }) ∧
  ∀ (s : State) (w : Word) (rest : List HostEvent), takeEvent s s.events = some (.write 0x004 w, rest) →
    (∀ i, decodeCommand w = .ok i → step s = exec i { s with events := rest, reply := .ack }) ∧
    (illegalWord w s.phase = true →
      step s = .next { s with
        events := rest, reply := .ack, cmderr := true, badCmd := w, irqPend := s.irqPend ||| 0x10#5 })

/-- R231, R234: a byte of the extension field runs the token it decodes to, after the count and the progress, and
before the check for the end of input. -/
def Obligations.AStepRunsTheExtensionToken : Prop :=
  ∀ (s : State) (b : Byte) (rest : List HostEvent) (i : Instr) (t : State), s.phase = .decExt →
    takeEvent s s.events = some (.inByte b, rest) → decodeToken (.ext s.termReg) (bitsOf b) = .ok (i, []) →
    exec i (State.updatePct { s with events := rest, inCnt := s.inCnt + 1 }) = .next t →
    step s = .next (if phaseDecoding t.phase = true ∧ t.inCnt = t.totalLen then errorEntry .eof t else t)

/-- R200, R232, R238, R240: fed bit by bit, the bits of a token of the skeleton or the payload run that token, and the
bits after it find the state it leaves; where the token stops, so do its bits, and it is never refused there. -/
def Obligations.TheBitsOfATokenRunIt : Prop :=
  ∀ (s : State) (place : Place) (bits rest : List Bool) (i : Instr),
    s.phase = .decDict ∧ s.dec.slot.toNat < 513 ∨ s.phase = .decPayload → placeOf s = some place →
    decodeToken place bits = .ok (i, rest) →
    (∀ t, exec i s = .next t → (takeBits bits s).outcome = (takeBits rest t).outcome) ∧
    (∀ f, exec i s = .fault f → (takeBits bits s).outcome = .fault f) ∧
    (∀ r, exec i s ≠ .refused r)

/-- R231, R232: a byte in DEC_DICT or DEC_PAYLOAD is counted, its eight bits are taken most significant first, and the
end of input is checked while the operation still wants input. -/
def Obligations.AStepFeedsTheBitsOfAByte : Prop :=
  ∀ (s : State) (b : Byte) (rest : List HostEvent), s.phase = .decDict ∨ s.phase = .decPayload →
    takeEvent s s.events = some (.inByte b, rest) →
    step s = ((takeBits [b.getLsbD 7, b.getLsbD 6, b.getLsbD 5, b.getLsbD 4, b.getLsbD 3, b.getLsbD 2, b.getLsbD 1,
        b.getLsbD 0] (State.updatePct { s with events := rest, inCnt := s.inCnt + 1 })).bind fun t =>
      if t.phase = .decDict ∨ t.phase = .decPayload then
        (if t.inCnt = t.totalLen then .ended (errorEntry .eof t) else .go t)
      else .go t).outcome

/-- R231, R233, R242: what a step on a byte in DEC_MAGIC does, and that two bytes, the high one first, are the MAGIC token.
`c` is the state with the byte counted and the progress made (R310). The first byte is stored; the second completes the
value, which is E_MAGIC or leads to DEC_EXT; where PHASE still awaits input and IN_CNT = TOTAL_LEN it is E_EOF. -/
def Obligations.TwoBytesAreTheMagic : Prop :=
  (∀ (s : State) (hi lo : Byte), s.phase = .decMagic → s.dec.magN = 0 →
    ((magicByte hi s).bind (magicByte lo)).outcome = exec (.magic (hi ++ lo)) s) ∧
  ∀ (s c : State) (b : Byte) (rest : List HostEvent), s.phase = .decMagic →
    takeEvent s s.events = some (.inByte b, rest) →
    c = State.updatePct { s with events := rest, inCnt := s.inCnt + 1 } →
    c.inCnt = s.inCnt + 1 ∧
    (s.dec.magN = 0 → ∃ t, t = { c with dec := { s.dec with magAcc := s.dec.magAcc.extractLsb' 0 8 ++ b, magN := 1 } } ∧
      step s = .next (if s.inCnt + 1 = s.totalLen then errorEntry .eof t else t)) ∧
    (s.dec.magN = 1 → ∀ v : BitVec 16, v = s.dec.magAcc.extractLsb' 0 8 ++ b →
      (v = s.magicReg → ∃ t, t = { c with phase := .decExt, dec := { s.dec with magAcc := v, magN := 2 } } ∧
        step s = .next (if s.inCnt + 1 = s.totalLen then errorEntry .eof t else t)) ∧
      (v ≠ s.magicReg → step s = .next { c with
        phase := .error, err := { code := .magic, phase := .decMagic, info := s.inCnt + 1 }, discard := true,
        irqPend := c.irqPend ||| 0x02#5, dec := { s.dec with magAcc := v, magN := 2 } }))

/-- R212 before the last byte of pass 1: the byte is counted, and PCT and IRQ_PEND.PROG follow R310. -/
def Obligations.PassOneCountsEveryByte : Prop :=
  ∀ (s : State) (b : Byte) (rest : List HostEvent), s.phase = .encCount → s.op = .compress →
    takeEvent s s.events = some (.inByte b, rest) → s.inCnt.toNat + 1 < s.totalLen.toNat →
    ∃ (f : Vector Word 257) (p : BitVec 7),
      (∀ k (h : k < 257), f[k] = if k = b.toNat then s.freq[k] + 1 else s.freq[k]) ∧
      p.toNat = 100 * (s.inCnt.toNat + 1) / (2 * s.totalLen.toNat) ∧
      step s = .next { s with
        events := rest, freq := f, inCnt := s.inCnt + 1, pct := p,
        irqPend := if s.pct < p then s.irqPend ||| 0x08#5 else s.irqPend }

/-- R214, R216, R217, R185: the last byte of pass 1 builds the tree (the assembly of the pair stack the counts give, R160,
with SENT_NODE its last node, R171) and derives its code table, makes the sizes (R170) and the estimate; the size guard
then ends the operation with nothing emitted, or the header is written and pass 2 begins. -/
def Obligations.TheEndOfPassOne : Prop :=
  ∀ (s : State) (b : Byte) (rest : List HostEvent), s.phase = .encCount → countersOk s → countsOk s →
    s.out.acc = 0 → s.out.nb = 0 → s.out.seq = [] →
    takeEvent s s.events = some (.inByte b, rest) → s.inCnt.toNat + 1 = s.totalLen.toNat →
    ∃ t, step s = .next t ∧ t.freqValid = true ∧ t.codeValid = true ∧ t.totalLen = s.totalLen ∧
      (∀ k (h : k < 257), t.freq[k] = if k = b.toNat then s.freq[k] + 1 else s.freq[k]) ∧
      (∃ p m u, buildStack t.freq s.queue s.stack = .ok p m ∧ assemble (constructionOrder m) s.tree = (true, u) ∧
        t.tree = { u with sentNode := u.nn - 1 } ∧ t.queue = p ∧ t.stack = { m with psn := 0 }) ∧
      deriveCodes t.tree s.codes = some t.codes ∧ t.nnode = t.tree.nn ∧ t.nnode.toNat + 1 = 2 * t.nleaf.toNat ∧
      t.tree.sentNode.toNat + 1 = t.tree.nn.toNat ∧
      t.nleaf.toNat = 1 + ((t.freq.toList.take 256).filter (· ≠ 0)).length ∧
      t.estBytes.toNat =
        (16 + 8 * (s.extLen.toNat + 1) + 513 + 9 * t.nleaf.toNat + payloadBits t.freq t.codes.len + 7) / 8 ∧
      (s.totalLen.toNat ≤ t.estBytes.toNat ∧ s.force = false →
        t.phase = .error ∧ t.err = { code := .policy, phase := .encCount, info := s.totalLen } ∧ t.discard = true ∧
        t.inCnt = s.totalLen ∧ t.out = s.out) ∧
      (t.estBytes.toNat < s.totalLen.toNat ∨ s.force = true →
        t.phase = .encCode ∧ t.inCnt = 0 ∧ t.err = s.err ∧ t.discard = s.discard ∧
        t.out.seq.length = 3 + s.extLen.toNat + (513 + 9 * t.nleaf.toNat) / 8 ∧
        t.out.nb.toNat = (513 + 9 * t.nleaf.toNat) % 8 ∧
        writtenBits t.out = bitsMsb s.magicReg ++ (s.ext.toList.take s.extLen.toNat).flatMap bitsOf ++
          bitsOf s.termReg ++ skeletonBits t.tree)

/-- R218: in pass 2 a byte without a code is E_MISMATCH; any other byte writes its code, and the last one the
sentinel's code after it and the flush, which is DONE. That the rise of PCT to 100 at that DONE pends PROG is the
model's reading of R310 (log 18, DEDUCED). -/
def Obligations.PassTwoWritesTheCodes : Prop :=
  ∀ (s : State) (b : Byte) (rest : List HostEvent), s.phase = .encCode → s.op = .compress →
    takeEvent s s.events = some (.inByte b, rest) →
    (s.codes.len[b.toNat]? = some 0#9 → step s = .next { s with
      events := rest, inCnt := s.inCnt + 1, phase := .error,
      err := { code := .mismatch, phase := .encCode, info := s.inCnt + 1 }, discard := true,
      irqPend := s.irqPend ||| 0x02#5 }) ∧
    (∀ n v, s.codes.len[b.toNat]? = some n → s.codes.bits[b.toNat]? = some v → n ≠ 0#9 →
      (s.inCnt.toNat + 1 < s.totalLen.toNat → ∃ p : BitVec 7,
        p.toNat = 100 * (s.totalLen.toNat + s.inCnt.toNat + 1) / (2 * s.totalLen.toNat) ∧
        step s = .next { s with
          events := rest, inCnt := s.inCnt + 1, out := putAll (codeBitList n v) s.out, pct := p,
          irqPend := if s.pct < p then s.irqPend ||| 0x08#5 else s.irqPend }) ∧
      (s.inCnt.toNat + 1 = s.totalLen.toNat → s.codes.len[256] ≠ 0#9 → step s = .next { s with
        events := rest, inCnt := s.inCnt + 1, phase := .done, pct := 100,
        out := bpFlush (putAll (codeBitList s.codes.len[256] s.codes.bits[256]) (putAll (codeBitList n v) s.out)),
        irqPend := s.irqPend ||| (if s.pct < 100 then 0x09#5 else 0x01#5) }))

/-- R66, R68, R69: a read changes no register, whatever it reads: only the port's answer (and the model's count of free
values, log 3). It is refused exactly where the address is misaligned or unmapped. What a read answers is said by
`StatusReadsItsFields` and `RegistersReadTheirFields`. -/
def Obligations.ReadsHaveNoSideEffect : Prop :=
  ∀ (s : State) (a : BitVec 15) (rest : List HostEvent), takeEvent s s.events = some (.read a, rest) →
    step s = .next (hostRead a { s with events := rest }) ∧
    ∃ (r : Reply) (d : Nat), step s = .next { s with events := rest, reply := r, draws := d } ∧
      (r = .busError ↔ a.toNat % 4 ≠ 0 ∨ (0x054 ≤ a.toNat ∧ a.toNat < 0x400) ∨ (0x7FC ≤ a.toNat ∧ a.toNat < 0x800) ∨
        (0xC04 ≤ a.toNat ∧ a.toNat < 0x1000) ∨ (0x1404 ≤ a.toNat ∧ a.toNat < 0x2000) ∨ 0x4020 ≤ a.toNat) ∧
      (r ≠ .busError → ∃ v, r = .data v) ∧
      (s.freqValid = true → s.codeValid = true →
        (∀ i, i < 255 → a.toNat = 0x400 + 4 * i → i < s.extLen.toNat) → d = s.draws)

/-- R26: the fields of STATUS as the host reads them at 0x008. -/
def Obligations.StatusReadsItsFields : Prop :=
  ∀ s : State, ∃ v : Word, hostRead 0x008 s = { s with reply := .data v } ∧
    v.extractLsb' 0 4 = phaseBits s.phase ∧ v.extractLsb' 4 2 = opBits s.op ∧ v.getLsbD 6 = false ∧
    (v.getLsbD 7 = true ↔ s.phase = .done) ∧ (v.getLsbD 8 = true ↔ s.phase = .error) ∧ v.getLsbD 9 = s.cmderr ∧
    v.getLsbD 10 = s.discard ∧ v.getLsbD 11 = s.freqValid ∧ v.getLsbD 12 = s.codeValid ∧
    (v.getLsbD 13 = true ↔ s.phase = .decWait) ∧ v.extractLsb' 14 18 = 0#18

/-- R26, R27, R28, R45, R71, R281: what a read of each other register answers, and of a window where its value is given:
FREQ with FREQ_VALID, CODE_LEN and CODE_BITS with CODE_VALID (word 0 the most significant), EXT[i] below EXT_LEN. A read
changes nothing but the port's answer. -/
def Obligations.RegistersReadTheirFields : Prop :=
  ∀ s : State,
    (∀ (a : BitVec 15) (v : Word), (a, v) ∈ [(0x000, 0x48550700), (0x004, 0), (0x010, s.err.info),
        (0x014, if s.force then 1 else 0), (0x018, s.irqEn.setWidth 32), (0x01C, s.irqPend.setWidth 32),
        (0x020, s.totalLen), (0x024, s.extLen.setWidth 32), (0x028, s.inCnt), (0x03C, s.nleaf.setWidth 32),
        (0x040, s.nnode.setWidth 32), (0x044, s.pct.setWidth 32), (0x048, s.magicReg.setWidth 32), (0x050, s.badCmd)] →
      hostRead a s = { s with reply := .data v }) ∧
    (∃ v : Word, hostRead 0x00C s = { s with reply := .data v } ∧
      (∀ n, (s.err.code, n) ∈ [(.none, 0x00), (.magic, 0x01), (.skel, 0x02), (.extLong, 0x03), (.eof, 0x10), (.io, 0x11),
          (.mismatch, 0x12), (.conflict, 0x20), (.policy, 0x30), (.empty, 0x31), (.cancel, 0x40), (.badExt, 0x50),
          (.range, 0x51)] → v.extractLsb' 0 8 = n) ∧
      v.extractLsb' 8 4 = phaseBits s.err.phase ∧ v.extractLsb' 12 20 = 0#20) ∧
    (∃ lo hi : Word, hostRead 0x02C s = { s with reply := .data lo } ∧ hostRead 0x030 s = { s with reply := .data hi } ∧
      hi.toNat * 2 ^ 32 + lo.toNat = s.out.cnt.toNat) ∧
    (∃ lo hi : Word, hostRead 0x034 s = { s with reply := .data lo } ∧ hostRead 0x038 s = { s with reply := .data hi } ∧
      hi.toNat * 2 ^ 32 + lo.toNat = s.estBytes.toNat) ∧
    (∃ v : Word, hostRead 0x04C s = { s with reply := .data v } ∧ v.extractLsb' 0 8 = s.termReg ∧
      v.extractLsb' 8 8 = 255#8 ∧ v.extractLsb' 16 4 = 9#4 ∧ v.extractLsb' 20 10 = 513#10 ∧ v.extractLsb' 30 2 = 0#2) ∧
    (∀ i (h : i < 255), i < s.extLen.toNat →
      hostRead (BitVec.ofNat 15 (0x400 + 4 * i)) s = { s with reply := .data (s.ext[i].setWidth 32) }) ∧
    (s.freqValid = true → ∀ k (h : k < 257),
      hostRead (BitVec.ofNat 15 (0x800 + 4 * k)) s = { s with reply := .data s.freq[k] }) ∧
    (s.codeValid = true → ∀ k (h : k < 257),
      hostRead (BitVec.ofNat 15 (0x1000 + 4 * k)) s = { s with reply := .data (s.codes.len[k].setWidth 32) } ∧
      ∀ w, w < 8 → ∃ v : Word,
        hostRead (BitVec.ofNat 15 (0x2000 + 32 * k + 4 * w)) s = { s with reply := .data v } ∧
        ∀ j, j < 32 → v.getMsbD j = s.codes.bits[k].getMsbD (32 * w + j))

/-- R67, R68, R69: a write that is misaligned, unmapped, to a read-only place, or to configuration outside IDLE, and an
access of another width than 32 bits to any address, is refused and changes nothing but the port's answer. -/
def Obligations.RefusedWritesChangeNothing : Prop :=
  (∀ (s : State) (a : BitVec 15) (rest : List HostEvent), takeEvent s s.events = some (.narrow a, rest) →
    step s = .next { s with events := rest, reply := .busError }) ∧
  ∀ (s : State) (a : BitVec 15) (v : Word),
    (a.toNat % 4 ≠ 0 ∨
      a.toNat ∈ [0x000, 0x008, 0x00C, 0x010, 0x028, 0x02C, 0x030, 0x034, 0x038, 0x03C, 0x040, 0x044, 0x048, 0x04C, 0x050] ∨
      (0x054 ≤ a.toNat ∧ a.toNat < 0x400) ∨ (0x7FC ≤ a.toNat) ∨
      (s.phase ≠ .idle ∧ (a.toNat ∈ [0x014, 0x020, 0x024] ∨ (0x400 ≤ a.toNat ∧ a.toNat < 0x7FC)))) →
    hostWrite a v s = .next { s with reply := .busError }

/-- R67: the writable registers other than CMD store their listed bits; configuration in IDLE, the interrupt registers
in any phase. IRQ_PEND is cleared where a 1 is written (R301). -/
def Obligations.RegisterWritesStoreTheirBits : Prop :=
  ∀ (s : State) (v : Word),
    (s.phase = .idle → hostWrite 0x014 v s = .next { s with force := v.getLsbD 0, reply := .ack } ∧
      hostWrite 0x020 v s = .next { s with totalLen := v, reply := .ack } ∧
      hostWrite 0x024 v s = .next { s with extLen := v.extractLsb' 0 8, reply := .ack } ∧
      ∀ i, i < 255 → ∃ x : Vector Byte 255,
        (∀ j (h : j < 255), x[j] = if j = i then v.extractLsb' 0 8 else s.ext[j]) ∧
        hostWrite (BitVec.ofNat 15 (0x400 + 4 * i)) v s = .next { s with ext := x, reply := .ack }) ∧
    hostWrite 0x018 v s = .next { s with irqEn := v.extractLsb' 0 5, reply := .ack } ∧
    ∃ p : BitVec 5, (∀ j, j < 5 → p.getLsbD j = (s.irqPend.getLsbD j && !v.getLsbD j)) ∧
      hostWrite 0x01C v s = .next { s with irqPend := p, reply := .ack }

/-- R302: the line is high exactly when some enabled source is pending. -/
def Obligations.TheInterruptLine : Prop :=
  ∀ s : State, s.irq = true ↔ ∃ j, j < 5 ∧ s.irqPend.getLsbD j = true ∧ s.irqEn.getLsbD j = true

/-- R267, R61: a byte offered while no input is accepted, with nothing else pending, waits and changes nothing. -/
def Obligations.AHeldByteWaits : Prop :=
  ∀ (s : State) (bytes : List Byte), phaseAccepts s.phase = false → s.events = bytes.map .inByte → step s = .next s

/-- R55, R320: what the hardware reset leaves, from any state: every scalar 0, IDLE, no output; the parameters and the
host's pending events stay. -/
def Obligations.ResetValues : Prop :=
  ∀ (s : State) (rest : List HostEvent), takeEvent s s.events = some (.reset, rest) →
    ∃ t, step s = .next t ∧ t.phase = .idle ∧ t.op = .none ∧ t.cmderr = false ∧ t.discard = false ∧
      t.freqValid = false ∧ t.codeValid = false ∧ t.err = { code := .none, phase := .idle, info := 0 } ∧ t.badCmd = 0 ∧
      t.force = false ∧ t.irqEn = 0 ∧ t.irqPend = 0 ∧ t.totalLen = 0 ∧ t.extLen = 0 ∧ t.inCnt = 0 ∧ t.estBytes = 0 ∧
      t.nleaf = 0 ∧ t.nnode = 0 ∧ t.pct = 0 ∧ t.queue.hn = 0 ∧ t.stack.psn = 0 ∧ t.tree.nn = 0 ∧ t.tree.fill = 0 ∧
      t.tree.sentNode = 0 ∧ t.codes.pathLen = 0 ∧ t.out = { acc := 0, nb := 0, seq := [], cnt := 0, taken := 0 } ∧
      t.dec = { magAcc := 0, magN := 0, dstate := .mark, symAcc := 0, symCnt := 0, slot := 0, cur := 0 } ∧
      t.magicReg = s.magicReg ∧ t.termReg = s.termReg ∧ t.events = rest

/-! ### Whole-machine rules -/

/-- R262: the only ways PHASE changes. -/
def Obligations.PhaseChangesAsListed : Prop :=
  ∀ (s t : State) (e : HostEvent) (rest : List HostEvent), takeEvent s s.events = some (e, rest) →
    step s = .next t → t.phase ∈ phaseMoves e s.phase

/-- R26, R30, R32, R33, R37, U14: the read-only copies of the parameters never change; but for the hardware reset, FORCE
and TOTAL_LEN change only in IDLE, EXT_LEN and EXT[] only in IDLE or by a byte the decoder reads in DEC_EXT, so a compress
only reads them, and IRQ_EN only by its own write. -/
def Obligations.SettingsStayWhileRunning : Prop :=
  ∀ (s t : State) (e : HostEvent) (rest : List HostEvent), takeEvent s s.events = some (e, rest) → step s = .next t →
    t.magicReg = s.magicReg ∧ t.termReg = s.termReg ∧
    (e ≠ .reset → ((∀ v, e ≠ .write 0x018 v) → t.irqEn = s.irqEn) ∧
      (s.phase ≠ .idle → t.force = s.force ∧ t.totalLen = s.totalLen ∧
        ((∀ b, e = .inByte b → s.phase ≠ .decExt) → t.ext = s.ext ∧ t.extLen = s.extLen)))

/-- R29: BADCMD and CMDERR change only when a command is written: a rejected one, or CLEAR for CMDERR; and by reset. -/
def Obligations.OnlyRejectionWritesBadCmd : Prop :=
  ∀ (s t : State) (e : HostEvent) (rest : List HostEvent), takeEvent s s.events = some (e, rest) → e ≠ .reset →
    step s = .next t →
    (t.badCmd ≠ s.badCmd → ∃ w, e = .write 0x004 w ∧ illegalWord w s.phase = true ∧ t.badCmd = w) ∧
    (t.cmderr ≠ s.cmderr → ∃ w, e = .write 0x004 w ∧ (illegalWord w s.phase = true ∨ w = 0x00000005#32))

/-- R50: OUTSEQ grows only at its end, except that a start command and the hardware reset empty it. R15, R61: the event
OUT transfers the oldest byte not yet taken and changes nothing else; a host that is ready while there is none waits. The
count of bytes taken is the model's form of the port (log 5), and the wait in the list of events is log 4's. -/
def Obligations.OutputOnlyGrows : Prop :=
  (∀ (s t : State) (e : HostEvent) (rest : List HostEvent), takeEvent s s.events = some (e, rest) → e ≠ .reset →
    step s = .next t → s.out.seq <+: t.out.seq ∨
      (t.out.seq = [] ∧ s.phase = .idle ∧ (e = .write 0x004 0x00000001#32 ∨ e = .write 0x004 0x00000002#32))) ∧
  (∀ (s : State) (rest : List HostEvent), takeEvent s s.events = some (.outByte, rest) →
    ∃ b older newer, s.outData = some b ∧ s.out.seq = older ++ b :: newer ∧ older.length = s.out.taken ∧
      ∃ t, step s = .next t ∧ t = { s with events := rest, out := { s.out with taken := s.out.taken + 1 } } ∧
        t.outData = newer.head?) ∧
  ∀ (s : State) (n : Nat), s.out.seq.length ≤ s.out.taken → s.events = List.replicate n .outByte →
    s.outData = none ∧ step s = .next s

/-- The state after reset meets the invariant (its values of MAGIC and EXT_TERM are the model's choice, log 1; the
invariant does not rest on them). -/
def Obligations.ResetMeetsTheInvariant : Prop := State.inv State.reset

/-- R47, R34, R245, R221: the accumulator never holds more than NB bits, OUT_CNT counts OUTSEQ, and nothing is emitted
before pass 2 or the payload. -/
def Obligations.StepsKeepTheOutputDiscipline : Prop :=
  ∀ s t : State, packerOk s.out → outputOk s → silenceOk s → step s = .next t →
    packerOk t.out ∧ outputOk t ∧ silenceOk t

/-- R310: PCT is the progress of the running operation, never decreases within an operation, and pends PROG when it
rises. That this holds of its rise to 100 at DONE too, so of the last clause where t.phase is DONE, is the model's reading
(log 18, DEDUCED). -/
def Obligations.ProgressNeverGoesBack : Prop :=
  ∀ s t : State, countersOk s → opOk s → progressOk s → step s = .next t →
    progressOk t ∧
    (s.phase ≠ .idle → t.phase ≠ .idle →
      s.pct.toNat ≤ t.pct.toNat ∧ (s.pct ≠ t.pct → t.irqPend.getLsbD 3 = true))

/-- R32, R34, R138: IN_CNT stays below TOTAL_LEN while input is awaited, and the counts of pass 1 add up to it, so no
count wraps. -/
def Obligations.StepsKeepTheCounts : Prop :=
  ∀ s t : State, countersOk s → countsOk s → step s = .next t → countersOk t ∧ countsOk t

/-- Every step keeps the invariant of the whole machine. -/
def Obligations.StepsKeepTheInvariant : Prop :=
  ∀ s t : State, s.inv → step s = .next t → t.inv

/-- R172, R73, R240: from every state that meets the invariant a step answers a next state: no fault and no refusal of
the model is ever met. -/
def Obligations.NoStepEverStops : Prop :=
  ∀ s : State, s.inv → ∃ t, step s = .next t
end

