-- ==== Sys2Proof/Laws/Assembly.lean ====
section
/-!
SUPPORT. Tree assembly (43_tree_builder.md R167 to R170): what the node store holds while pairs are attached, when a
sequence assembles, and what a successful assembly gives.
-/

namespace Sys2Proof.Machine

/-- Node creation (R167): node k + i is made from entry i. -/
theorem createNodes_get (q : List (Option Sym)) :
    ∀ (k : Nat) (v : Vector Node 513), k + q.length ≤ 513 → ∀ i : Nat,
      (createNodes q k v)[i]? = if k ≤ i ∧ i < k + q.length then (q[i - k]?).map nodeOf else v[i]? := by
  induction q with
  | nil =>
    intro k v _ i
    have : ¬ (k ≤ i ∧ i < k) := by omega
    simp [createNodes, this]
  | cons e rest ih =>
    intro k v hk i
    simp only [List.length_cons] at hk
    rw [createNodes, ih (k + 1) _ (by omega) i]
    simp only [List.length_cons]
    by_cases h1 : i = k
    · subst h1
      have h2 : ¬ (i + 1 ≤ i ∧ i < i + 1 + rest.length) := by omega
      have h3 : i < 513 := by omega
      simp [h3]
    · by_cases h2 : k + 1 ≤ i ∧ i < k + 1 + rest.length
      · have h3 : k ≤ i ∧ i < k + (rest.length + 1) := by omega
        have h4 : i - k = (i - (k + 1)) + 1 := by omega
        rw [if_pos h2, if_pos h3, h4, List.getElem?_cons_succ]
      · have h3 : ¬ (k ≤ i ∧ i < k + (rest.length + 1)) := by omega
        have h4 : ¬ k = i := by omega
        rw [if_neg h2, if_neg h3, Vector.getElem?_setIfInBounds, if_neg h4]

/-- The scan of R168 passes over what is no childless placeholder, and stops at one or at `k`. -/
theorem advanceFill_spec (v : Vector Node 513) (k : Nat) :
    ∀ (fuel fill : Nat), k ≤ fill + fuel →
      fill ≤ advanceFill v k fuel fill ∧ (fill ≤ k → advanceFill v k fuel fill ≤ k) ∧
      (∀ i : Nat, fill ≤ i → i < advanceFill v k fuel fill → v[i]? ≠ some .bare) ∧
      (advanceFill v k fuel fill < k → v[advanceFill v k fuel fill]? = some .bare)
  | 0, fill, h => by
    simp only [advanceFill]
    exact ⟨Nat.le_refl _, id, fun i h1 h2 => by omega, fun h1 => by omega⟩
  | fuel + 1, fill, h => by
    rw [advanceFill]
    split
    · next hc =>
      obtain ⟨h1, h2, h3, h4⟩ := advanceFill_spec v k fuel (fill + 1) (by omega)
      refine ⟨by omega, fun _ => h2 (by omega), fun i hi hi2 => ?_, h4⟩
      by_cases e : i = fill
      · subst e; exact hc.2
      · exact h3 i (by omega) hi2
    · next hc =>
      refine ⟨Nat.le_refl _, id, fun i h1 h2 => by omega, fun h1 => ?_⟩
      by_contra hb
      exact hc ⟨h1, hb⟩

/-- How many entries of a sequence are placeholders. -/
def placeholders (q : List (Option Sym)) : Nat := q.countP Option.isNone

/-- The node store of sequence `q` after `j` pairs, the next one (k, k + 1): placeholders below `g` have their children,
those from `g` on have none, and every node from 1 to k − 1 has its parent. -/
structure Attached (q : List (Option Sym)) (v : Vector Node 513) (k j g : Nat) : Prop where
  next : k = 2 * j + 1
  bound : g ≤ k
  leaf : ∀ (i : Nat) s, q[i]? = some (some s) → v[i]? = some (.leaf s)
  low : ∀ i : Nat, i < g → q[i]? = some none →
    ∃ c, v[i]? = some (.pair (BitVec.ofNat 10 c) (BitVec.ofNat 10 (c + 1))) ∧ i < c ∧ c + 1 < k
  high : ∀ i : Nat, g ≤ i → q[i]? = some none → v[i]? = some .bare
  count : placeholders (q.take g) = j
  parents : ∀ c, 1 ≤ c → c < k → ∃ i d : Nat, i < d ∧ i < g ∧ q[i]? = some none ∧
    v[i]? = some (.pair (BitVec.ofNat 10 d) (BitVec.ofNat 10 (d + 1))) ∧ (c = d ∨ c = d + 1)
  before : ∀ i, i < j → i < placeholders (q.take (2 * i + 1))

theorem placeholders_take_succ (q : List (Option Sym)) (i : Nat) :
    placeholders (q.take (i + 1)) = placeholders (q.take i) + if q[i]? = some none then 1 else 0 := by
  unfold placeholders
  rw [List.take_add_one, List.countP_append]
  congr 1
  cases h : q[i]? with
  | none => simp
  | some e => cases e <;> simp

theorem placeholders_take_mono (q : List (Option Sym)) {i j : Nat} (h : i ≤ j) :
    placeholders (q.take i) ≤ placeholders (q.take j) := by
  induction j with
  | zero => have : i = 0 := by omega
            subst this; exact Nat.le_refl _
  | succ j ih =>
    by_cases e : i = j + 1
    · subst e; exact Nat.le_refl _
    · have := ih (by omega)
      rw [placeholders_take_succ]
      omega

/-- Where no placeholder stands from `g` to `j`, the count does not grow. -/
theorem placeholders_take_gap (q : List (Option Sym)) {g j : Nat} (h : g ≤ j)
    (hn : ∀ i : Nat, g ≤ i → i < j → q[i]? ≠ some none) : placeholders (q.take j) = placeholders (q.take g) := by
  induction j with
  | zero => have : g = 0 := by omega
            subst this; rfl
  | succ j ih =>
    by_cases e : g = j + 1
    · subst e; rfl
    · rw [placeholders_take_succ, if_neg (hn j (by omega) (by omega)),
        ih (by omega) fun i h1 h2 => hn i h1 (by omega)]
      rfl

/-- One pair attached at the first placeholder without children. -/
theorem Attached.attach {q : List (Option Sym)} {v : Vector Node 513} {k j g f : Nat} (a : Attached q v k j g)
    (hk : k + 2 ≤ 513) (hg : g ≤ f) (hf : f < k) (hfn : q[f]? = some none)
    (hgap : ∀ i : Nat, g ≤ i → i < f → q[i]? ≠ some none) :
    Attached q (v.setIfInBounds f (.pair (BitVec.ofNat 10 k) (BitVec.ofNat 10 (k + 1)))) (k + 2) (j + 1) (f + 1) := by
  have hget : ∀ i : Nat, (v.setIfInBounds f (.pair (BitVec.ofNat 10 k) (BitVec.ofNat 10 (k + 1))))[i]? =
      if f = i then some (.pair (BitVec.ofNat 10 k) (BitVec.ofNat 10 (k + 1))) else v[i]? := by
    intro i
    rw [Vector.getElem?_setIfInBounds]
    split
    · rw [if_pos (by omega)]
    · rfl
  have hcount : placeholders (q.take (f + 1)) = j + 1 := by
    rw [placeholders_take_succ, if_pos hfn, placeholders_take_gap q hg hgap, a.count]
  refine ⟨by have := a.next; omega, by omega, ?_, ?_, ?_, hcount, ?_, ?_⟩
  · intro i s h
    have : ¬ f = i := by intro e; subst e; rw [hfn] at h; simp at h
    rw [hget, if_neg this]
    exact a.leaf i s h
  · intro i hi hn
    rw [hget]
    by_cases e : f = i
    · exact ⟨k, by rw [if_pos e], by omega, by omega⟩
    · rw [if_neg e]
      have hig : i < g := by
        by_contra hge
        exact hgap i (by omega) (by omega) hn
      obtain ⟨c, h1, h2, h3⟩ := a.low i hig hn
      exact ⟨c, h1, h2, by omega⟩
  · intro i hi hn
    rw [hget, if_neg (by omega)]
    exact a.high i (by omega) hn
  · intro c h1 h2
    by_cases hc : c < k
    · obtain ⟨i, d, h3, h4, h5, h6, h7⟩ := a.parents c h1 hc
      exact ⟨i, d, h3, by omega, h5, by rw [hget, if_neg (by omega)]; exact h6, h7⟩
    · exact ⟨f, k, hf, by omega, hfn, by rw [hget, if_pos rfl], by omega⟩
  · intro i hi
    by_cases e : i = j
    · subst e
      have := placeholders_take_mono q (show f + 1 ≤ 2 * i + 1 by have := a.next; omega)
      omega
    · exact a.before i (by omega)

/-- The attaching of `m` pairs (R168): where it succeeds the node store is as `Attached` says; it succeeds where every
pair's number is below the number of placeholders before it. -/
theorem attachPairs_spec (q : List (Option Sym)) (hq : q.length ≤ 513) :
    ∀ (m k j g : Nat) (v : Vector Node 513) (fill : Nat), Attached q v k j g → k + 2 * m = q.length →
      (g = fill ∨ g = fill + 1 ∧ v[fill]? ≠ some .bare) →
      ((attachPairs m k v fill).1 = true →
        ∃ g', Attached q (attachPairs m k v fill).2.1 q.length (j + m) g') ∧
      ((∀ i, j ≤ i → i < j + m → i < placeholders (q.take (2 * i + 1))) → (attachPairs m k v fill).1 = true)
  | 0, k, j, g, v, fill, a, hk, _ => by
    simp only [attachPairs]
    have : k = q.length := by omega
    subst this
    exact ⟨fun _ => ⟨g, a⟩, fun _ => trivial⟩
  | m + 1, k, j, g, v, fill, a, hk, hfill => by
    have hfg : fill ≤ g ∧ g ≤ fill + 1 := by omega
    have hb := a.bound
    have hn := a.next
    obtain ⟨s1, s2, s3, s4⟩ := advanceFill_spec v k (k - fill) fill (by omega)
    rw [attachPairs]
    generalize advanceFill v k (k - fill) fill = f at *
    -- nothing from g to f is a placeholder
    have hgap : ∀ i : Nat, g ≤ i → i < f → q[i]? ≠ some none := fun i h1 h2 h3 =>
      s3 i (by omega) h2 (a.high i h1 h3)
    split
    · next hkf =>
      refine ⟨by simp, fun hc => ?_⟩
      exfalso
      have h1 := hc j (Nat.le_refl _) (by omega)
      have h2 : placeholders (q.take k) = placeholders (q.take g) :=
        placeholders_take_gap q hb fun i h3 h4 => hgap i h3 (by omega)
      rw [← hn, h2, a.count] at h1
      omega
    · next hkf =>
      have hfk : f < k := by omega
      have hbare := s4 hfk
      have hgf : g ≤ f := by
        rcases hfill with h | ⟨h, h2⟩
        · omega
        · by_contra hlt
          have : f = fill := by omega
          rw [this] at hbare
          exact h2 hbare
      have hfn : q[f]? = some none := by
        cases h : q[f]? with
        | none => rw [List.getElem?_eq_none_iff] at h; omega
        | some e =>
          cases e with
          | none => rfl
          | some s => have := a.leaf f s h; rw [hbare] at this; cases this
      have a' := a.attach (by omega) hgf hfk hfn hgap
      have hset : (v.setIfInBounds f (.pair (BitVec.ofNat 10 k) (BitVec.ofNat 10 (k + 1))))[f]? ≠ some .bare := by
        rw [Vector.getElem?_setIfInBounds, if_pos rfl]
        split <;> simp
      obtain ⟨r1, r2⟩ := attachPairs_spec q hq m (k + 2) (j + 1) (f + 1) _ f a' (by omega) (Or.inr ⟨rfl, hset⟩)
      have e1 : j + 1 + m = j + (m + 1) := by omega
      rw [e1] at r1 r2
      exact ⟨r1, fun hc => r2 fun i h1 h2 => hc i (by omega) h2⟩

theorem Attached.start (q : List (Option Sym)) (v : Vector Node 513) (hq : q.length ≤ 513) :
    Attached q (createNodes q 0 v) 1 0 0 := by
  have hget : ∀ (i : Nat) e, q[i]? = some e → (createNodes q 0 v)[i]? = some (nodeOf e) := by
    intro i e h
    have hi : i < q.length := by
      by_contra hc
      rw [List.getElem?_eq_none (by omega)] at h
      cases h
    rw [createNodes_get q 0 v (by omega) i, if_pos (by omega)]
    simp [h]
  exact ⟨rfl, by omega, fun i s h => hget i _ h, fun i h => by omega, fun i _ h => hget i _ h, rfl,
    fun c h1 h2 => by omega, fun i h => by omega⟩

/-- The nodes of an assembled sequence, entry by entry; `g` only says that all placeholders have children. -/
structure Assembled (q : List (Option Sym)) (u : Tree) : Prop where
  size : u.nn.toNat = q.length
  odd : q.length % 2 = 1
  three : 3 ≤ q.length
  fits : q.length ≤ 513
  leaf : ∀ (i : Nat) s, q[i]? = some (some s) → u.node[i]? = some (.leaf s)
  kids : ∀ i : Nat, q[i]? = some none →
    ∃ c, u.node[i]? = some (.pair (BitVec.ofNat 10 c) (BitVec.ofNat 10 (c + 1))) ∧ i < c ∧ c + 1 < q.length
  root : q[0]? = some none
  parents : ∀ c, 1 ≤ c → c < q.length → ∃ i d : Nat, i < d ∧
    u.node[i]? = some (.pair (BitVec.ofNat 10 d) (BitVec.ofNat 10 (d + 1))) ∧ (c = d ∨ c = d + 1)
  count : 2 * placeholders q + 1 = q.length
  pairs : ∀ i, 2 * i + 1 < q.length → i < placeholders (q.take (2 * i + 1))

theorem nn_of_length {q : List (Option Sym)} (h : q.length ≤ 513) : (BitVec.ofNat 10 q.length).toNat = q.length := by
  simp
  omega

theorem take_contains_bare (v : Vector Node 513) (n : Nat) :
    (v.toList.take n).contains Node.bare = true ↔ ∃ i : Nat, i < n ∧ v[i]? = some .bare := by
  rw [List.contains_iff_mem, List.mem_iff_getElem?]
  constructor
  · rintro ⟨i, hi⟩
    rw [List.getElem?_take] at hi
    split at hi
    · next h => exact ⟨i, h, by simpa using hi⟩
    · cases hi
  · rintro ⟨i, h1, h2⟩
    refine ⟨i, ?_⟩
    rw [List.getElem?_take, if_pos h1]
    simpa using h2

theorem leafAt_zero (v : Vector Node 513) : leafAt v 0 = true ↔ ∃ s, v[0]? = some (.leaf s) := by
  unfold leafAt
  rw [show (0 : NodeIx).toNat = 0 from rfl]
  cases h : v[0]? with
  | none => simp
  | some n => cases n <;> simp [Node.isLeaf]

/-- A successful assembly is as `Assembled` says. -/
theorem assemble_true {q : List (Option Sym)} {t u : Tree} (hq : q.length ≤ 513) (h : assemble q t = (true, u)) :
    Assembled q u := by
  unfold assemble at h
  dsimp only at h
  split at h
  · cases h
  · next hodd =>
    have a0 := Attached.start q t.node hq
    obtain ⟨r1, _⟩ := attachPairs_spec q hq ((q.length - 1) / 2) 1 0 0 (createNodes q 0 t.node) 0 a0 (by omega)
      (Or.inl rfl)
    generalize attachPairs ((q.length - 1) / 2) 1 (createNodes q 0 t.node) 0 = r at h r1
    obtain ⟨ok, v2, f⟩ := r
    dsimp only at h r1
    split at h
    · cases h
    · next hok =>
      have hok' : ok = true := by simpa using hok
      obtain ⟨g, a⟩ := r1 hok'
      split at h
      · cases h
      · next hbare =>
        split at h
        · cases h
        · next hroot =>
          cases h
          have nobare : ∀ i : Nat, i < q.length → v2[i]? ≠ some .bare := fun i h1 h2 =>
            hbare ((take_contains_bare v2 _).2 ⟨i, h1, h2⟩)
          have noplace : ∀ i : Nat, g ≤ i → q[i]? ≠ some none := by
            intro i h1 h2
            have hi : i < q.length := by
              by_contra hc
              rw [List.getElem?_eq_none (by omega)] at h2
              cases h2
            exact nobare i hi (a.high i h1 h2)
          have hroot' : q[0]? = some none := by
            cases h0 : q[0]? with
            | none => rw [List.getElem?_eq_none_iff] at h0; omega
            | some e =>
              cases e with
              | none => rfl
              | some s => exact absurd ((leafAt_zero v2).2 ⟨s, a.leaf 0 s h0⟩) hroot
          have hkids : ∀ i : Nat, q[i]? = some none →
              ∃ c, v2[i]? = some (.pair (BitVec.ofNat 10 c) (BitVec.ofNat 10 (c + 1))) ∧ i < c ∧ c + 1 < q.length :=
            fun i h1 => a.low i (by by_contra hc; exact noplace i (by omega) h1) h1
          have hcount : placeholders q = (q.length - 1) / 2 := by
            have h1 := placeholders_take_gap q a.bound fun i h3 h4 => noplace i h3
            rw [List.take_of_length_le (by omega), a.count] at h1
            omega
          obtain ⟨c, _, h1, h2⟩ := hkids 0 hroot'
          refine ⟨nn_of_length hq, by omega, by omega, hq, a.leaf, hkids, hroot', ?_, by omega,
            fun i hi => a.before i (by omega)⟩
          intro c h3 h4
          obtain ⟨i, d, h5, _, _, h6, h7⟩ := a.parents c h3 h4
          exact ⟨i, d, h5, h6, h7⟩

/-- A sequence assembles where it has an odd length, every pair finds more placeholders before it than pairs, and there
is one placeholder for each pair. -/
theorem assemble_succeeds {q : List (Option Sym)} (t : Tree) (hq : q.length ≤ 513) (hodd : q.length % 2 = 1)
    (h3 : 3 ≤ q.length) (hpairs : ∀ i, 2 * i + 1 < q.length → i < placeholders (q.take (2 * i + 1)))
    (hcount : 2 * placeholders q + 1 = q.length) : (assemble q t).1 = true := by
  have a0 := Attached.start q t.node hq
  obtain ⟨r1, r2⟩ := attachPairs_spec q hq ((q.length - 1) / 2) 1 0 0 (createNodes q 0 t.node) 0 a0 (by omega)
    (Or.inl rfl)
  have hok := r2 fun i _ hi => hpairs i (by omega)
  obtain ⟨g, a⟩ := r1 hok
  unfold assemble
  dsimp only
  rw [if_neg (by omega)]
  generalize attachPairs ((q.length - 1) / 2) 1 (createNodes q 0 t.node) 0 = r at hok a
  obtain ⟨ok, v2, f⟩ := r
  dsimp only at hok a ⊢
  subst hok
  rw [if_neg (by simp)]
  -- every placeholder is below g
  have noplace : ∀ i : Nat, g ≤ i → q[i]? ≠ some none := by
    intro i h1 h2
    have e1 := placeholders_take_mono q h1
    have e2 := placeholders_take_succ q i
    rw [if_pos h2] at e2
    have hi : i < q.length := by
      by_contra hc
      rw [List.getElem?_eq_none (by omega)] at h2
      cases h2
    have e3 := placeholders_take_mono q (show i + 1 ≤ q.length by omega)
    rw [List.take_of_length_le (Nat.le_refl _)] at e3
    have := a.count
    omega
  have hnode : ∀ i : Nat, i < q.length → v2[i]? ≠ some .bare := by
    intro i hi hb
    cases he : q[i]? with
    | none => rw [List.getElem?_eq_none_iff] at he; omega
    | some e =>
      cases e with
      | none =>
        obtain ⟨c, h1, _⟩ := a.low i (by by_contra hc; exact noplace i (by omega) he) he
        rw [hb] at h1
        cases h1
      | some s =>
        have := a.leaf i s he
        rw [hb] at this
        cases this
  rw [if_neg, if_neg]
  · intro hl
    obtain ⟨s, hs⟩ := (leafAt_zero v2).1 hl
    have h0 := hpairs 0 (by omega)
    have e2 := placeholders_take_succ q 0
    have hz : placeholders (q.take 0) = 0 := rfl
    have hn : q[0]? = some none := by
      by_contra hc
      rw [if_neg hc, hz] at e2
      simp only [Nat.mul_zero, Nat.zero_add] at h0 e2
      omega
    obtain ⟨c, h1, _⟩ := a.low 0 (by by_contra hc; exact noplace 0 (by omega) hn) hn
    rw [hs] at h1
    cases h1
  · intro hc
    obtain ⟨i, h1, h2⟩ := (take_contains_bare v2 _).1 hc
    exact hnode i h1 h2

/-- An assembly, successful or not, leaves SENT_NODE alone. -/
theorem assemble_sentNode (q : List (Option Sym)) (t : Tree) : (assemble q t).2.sentNode = t.sentNode := by
  unfold assemble
  dsimp only
  repeat' split
  all_goals rfl

/-- When a sequence assembles (R168): an odd count of at least 3, every pair finds a placeholder that no earlier pair has
taken, and none is left over. -/
theorem assemble_iff (q : List (Option Sym)) (t : Tree) (hq : q.length ≤ 513) :
    (assemble q t).1 = true ↔ q.length % 2 = 1 ∧ 3 ≤ q.length ∧
      (∀ i, 2 * i + 1 < q.length → i < placeholders (q.take (2 * i + 1))) ∧ 2 * placeholders q + 1 = q.length := by
  constructor
  · intro h
    have a := assemble_true hq (Prod.ext h rfl : assemble q t = (true, _))
    exact ⟨a.odd, a.three, a.pairs, a.count⟩
  · rintro ⟨h1, h2, h3, h4⟩
    exact assemble_succeeds t hq h1 h2 h3 h4

section
variable {q : List (Option Sym)} {u : Tree}

/-- An entry of the sequence, either way, and what its node is. -/
theorem Assembled.node_cases (a : Assembled q u) {i : Nat} (hi : i < q.length) :
    (∃ s, q[i]? = some (some s) ∧ u.node[i]? = some (.leaf s)) ∨
    (q[i]? = some none ∧
      ∃ c, u.node[i]? = some (.pair (BitVec.ofNat 10 c) (BitVec.ofNat 10 (c + 1))) ∧ i < c ∧ c + 1 < q.length) := by
  cases h : q[i]? with
  | none => rw [List.getElem?_eq_none_iff] at h; omega
  | some e =>
    cases e with
    | none => exact .inr ⟨rfl, a.kids i h⟩
    | some s => exact .inl ⟨s, rfl, a.leaf i s h⟩

theorem Assembled.finished (a : Assembled q u) : treeFinished u := by
  refine ⟨by rw [a.size]; exact a.fits, ?_, ?_⟩
  · obtain ⟨c, h1, h2, h3⟩ := a.kids 0 a.root
    exact ⟨by rw [a.size]; simp; omega, _, _, h1⟩
  · intro k hk
    rw [a.size] at hk ⊢
    rcases a.node_cases hk with ⟨s, _, h⟩ | ⟨_, c, h, h1, h2⟩
    · rw [h]; trivial
    · rw [h]
      have hf := a.fits
      have e1 : (BitVec.ofNat 10 c).toNat = c := by simp; omega
      have e2 : (BitVec.ofNat 10 (c + 1)).toNat = c + 1 := by simp; omega
      exact ⟨by omega, by omega, by omega, by omega⟩

/-- The leaves are the entries with a symbol. -/
theorem Assembled.leafCount_eq (a : Assembled q u) :
    leafCount u.node u.nn.toNat = (q.filter Option.isSome).length := by
  unfold leafCount
  rw [a.size, ← List.countP_eq_length_filter, ← List.countP_eq_length_filter]
  have e : (u.node.toList.take q.length).map Node.isLeaf = q.map Option.isSome := by
    have hf := a.fits
    apply List.ext_getElem
    · simp; omega
    · intro i h1 h2
      have hi : i < q.length := by simpa using h2
      have hi' : i < 513 := by omega
      simp only [List.getElem_map, List.getElem_take, Vector.getElem_toList]
      rcases a.node_cases hi with ⟨s, hs, h⟩ | ⟨hs, c, h, _, _⟩
      · rw [Vector.getElem?_eq_getElem hi'] at h
        rw [List.getElem?_eq_getElem hi] at hs
        simp only [Option.some.injEq] at h hs
        rw [h, hs]
        rfl
      · rw [Vector.getElem?_eq_getElem hi'] at h
        rw [List.getElem?_eq_getElem hi] at hs
        simp only [Option.some.injEq] at h hs
        rw [h, hs]
        rfl
  have c1 : ∀ l : List Node, l.countP Node.isLeaf = (l.map Node.isLeaf).countP id := by
    intro l; rw [List.countP_map]; rfl
  have c2 : ∀ l : List (Option Sym), l.countP Option.isSome = (l.map Option.isSome).countP id := by
    intro l; rw [List.countP_map]; rfl
  rw [c1, c2, e]

/-- One leaf more than placeholders. -/
theorem Assembled.leaves (a : Assembled q u) : 2 * (q.filter Option.isSome).length = q.length + 1 := by
  have h := a.count
  have e : placeholders q + (q.filter Option.isSome).length = q.length := by
    rw [← List.countP_eq_length_filter, Nat.add_comm]
    unfold placeholders
    have := List.length_eq_countP_add_countP Option.isSome (l := q)
    have e2 : List.countP (fun a : Option Sym => decide ¬ a.isSome = true) q = List.countP Option.isNone q := by
      apply List.countP_congr
      intro x _
      cases x <;> simp
    omega
  omega

end

end Sys2Proof.Machine
end

