-- ==== Sys2Proof/Laws/Bits.lean ====
section
/-!
SUPPORT. Bit lists and bit vectors: the two orders of `bitsMsb` and `ofBits` undo each other; what `codeWidth` finds
depends on the bits of the token alone.
-/

namespace Sys2Proof

theorem bitsMsb_length {n : Nat} (v : BitVec n) : (bitsMsb v).length = n := by simp [bitsMsb]

theorem bitsOf_length (b : Byte) : (bitsOf b).length = 8 := bitsMsb_length b

theorem bitsMsb_getElem {n : Nat} (v : BitVec n) (i : Nat) (h : i < (bitsMsb v).length) :
    (bitsMsb v)[i] = v.getMsbD i := by simp [bitsMsb]

theorem bitsOf_getElem (b : Byte) (i : Nat) (h : i < (bitsOf b).length) : (bitsOf b)[i] = b.getMsbD i :=
  bitsMsb_getElem b i h

/-- The bits shifted in stand below the old ones, the last at the right. -/
theorem foldl_shiftConcat_getLsbD {n : Nat} (l : List Bool) (x : BitVec n) (i : Nat) (hi : i < n) :
    (l.foldl BitVec.shiftConcat x).getLsbD i =
      if i < l.length then l.reverse[i]?.getD false else x.getLsbD (i - l.length) := by
  induction l generalizing x with
  | nil => simp
  | cons b rest ih =>
    simp only [List.foldl_cons, ih, List.length_cons, List.reverse_cons, BitVec.getLsbD_shiftConcat]
    by_cases h : i < rest.length
    · have h2 : i < rest.length + 1 := by omega
      simp [h, h2]
    · by_cases h3 : i = rest.length
      · have : i - rest.length = 0 := by omega
        have hn : 0 < n := by omega
        simp [h3, hn]
      · have h2 : ¬ i < rest.length + 1 := by omega
        have h4 : i - rest.length ≠ 0 := by omega
        have h5 : i - rest.length < n := by omega
        have h6 : i - rest.length - 1 = i - (rest.length + 1) := by omega
        simp [h, h2, h4, h5, h6]

theorem ofBits_bitsMsb {n : Nat} (v : BitVec n) : ofBits n (bitsMsb v) = v := by
  apply BitVec.eq_of_getLsbD_eq
  intro i hi
  rw [ofBits, foldl_shiftConcat_getLsbD _ _ _ hi, bitsMsb_length, if_pos hi, List.getElem?_reverse (by simp [bitsMsb_length, hi])]
  have h1 : (bitsMsb v).length - 1 - i < (bitsMsb v).length := by simp [bitsMsb_length]; omega
  rw [List.getElem?_eq_getElem h1, Option.getD_some, bitsMsb_getElem, bitsMsb_length, BitVec.getMsbD]
  have h2 : n - 1 - i < n := by omega
  have h3 : n - 1 - (n - 1 - i) = i := by omega
  simp [h2, h3]

theorem bitsMsb_ofBits {n : Nat} (l : List Bool) (h : l.length = n) : bitsMsb (ofBits n l) = l := by
  apply List.ext_getElem
  · rw [bitsMsb_length, h]
  · intro i h1 h2
    have hi : i < n := by omega
    have h3 : n - 1 - i < n := by omega
    rw [bitsMsb_getElem, BitVec.getMsbD, ofBits, foldl_shiftConcat_getLsbD _ _ _ h3, if_pos (by omega),
      List.getElem?_reverse (by omega)]
    have h4 : l.length - 1 - (n - 1 - i) = i := by omega
    simp [hi, h4, List.getElem?_eq_getElem h2]

/-! ### Command words -/

theorem commandWord_opcode (op arg : Byte) : (commandWord op arg).extractLsb' 0 8 = op := by
  apply BitVec.eq_of_getLsbD_eq
  intro i hi
  simp only [commandWord, BitVec.getLsbD_extractLsb', BitVec.getLsbD_append]
  simp [hi]

theorem commandWord_arg (op arg : Byte) : (commandWord op arg).extractLsb' 8 8 = arg := by
  apply BitVec.eq_of_getLsbD_eq
  intro i hi
  simp only [commandWord, BitVec.getLsbD_extractLsb', BitVec.getLsbD_append]
  simp [hi]

theorem commandWord_zero (op arg : Byte) : (commandWord op arg).extractLsb' 16 16 = 0#16 := by
  apply BitVec.eq_of_getLsbD_eq
  intro i hi
  have h1 : ¬ 16 + i < 8 := by omega
  have h2 : ¬ 16 + i - 8 < 8 := by omega
  simp only [commandWord, BitVec.getLsbD_extractLsb', BitVec.getLsbD_append]
  simp [h1, h2]

/-- A word whose bits [31:16] are 0 is the command word of its OPCODE and ARG (30_encoding.md R91). -/
theorem eq_commandWord (w : Word) (h : w.extractLsb' 16 16 = 0#16) :
    w = commandWord (w.extractLsb' 0 8) (w.extractLsb' 8 8) := by
  apply BitVec.eq_of_getLsbD_eq
  intro i hi
  have hh : ∀ j, j < 16 → w.getLsbD (16 + j) = false := by
    intro j hj
    simpa [hj] using congrArg (fun v : BitVec 16 => v.getLsbD j) h
  simp only [commandWord, BitVec.getLsbD_append, BitVec.getLsbD_extractLsb']
  by_cases h1 : i < 8
  · simp [h1]
  · by_cases h2 : i - 8 < 8
    · have e : 8 + (i - 8) = i := by omega
      simp [h1, h2, e]
    · have e : 16 + (i - 16) = i := by omega
      have := hh (i - 16) (by omega)
      rw [e] at this
      simp [h1, h2, this]

/-- The decoder on a word given by its fields: the cases of 30_encoding.md R92 and R94. -/
theorem decodeCommand_commandWord (op arg : Byte) : decodeCommand (commandWord op arg) =
    if op = 0x04 then (if arg.toNat ≤ 2 then .ok (.stop arg) else .error .stopReasonReserved)
    else if 5 < op.toNat then .error .opcodeReserved
    else if arg ≠ 0 then .error .argNotZero
    else if op = 0x00 then .ok .nop
    else if op = 0x01 then .ok .encStart
    else if op = 0x02 then .ok .decStart
    else if op = 0x03 then .ok .sinkOk
    else .ok .clear := by
  simp only [decodeCommand, commandWord_opcode, commandWord_arg, commandWord_zero]
  simp

/-! ### Code words -/

/-- More bits after a token do not change its width. -/
theorem codeWidth_append (nodes : Vector Node 513) (more : List Bool) :
    ∀ (cur : NodeIx) (bits : List Bool) (n : Nat), codeWidth nodes cur bits = .ok n →
      codeWidth nodes cur (bits ++ more) = .ok n
  | _, [], _, h => by simp [codeWidth] at h
  | cur, b :: rest, n, h => by
    simp only [codeWidth, List.cons_append] at h ⊢
    cases hc : childOf nodes cur b with
    | none => simp [hc] at h
    | some k =>
      simp only [hc] at h ⊢
      split
      · next hl => rw [if_pos hl] at h; exact h
      · next hl =>
        rw [if_neg hl] at h
        cases hr : codeWidth nodes k rest with
        | error e => simp [hr] at h
        | ok m => simp only [hr] at h; simp only [codeWidth_append nodes more k rest m hr, h]

/-- The width found is at least 1 and within the bits, and the bits within it are enough to find it. -/
theorem codeWidth_ok (nodes : Vector Node 513) :
    ∀ (cur : NodeIx) (bits : List Bool) (n : Nat), codeWidth nodes cur bits = .ok n →
      1 ≤ n ∧ n ≤ bits.length ∧ codeWidth nodes cur (bits.take n) = .ok n
  | _, [], _, h => by simp [codeWidth] at h
  | cur, b :: rest, n, h => by
    simp only [codeWidth] at h
    cases hc : childOf nodes cur b with
    | none => simp [hc] at h
    | some k =>
      simp only [hc] at h
      split at h
      · next hl =>
        cases h
        exact ⟨Nat.le_refl 1, by simp, by simp [codeWidth, hc, hl]⟩
      · next hl =>
        cases hr : codeWidth nodes k rest with
        | error e => simp [hr] at h
        | ok m =>
          simp only [hr, Except.ok.injEq] at h
          subst h
          obtain ⟨h1, h2, h3⟩ := codeWidth_ok nodes k rest m hr
          exact ⟨by omega, by simp; omega, by simp [codeWidth, hc, hl, h3]⟩

end Sys2Proof
end

