-- ==== Sys2Proof/Laws/Heap.lean ====
section
/-!
SUPPORT. The heap: what one swap does, and one lemma for each sift: its entries are the same ones in another order, and
it restores the order (42_priority_queue.md R148, R149, R152).
-/

namespace Sys2Proof.Machine

/-- The first `n` entries of the heap, from index 1. -/
def heapEntries (h : Vector Entry 257) (n : Nat) : List Entry := (List.range n).map fun i => heapAt h (i + 1)

theorem heapEntries_eq_take (h : Vector Entry 257) {n : Nat} (hn : n ≤ 257) : heapEntries h n = h.toList.take n := by
  apply List.ext_getElem
  · simp [heapEntries, hn]
  · intro i h1 h2
    have hi : i < 257 := by simp [heapEntries] at h1; omega
    simp [heapEntries, heapAt, hi]

theorem heapEntries_succ (h : Vector Entry 257) (n : Nat) :
    heapEntries h (n + 1) = heapEntries h n ++ [heapAt h (n + 1)] := by
  simp [heapEntries, List.range_succ]

/-- The weight at an index, as a number. -/
def heapWeight (h : Vector Entry 257) (i : Nat) : Nat := (heapAt h i).weight.toNat

theorem less_iff (x y : Entry) : less x y = true ↔ x.weight.toNat < y.weight.toNat := by simp [less, BitVec.lt_def]

theorem heapAt_set (h : Vector Entry 257) (i k : Nat) (e : Entry) (hi : 1 ≤ i) (hi' : i ≤ 257) (hk : 1 ≤ k) :
    heapAt (h.setIfInBounds (i - 1) e) k = if k = i then e else heapAt h k := by
  unfold heapAt
  rw [Vector.getElem?_setIfInBounds]
  by_cases hki : k = i
  · subst hki
    have : k - 1 < 257 := by omega
    simp [this]
  · have : ¬ i - 1 = k - 1 := by omega
    simp [hki, this]

theorem heapAt_swap (h : Vector Entry 257) (i j k : Nat) (hi : 1 ≤ i) (hi' : i ≤ 257) (hj : 1 ≤ j) (hj' : j ≤ 257)
    (hk : 1 ≤ k) :
    heapAt (heapSwap h i j) k = if k = j then heapAt h i else if k = i then heapAt h j else heapAt h k := by
  rw [heapSwap, heapAt_set _ _ _ _ hj hj' hk, heapAt_set _ _ _ _ hi hi' hk]

theorem range_swap_perm (n a b : Nat) (ha : a < n) (hb : b < n) :
    ((List.range n).map (Equiv.swap a b)).Perm (List.range n) := by
  rw [List.perm_ext_iff_of_nodup (List.nodup_range.map (Equiv.swap a b).injective) List.nodup_range]
  intro x
  simp only [List.mem_map, List.mem_range]
  constructor
  · rintro ⟨y, hy, rfl⟩
    rw [Equiv.swap_apply_def]
    split
    · exact hb
    · split
      · exact ha
      · exact hy
  · intro hx
    refine ⟨Equiv.swap a b x, ?_, Equiv.swap_apply_self a b x⟩
    rw [Equiv.swap_apply_def]
    split
    · exact hb
    · split
      · exact ha
      · exact hx

/-- A swap inside the heap permutes its entries. -/
theorem heapSwap_perm (h : Vector Entry 257) (n i j : Nat) (hi : 1 ≤ i) (hi' : i ≤ n) (hj : 1 ≤ j) (hj' : j ≤ n)
    (hn : n ≤ 257) : (heapEntries (heapSwap h i j) n).Perm (heapEntries h n) := by
  have e : heapEntries (heapSwap h i j) n =
      ((List.range n).map (Equiv.swap (i - 1) (j - 1))).map fun k => heapAt h (k + 1) := by
    simp only [heapEntries, List.map_map]
    apply List.map_congr_left
    intro k _
    simp only [Function.comp]
    rw [heapAt_swap h i j (k + 1) hi (by omega) hj (by omega) (by omega), Equiv.swap_apply_def]
    by_cases h1 : k + 1 = j
    · by_cases h2 : k = i - 1
      · have : i = j := by omega
        simp [h2, this, hj]
      · have h3 : k = j - 1 := by omega
        have h4 : ¬ j - 1 = i - 1 := by omega
        simp [h3, h4, hj, hi]
    · by_cases h2 : k = i - 1
      · have h5 : k + 1 = i := by omega
        have h6 : ¬ i = j := by omega
        simp [h2, hi, hj, h6]
      · have h5 : ¬ k + 1 = i := by omega
        have h3 : ¬ k = j - 1 := by omega
        simp [h1, h2, h3, h5]
  rw [e]
  exact (range_swap_perm n _ _ (by omega) (by omega)).map _

/-- HEAP[1..n] is ordered (R152), in numbers. -/
def orderedUpTo (h : Vector Entry 257) (n : Nat) : Prop :=
  ∀ k, 2 ≤ k → k ≤ n → heapWeight h (k / 2) ≤ heapWeight h k

theorem heapOrdered_iff (q : Queue) : heapOrdered q ↔ orderedUpTo q.heap q.hn.toNat := by
  simp only [heapOrdered, orderedUpTo, heapWeight, BitVec.le_def]

/-! ### Sift-up -/

/-- The order holds but for the entry at `i`, which may be lighter than its parent. -/
def upOk (h : Vector Entry 257) (n i : Nat) : Prop :=
  (∀ k, 2 ≤ k → k ≤ n → k ≠ i → heapWeight h (k / 2) ≤ heapWeight h k) ∧
  ∀ k, 2 ≤ k → k ≤ n → k / 2 = i → 2 ≤ i → heapWeight h (i / 2) ≤ heapWeight h k

theorem heapWeight_swap (h : Vector Entry 257) (i j k : Nat) (hi : 1 ≤ i) (hi' : i ≤ 257) (hj : 1 ≤ j) (hj' : j ≤ 257)
    (hk : 1 ≤ k) :
    heapWeight (heapSwap h i j) k = if k = j then heapWeight h i else if k = i then heapWeight h j else heapWeight h k := by
  unfold heapWeight
  rw [heapAt_swap h i j k hi hi' hj hj' hk]
  split
  · rfl
  · split <;> rfl

theorem upOk_swap {h : Vector Entry 257} {n i : Nat} (hn : n ≤ 257) (hi : 1 < i) (hin : i ≤ n) (hu : upOk h n i)
    (hl : heapWeight h i < heapWeight h (i / 2)) : upOk (heapSwap h i (i / 2)) n (i / 2) := by
  obtain ⟨h1, h2⟩ := hu
  have sw := fun k hk => heapWeight_swap h i (i / 2) k (by omega) (by omega) (by omega) (by omega) hk
  have hne : i ≠ i / 2 := by omega
  have hpar : 2 ≤ i / 2 → heapWeight h (i / 2 / 2) ≤ heapWeight h (i / 2) := fun hp =>
    h1 (i / 2) hp (by omega) (by omega)
  constructor
  · intro k hk hkn hki
    rw [sw k (by omega), sw (k / 2) (by omega), if_neg hki]
    by_cases e1 : k = i
    · subst e1
      rw [if_pos rfl, if_pos rfl]
      omega
    · rw [if_neg e1]
      by_cases e2 : k / 2 = i / 2
      · rw [if_pos e2]
        have := h1 k hk hkn e1
        rw [e2] at this
        omega
      · rw [if_neg e2]
        by_cases e3 : k / 2 = i
        · rw [if_pos e3]
          exact h2 k hk hkn e3 (by omega)
        · rw [if_neg e3]
          exact h1 k hk hkn e1
  · intro k hk hkn hkp hp
    have e4 : ¬ i / 2 / 2 = i / 2 := by omega
    have e5 : ¬ i / 2 / 2 = i := by omega
    have e6 : ¬ k = i / 2 := by omega
    rw [sw k (by omega), sw (i / 2 / 2) (by omega), if_neg e4, if_neg e5, if_neg e6]
    by_cases e1 : k = i
    · rw [if_pos e1]
      exact hpar hp
    · rw [if_neg e1]
      have := h1 k hk hkn e1
      rw [hkp] at this
      have := hpar hp
      omega

/-- The sift-up keeps the entries and restores the order. -/
theorem siftUp_spec (n : Nat) (hn : n ≤ 257) :
    ∀ (fuel : Nat) (h : Vector Entry 257) (i : Nat), 1 ≤ i → i ≤ n → i ≤ fuel →
      (heapEntries (siftUp fuel h i) n).Perm (heapEntries h n) ∧ (upOk h n i → orderedUpTo (siftUp fuel h i) n)
  | 0, _, _, h1, _, h3 => by omega
  | fuel + 1, h, i, h1, h2, h3 => by
    rw [siftUp]
    split
    · next hc =>
      obtain ⟨hi, hl⟩ := hc
      rw [less_iff] at hl
      obtain ⟨p, o⟩ := siftUp_spec n hn fuel (heapSwap h i (i / 2)) (i / 2) (by omega) (by omega) (by omega)
      exact ⟨p.trans (heapSwap_perm h n i (i / 2) h1 h2 (by omega) (by omega) hn),
        fun hu => o (upOk_swap hn hi h2 hu hl)⟩
    · next hc =>
      refine ⟨List.Perm.refl _, fun hu k hk hkn => ?_⟩
      by_cases e : k = i
      · subst e
        simp only [not_and, less_iff] at hc
        have := hc (by omega)
        simp only [heapWeight]
        omega
      · exact hu.1 k hk hkn e

/-- An entry that is not lighter than the root leaves the root where it is. -/
theorem siftUp_root :
    ∀ (fuel : Nat) (h : Vector Entry 257) (i : Nat), 1 ≤ i → i ≤ 257 → heapWeight h 1 ≤ heapWeight h i →
      heapAt (siftUp fuel h i) 1 = heapAt h 1
  | 0, _, _, _, _, _ => rfl
  | fuel + 1, h, i, h1, h2, h3 => by
    rw [siftUp]
    split
    · next hc =>
      obtain ⟨hi, hl⟩ := hc
      rw [less_iff] at hl
      have hp : i / 2 ≠ 1 := by
        intro e
        rw [e] at hl
        simp only [heapWeight] at h3
        omega
      have hat : heapAt (heapSwap h i (i / 2)) 1 = heapAt h 1 := by
        rw [heapAt_swap h i (i / 2) 1 h1 h2 (by omega) (by omega) (Nat.le_refl 1), if_neg (by omega), if_neg (by omega)]
      rw [siftUp_root fuel _ (i / 2) (by omega) (by omega) ?_, hat]
      rw [heapWeight_swap h i (i / 2) 1 h1 h2 (by omega) (by omega) (by omega),
        heapWeight_swap h i (i / 2) (i / 2) h1 h2 (by omega) (by omega) (by omega), if_neg (by omega), if_neg (by omega),
        if_pos rfl]
      exact h3
    · rfl

theorem half_pow (i j : Nat) : i / 2 / 2 ^ j = i / 2 ^ (j + 1) := by
  rw [Nat.div_div_eq_div_mul, Nat.pow_succ, Nat.mul_comm]

/-- What the sift-up moves, and how far (R148). -/
theorem siftUp_path :
    ∀ (fuel : Nat) (h : Vector Entry 257) (i : Nat), 1 ≤ i → i ≤ 257 → i ≤ fuel → ∃ k, rises h (siftUp fuel h i) i k
  | 0, _, _, h1, _, h3 => by omega
  | fuel + 1, h, i, h1, h2, h3 => by
    rw [siftUp]
    split
    · next hc =>
      obtain ⟨hi, hl⟩ := hc
      simp only [less, decide_eq_true_eq] at hl
      have sw : ∀ x, 1 ≤ x → _ := fun x hx => heapAt_swap h i (i / 2) x h1 h2 (by omega) (by omega) hx
      have hat : heapAt (heapSwap h i (i / 2)) (i / 2) = heapAt h i := by rw [sw _ (by omega), if_pos rfl]
      have above : ∀ x, 1 ≤ x → x < i / 2 → heapAt (heapSwap h i (i / 2)) x = heapAt h x := fun x hx hlt => by
        rw [sw x hx, if_neg (by omega), if_neg (by omega)]
      obtain ⟨k, r1, r2, r3, r4, r5, r6⟩ := siftUp_path fuel (heapSwap h i (i / 2)) (i / 2) (by omega) (by omega) (by omega)
      rw [half_pow] at r1 r3 r4
      rw [half_pow] at r3
      rw [hat] at r3 r4
      have pos : ∀ j, j ≤ k → 1 ≤ i / 2 ^ (j + 1) := fun j hj =>
        r1.trans (Nat.div_le_div_left (Nat.pow_le_pow_right (by omega) (by omega)) (by positivity))
      have low : ∀ j, i / 2 ^ (j + 1) ≤ i / 2 := fun j => by rw [← half_pow]; exact Nat.div_le_self _ _
      have lower : ∀ j, j < k → i / 2 ^ (j + 1 + 1) < i / 2 := fun j hj => by
        have := pos (j + 1) (by omega)
        have := low j
        rw [← half_pow, ← half_pow, Nat.div_div_eq_div_mul, Nat.mul_comm, ← Nat.div_div_eq_div_mul, half_pow]
        omega
      refine ⟨k + 1, r1, ?_, ?_, r4, ?_, ?_⟩
      · rintro (_ | j) hj
        · simpa using hl
        · have := r2 j (by omega)
          rw [hat, half_pow, above _ (pos (j + 1) (by omega)) (lower j (by omega))] at this
          exact this
      · rcases r3 with r3 | r3
        · exact .inl r3
        · by_cases e : i / 2 ^ (k + 1) = 1
          · exact .inl e
          · right
            have e1 : i / 2 ^ (k + 1 + 1) = i / 2 ^ (k + 1) / 2 := by rw [Nat.div_div_eq_div_mul, ← Nat.pow_succ]
            have := low k
            rwa [above _ (by omega) (by omega)] at r3
      · rintro (_ | j) hj
        · rw [Nat.pow_zero, Nat.div_one, r6 i h1 (fun j _ => ?_), sw i h1, if_neg (by omega), if_pos rfl]
          · simp
          · have := low j
            rw [half_pow]
            omega
        · have := r5 j (by omega)
          rw [half_pow, half_pow, above _ (pos (j + 1) (by omega)) (lower j (by omega))] at this
          exact this
      · intro x hx hne
        rw [r6 x hx (fun j hj => by rw [half_pow]; exact hne (j + 1) (by omega)), sw x hx,
          if_neg (by simpa using hne 1 (by omega)), if_neg (by simpa using hne 0 (by omega))]
    · next hc =>
      refine ⟨0, by simpa using h1, fun j hj => by omega, ?_, by simp, fun j hj => by omega, fun _ _ _ => rfl⟩
      by_cases e : i = 1
      · exact .inl (by simpa using e)
      · right
        simp only [less, decide_eq_true_eq, not_and] at hc
        simpa using hc (by omega)

/-- insert (R148): where the new entry comes to rest and what it displaces. -/
theorem pqInsert_path (e : Entry) (q : Queue) (h : q.hn.toNat < 257) :
    ∃ p, pqInsert e q = some p ∧ ∃ k, rises (q.heap.setIfInBounds q.hn.toNat e) p.heap (q.hn.toNat + 1) k :=
  ⟨_, by rw [pqInsert, if_pos h], siftUp_path (q.hn.toNat + 1) _ (q.hn.toNat + 1) (by omega) (by omega) (Nat.le_refl _)⟩

/-- insert (R148): one entry more, and the entries are the old ones and the new one. -/
theorem pqInsert_entries (e : Entry) (q : Queue) (h : q.hn.toNat < 257) :
    ∃ p, pqInsert e q = some p ∧ p.hn.toNat = q.hn.toNat + 1 ∧
      (heapEntries p.heap p.hn.toNat).Perm (e :: heapEntries q.heap q.hn.toNat) ∧
      (1 ≤ q.hn.toNat → heapWeight q.heap 1 ≤ e.weight.toNat → heapAt p.heap 1 = heapAt q.heap 1) := by
  have hs : (q.hn + 1).toNat = q.hn.toNat + 1 := by
    rw [BitVec.toNat_add]
    simp
    omega
  refine ⟨_, by rw [pqInsert, if_pos h], hs, ?_, ?_⟩
  · simp only [hs]
    refine (siftUp_spec (q.hn.toNat + 1) (by omega) _ _ _ (by omega) (Nat.le_refl _) (Nat.le_refl _)).1.trans ?_
    rw [heapEntries_succ]
    have e1 : heapEntries (q.heap.setIfInBounds (q.hn.toNat + 1 - 1) e) q.hn.toNat = heapEntries q.heap q.hn.toNat := by
      simp only [heapEntries]
      apply List.map_congr_left
      intro k hk
      have hk : k < q.hn.toNat := by simpa using hk
      rw [heapAt_set _ _ _ _ (by omega) (by omega) (by omega), if_neg (by omega)]
    rw [e1, heapAt_set _ _ _ _ (by omega) (by omega) (by omega), if_pos rfl]
    exact List.perm_append_singleton e _
  · intro h1 hw
    have hr : heapAt (q.heap.setIfInBounds (q.hn.toNat + 1 - 1) e) 1 = heapAt q.heap 1 := by
      rw [heapAt_set _ _ _ _ (by omega) (by omega) (by omega), if_neg (by omega)]
    simp only
    rw [siftUp_root _ _ _ (by omega) (by omega) ?_, hr]
    unfold heapWeight at hw ⊢
    rw [hr, heapAt_set _ _ _ _ (by omega) (by omega) (by omega), if_pos rfl]
    exact hw

/-! ### Sift-down -/

/-- The order holds but for the entry at `i`, which may be heavier than its children. -/
def downOk (h : Vector Entry 257) (n i : Nat) : Prop :=
  (∀ k, 2 ≤ k → k ≤ n → k / 2 ≠ i → heapWeight h (k / 2) ≤ heapWeight h k) ∧
  ∀ k, 2 ≤ k → k ≤ n → k / 2 = i → 2 ≤ i → heapWeight h (i / 2) ≤ heapWeight h k

/-- The child a sift-down looks at is a child, and no child is lighter. -/
theorem siftChild_spec (h : Vector Entry 257) (n i : Nat) (hi : 1 ≤ i) (hc : 2 * i ≤ n) :
    siftChild h n i / 2 = i ∧ 2 ≤ siftChild h n i ∧ siftChild h n i ≤ n ∧
    ∀ k, 2 ≤ k → k ≤ n → k / 2 = i → heapWeight h (siftChild h n i) ≤ heapWeight h k := by
  unfold siftChild
  split
  · next hr =>
    obtain ⟨h1, h2⟩ := hr
    rw [less_iff] at h2
    refine ⟨by omega, by omega, h1, fun k hk hkn hki => ?_⟩
    have : k = 2 * i ∨ k = 2 * i + 1 := by omega
    rcases this with rfl | rfl
    · simp only [heapWeight]; omega
    · omega
  · next hr =>
    refine ⟨by omega, by omega, by omega, fun k hk hkn hki => ?_⟩
    have : k = 2 * i ∨ k = 2 * i + 1 := by omega
    rcases this with rfl | rfl
    · omega
    · simp only [not_and, less_iff] at hr
      have := hr hkn
      simp only [heapWeight]
      omega

theorem downOk_swap {h : Vector Entry 257} {n i c : Nat} (hn : n ≤ 257) (hi : 1 ≤ i) (hd : downOk h n i)
    (hci : c / 2 = i) (hc2 : 2 ≤ c) (hcn : c ≤ n)
    (hmin : ∀ k, 2 ≤ k → k ≤ n → k / 2 = i → heapWeight h c ≤ heapWeight h k)
    (hl : heapWeight h c < heapWeight h i) : downOk (heapSwap h c i) n c := by
  obtain ⟨h1, h2⟩ := hd
  have sw := fun k hk => heapWeight_swap h c i k (by omega) (by omega) hi (by omega) hk
  constructor
  · intro k hk hkn hkc
    rw [sw k (by omega), sw (k / 2) (by omega), if_neg hkc]
    by_cases e1 : k / 2 = i
    · rw [if_pos e1]
      have hki : ¬ k = i := by omega
      rw [if_neg hki]
      by_cases e2 : k = c
      · rw [if_pos e2]; omega
      · rw [if_neg e2]; exact hmin k hk hkn e1
    · rw [if_neg e1]
      by_cases e2 : k = i
      · rw [if_pos e2]
        subst e2
        exact h2 c hc2 hcn hci hk
      · rw [if_neg e2]
        have e3 : ¬ k = c := by intro e; subst e; exact e1 hci
        rw [if_neg e3]
        exact h1 k hk hkn e1
  · intro k hk hkn hkc _
    have e1 : ¬ k = i := by omega
    have e2 : ¬ k = c := by omega
    rw [sw k (by omega), sw (c / 2) (by omega), if_pos hci, if_neg e1, if_neg e2, ← hkc]
    exact h1 k hk hkn (by omega)

/-- The sift-down keeps the entries and restores the order. -/
theorem siftDown_spec (n : Nat) (hn : n ≤ 257) :
    ∀ (fuel : Nat) (h : Vector Entry 257) (i : Nat), 1 ≤ i → n < i + fuel →
      (heapEntries (siftDown fuel h n i) n).Perm (heapEntries h n) ∧ (downOk h n i → orderedUpTo (siftDown fuel h n i) n)
  | 0, h, i, h1, h2 => by
    refine ⟨List.Perm.refl _, fun hd k hk hkn => hd.1 k hk hkn (by omega)⟩
  | fuel + 1, h, i, h1, h2 => by
    rw [siftDown]
    split
    · refine ⟨List.Perm.refl _, fun hd k hk hkn => hd.1 k hk hkn (by omega)⟩
    · next hc =>
      obtain ⟨hci, hc2, hcn, hmin⟩ := siftChild_spec h n i h1 (by omega)
      dsimp only
      split
      · next hl =>
        rw [less_iff] at hl
        obtain ⟨p, o⟩ := siftDown_spec n hn fuel (heapSwap h (siftChild h n i) i) (siftChild h n i) (by omega) (by omega)
        exact ⟨p.trans (heapSwap_perm h n _ i (by omega) hcn h1 (by omega) hn),
          fun hd => o (downOk_swap hn h1 hd hci hc2 hcn hmin hl)⟩
      · next hl =>
        rw [less_iff] at hl
        refine ⟨List.Perm.refl _, fun hd k hk hkn => ?_⟩
        by_cases e : k / 2 = i
        · have := hmin k hk hkn e
          rw [e]
          simp only [heapWeight] at this ⊢
          omega
        · exact hd.1 k hk hkn e

theorem siftChild_ge (h : Vector Entry 257) (n i : Nat) : 2 * i ≤ siftChild h n i := by
  unfold siftChild
  split <;> omega

theorem siftPath_ge (h : Vector Entry 257) (n i j : Nat) : i ≤ (siftChild h n)^[j] i := by
  induction j with
  | zero => exact Nat.le_refl _
  | succ j ih =>
    rw [Function.iterate_succ_apply']
    have := siftChild_ge h n ((siftChild h n)^[j] i)
    omega

/-- Two heaps that agree from the first children on have the same way down. -/
theorem siftPath_congr {h g : Vector Entry 257} {i : Nat} (n : Nat) (hg : ∀ x, 2 * i ≤ x → heapAt g x = heapAt h x) (j : Nat) :
    (siftChild g n)^[j] i = (siftChild h n)^[j] i := by
  induction j with
  | zero => rfl
  | succ j ih =>
    rw [Function.iterate_succ_apply', Function.iterate_succ_apply', ih]
    have := siftPath_ge h n i j
    unfold siftChild at *
    rw [hg _ (by omega), hg _ (by omega)]

/-- What the sift-down moves, and how far (R149). -/
theorem siftDown_path (n : Nat) (hn : n ≤ 257) :
    ∀ (fuel : Nat) (h : Vector Entry 257) (i : Nat), 1 ≤ i → n < i + fuel → ∃ k, sinks h (siftDown fuel h n i) n i k
  | 0, h, i, h1, h2 => ⟨0, fun j hj => by omega, .inl (show n < 2 * i by omega), rfl, fun j hj => by omega,
      fun _ _ _ => rfl⟩
  | fuel + 1, h, i, h1, h2 => by
    rw [siftDown]
    split
    · next hc => exact ⟨0, fun j hj => by omega, .inl hc, rfl, fun j hj => by omega, fun _ _ _ => rfl⟩
    · next hc =>
      obtain ⟨_, hc2, hcn, _⟩ := siftChild_spec h n i h1 (by omega)
      have hge := siftChild_ge h n i
      dsimp only
      split
      · next hl =>
        simp only [less, decide_eq_true_eq] at hl
        have sw : ∀ x, 1 ≤ x → _ := fun x hx => heapAt_swap h (siftChild h n i) i x (by omega) (by omega) h1 (by omega) hx
        obtain ⟨k, r1, r2, r3, r4, r5⟩ :=
          siftDown_path n hn fuel (heapSwap h (siftChild h n i) i) (siftChild h n i) (by omega) (by omega)
        have hat : heapAt (heapSwap h (siftChild h n i) i) (siftChild h n i) = heapAt h i := by
          rw [sw _ (by omega), if_neg (by omega), if_pos rfl]
        have below : ∀ x, siftChild h n i < x → heapAt (heapSwap h (siftChild h n i) i) x = heapAt h x := fun x hx => by
          rw [sw x (by omega), if_neg (by omega), if_neg (by omega)]
        have path : ∀ j, (siftChild (heapSwap h (siftChild h n i) i) n)^[j] (siftChild h n i) =
            (siftChild h n)^[j + 1] i := fun j =>
          siftPath_congr n (fun x hx => below x (by omega)) j
        have deeper : ∀ j, siftChild h n i < (siftChild h n)^[j + 1 + 1] i := fun j => by
          have := siftPath_ge h n (siftChild h n i) j
          have := siftChild_ge h n ((siftChild h n)^[j] (siftChild h n i))
          rw [Function.iterate_succ_apply, Function.iterate_succ_apply']
          omega
        simp only [path, hat, below _ (deeper _)] at r1 r2 r3 r4 r5
        refine ⟨k + 1, ?_, r2, r3, ?_, ?_⟩
        · rintro (_ | j) hj
          · exact ⟨by simp; omega, hl⟩
          · exact r1 j (by omega)
        · rintro (_ | j) hj
          · have hi : ∀ j, j ≤ k → i ≠ (siftChild h n)^[j + 1] i := fun j _ => by
              have := siftPath_ge h n (siftChild h n i) j
              rw [Function.iterate_succ_apply]
              omega
            rw [Function.iterate_zero, id, r5 i h1 hi, sw i h1, if_pos rfl]
            rfl
          · exact r4 j (by omega)
        · intro x hx hne
          have e0 : x ≠ i := hne 0 (by omega)
          have e1 : x ≠ siftChild h n i := hne 1 (by omega)
          rw [r5 x hx (fun j hj => hne (j + 1) (by omega)), sw x hx, if_neg e0, if_neg e1]
      · next hl =>
        simp only [less, decide_eq_true_eq] at hl
        exact ⟨0, fun j hj => by omega, .inr hl, rfl, fun j hj => by omega, fun _ _ _ => rfl⟩
/-- removeMin (R149): where the last entry comes to rest and what it displaces. -/
theorem removeMin_path (q : Queue) (h1 : 1 ≤ q.hn.toNat) (h2 : q.hn.toNat ≤ 257) :
    ∃ p, removeMin q = some (heapAt q.heap 1, p) ∧
      ∃ k, sinks (q.heap.setIfInBounds 0 (heapAt q.heap q.hn.toNat)) p.heap (q.hn.toNat - 1) 1 k :=
  ⟨_, by rw [removeMin, if_pos ⟨h1, h2⟩], siftDown_path (q.hn.toNat - 1) (by omega) q.hn.toNat _ 1 (by omega) (by omega)⟩

/-- removeMin (R149): the root is returned, and the entries are it and the ones that stay. -/
theorem removeMin_entries (q : Queue) (h1 : 1 ≤ q.hn.toNat) (h2 : q.hn.toNat ≤ 257) :
    ∃ p, removeMin q = some (heapAt q.heap 1, p) ∧ p.hn.toNat = q.hn.toNat - 1 ∧
      (heapAt q.heap 1 :: heapEntries p.heap p.hn.toNat).Perm (heapEntries q.heap q.hn.toNat) := by
  have hs : (q.hn - 1).toNat = q.hn.toNat - 1 := by
    rw [BitVec.toNat_sub]
    simp
    omega
  refine ⟨_, by rw [removeMin, if_pos ⟨h1, h2⟩], hs, ?_⟩
  simp only [hs]
  obtain ⟨m, hm⟩ : ∃ m, q.hn.toNat = m + 1 := ⟨q.hn.toNat - 1, by omega⟩
  rw [hm]
  simp only [Nat.add_sub_cancel]
  have p := (siftDown_spec m (by omega) (m + 1) (q.heap.setIfInBounds 0 (heapAt q.heap (m + 1))) 1 (by omega) (by omega)).1
  refine (List.Perm.cons _ p).trans ?_
  have hset : ∀ k, 1 ≤ k → heapAt (q.heap.setIfInBounds 0 (heapAt q.heap (m + 1))) k =
      if k = 1 then heapAt q.heap (m + 1) else heapAt q.heap k :=
    fun k hk => heapAt_set q.heap 1 k _ (by omega) (by omega) hk
  rw [heapEntries_succ]
  cases m with
  | zero => simp [heapEntries]
  | succ m =>
    have e : ∀ h : Vector Entry 257, heapEntries h (m + 1) = heapAt h 1 :: (List.range m).map fun i => heapAt h (i + 2) := by
      intro h
      simp [heapEntries, List.range_succ_eq_map, Function.comp_def]
    rw [e, e, hset 1 (by omega), if_pos rfl]
    have ht : (List.range m).map (fun i => heapAt (q.heap.setIfInBounds 0 (heapAt q.heap (m + 1 + 1))) (i + 2)) =
        (List.range m).map fun i => heapAt q.heap (i + 2) := by
      apply List.map_congr_left
      intro i _
      rw [hset (i + 2) (by omega), if_neg (by omega)]
    rw [ht, List.cons_append]
    exact List.Perm.cons _ (List.perm_append_singleton _ _).symm

end Sys2Proof.Machine
end

