-- ==== Sys2Proof/Laws/Builder.lean ====
section
/-!
SUPPORT. From counts to the pair stack (43_tree_builder.md R160 to R166): what loading, one merge and the merge loop do
to the queue's entries and the stack's, and why the stack always assembles (R172).
-/

namespace Sys2Proof.Machine

/-- The entries on the pair stack, bottom first. -/
def stackEntries (k : Stack) : List Entry := k.ps.toList.take k.psn.toNat

/-- push (10_state.md R43). -/
theorem push_spec (e : Entry) (k : Stack) (h : k.psn.toNat < 513) :
    ∃ k', push e k = some k' ∧ k'.psn.toNat = k.psn.toNat + 1 ∧ stackEntries k' = stackEntries k ++ [e] ∧
      k' = { ps := k.ps.setIfInBounds k.psn.toNat e, psn := k.psn + 1 } := by
  have hs : (k.psn + 1).toNat = k.psn.toNat + 1 := by
    rw [BitVec.toNat_add]
    simp
    omega
  refine ⟨_, by rw [push, if_pos h], hs, ?_, rfl⟩
  simp only [stackEntries, hs, List.take_add_one]
  congr 1
  · apply List.ext_getElem?
    intro i
    rw [List.getElem?_take, List.getElem?_take]
    split
    · next hi => simp [Vector.toList_setIfInBounds, show ¬ k.psn.toNat = i by omega]
    · rfl
  · simp [Vector.toList_setIfInBounds, h]

theorem stackEntries_length (k : Stack) (h : k.psn.toNat ≤ 513) : (stackEntries k).length = k.psn.toNat := by
  simp [stackEntries, h]

/-- pop (10_state.md R43). -/
theorem pop_spec (k : Stack) (n : Nat) (h : k.psn.toNat = n + 1) (hn : n < 513) :
    ∃ e k', pop k = some (e, k') ∧ k' = { k with psn := k.psn - 1 } ∧ k'.psn.toNat = n ∧
      stackEntries k = stackEntries k' ++ [e] := by
  have h1 : (k.psn - 1).toNat = n := by
    rw [BitVec.toNat_sub_of_le (by rw [BitVec.le_def]; simp; omega)]
    simp
    omega
  have h0 : k.psn ≠ 0 := fun e => by rw [e] at h; simp at h
  have hk : k.ps[(k.psn - 1).toNat]? = some k.ps[n] := by rw [h1]; simp [hn]
  refine ⟨k.ps[n], { k with psn := k.psn - 1 }, by rw [pop, if_neg h0, hk]; rfl, rfl, h1, ?_⟩
  simp only [stackEntries, h, h1, List.take_add_one]
  simp [hn]

/-- Popped until it is exhausted, a stack gives its entries from the top down and is empty. -/
theorem popEntries_spec : ∀ (n : Nat) (k : Stack), k.psn.toNat = n → n ≤ 513 →
    popEntries n k = ((stackEntries k).reverse, { k with psn := 0 })
  | 0, k, h, _ => by
    obtain ⟨ps, psn⟩ := k
    obtain rfl : psn = 0 := by rw [BitVec.toNat_eq]; simpa using h
    simp [popEntries, stackEntries]
  | n + 1, k, h, hn => by
    obtain ⟨e, k', h1, h2, h3, h4⟩ := pop_spec k n h (by omega)
    rw [popEntries, h1]
    simp only [popEntries_spec n k' h3 (by omega), h4]
    rw [h2]
    simp

/-- The construction sequence is the stack read from the top down (R166). -/
theorem constructionOrder_eq (k : Stack) (h : k.psn.toNat ≤ 513) :
    constructionOrder k = ((stackEntries k).map Entry.sym).reverse := by
  simp [constructionOrder, popEntries_spec _ k rfl h]

/-- The construction consumes the stack (10_state.md R43). -/
theorem consumed_eq (k : Stack) (h : k.psn.toNat ≤ 513) : consumed k = { k with psn := 0 } := by
  simp [consumed, popEntries_spec _ k rfl h]

/-- How many entries have no symbol. -/
def bareEntries (l : List Entry) : Nat := l.countP fun e => e.sym.isNone

theorem bareEntries_append (l m : List Entry) : bareEntries (l ++ m) = bareEntries l + bareEntries m := by
  simp [bareEntries]

theorem bareEntries_perm {l m : List Entry} (h : l.Perm m) : bareEntries l = bareEntries m := h.countP_eq _

/-! ### Loading (R161) -/

/-- How many of the counts from index `s` on, `k` of them, are not 0. -/
def presentFrom (freq : Vector Word 257) (s k : Nat) : Nat :=
  ((List.range k).filter fun i => freq[s + i]?.getD 0 ≠ 0).length

theorem presentFrom_succ (freq : Vector Word 257) (s k : Nat) :
    presentFrom freq s (k + 1) = (if freq[s]?.getD 0 = 0 then 0 else 1) + presentFrom freq (s + 1) k := by
  unfold presentFrom
  rw [List.range_succ_eq_map, List.filter_cons, List.filter_map]
  have e : ((fun i => decide (freq[s + i]?.getD 0 ≠ 0)) ∘ Nat.succ) =
      fun i => decide (freq[s + 1 + i]?.getD 0 ≠ 0) := by
    funext i
    simp only [Function.comp, Nat.succ_eq_add_one]
    rw [show s + (i + 1) = s + 1 + i by omega]
  rw [e]
  by_cases h : freq[s]?.getD 0 = 0
  · have h0 : freq[s + 0]?.getD 0 = 0 := h
    rw [if_neg (by rw [h0]; decide), if_pos h, List.length_map, Nat.zero_add]
  · have h0 : decide (freq[s + 0]?.getD 0 ≠ 0) = true := decide_eq_true h
    rw [if_pos h0, if_neg h, List.length_cons, List.length_map, Nat.add_comm]

theorem presentFrom_le (freq : Vector Word 257) (s k : Nat) : presentFrom freq s k ≤ k := by
  unfold presentFrom
  exact (List.length_filter_le _ _).trans (by simp)

theorem counted_eq (freq : Vector Word 257) :
    freq.toList.take 256 = (List.range 256).map fun i => freq[0 + i]?.getD 0 := by
  apply List.ext_getElem
  · simp
  · intro i h1 h2
    have hi : i < 257 := by simp at h1; omega
    simp [hi]

/-- The byte values that have been counted. -/
theorem presentFrom_all (freq : Vector Word 257) :
    presentFrom freq 0 256 = ((freq.toList.take 256).filter (· ≠ 0)).length := by
  unfold presentFrom
  rw [← List.countP_eq_length_filter, ← List.countP_eq_length_filter, counted_eq, List.countP_map]
  apply List.countP_congr
  intro i _
  simp

/-- The entries that queue loading makes of the byte values from `s` on, `k` of them (R161). -/
def leafEntries (freq : Vector Word 257) (s k : Nat) : List Entry :=
  ((List.range k).filter fun i => freq[s + i]?.getD 0 ≠ 0).map fun i =>
    { weight := freq[s + i]?.getD 0, sym := some (BitVec.ofNat 9 (s + i)) }

theorem leafEntries_succ (freq : Vector Word 257) (s k : Nat) :
    leafEntries freq s (k + 1) =
      (if freq[s]?.getD 0 = 0 then [] else [{ weight := freq[s]?.getD 0, sym := some (BitVec.ofNat 9 s) }]) ++
        leafEntries freq (s + 1) k := by
  have shift : ∀ i, s + 1 + i = s + (i + 1) := fun i => by omega
  unfold leafEntries
  rw [List.range_succ_eq_map, List.filter_cons, List.filter_map]
  by_cases h : freq[s]?.getD 0#32 = 0#32 <;> simp [h, Function.comp_def, shift]

theorem leafEntries_length (freq : Vector Word 257) (s k : Nat) :
    (leafEntries freq s k).length = presentFrom freq s k := by simp [leafEntries, presentFrom]

/-- A loaded entry has a byte's symbol. -/
theorem leafEntries_sym {freq : Vector Word 257} {s k : Nat} (h : s + k ≤ 256) {e : Entry} (he : e ∈ leafEntries freq s k) :
    ∃ x : Sym, e.sym = some x ∧ x.toNat < 256 := by
  obtain ⟨i, hi, rfl⟩ := List.mem_map.1 he
  have := List.mem_range.1 (List.mem_filter.1 hi).1
  exact ⟨_, rfl, by simp; omega⟩

/-- What the queue holds while it is loaded: the sentinel's entry, at the root, and those of `l`. -/
structure Loaded (q : Queue) (l : List Entry) : Prop where
  size : q.hn.toNat = l.length + 1
  root : heapAt q.heap 1 = { weight := 1, sym := some Config.sent }
  perm : (heapEntries q.heap q.hn.toNat).Perm ({ weight := 1, sym := some Config.sent } :: l)

theorem loadFrom_spec (freq : Vector Word 257) :
    ∀ (k s : Nat) (l : List Entry) (q : Queue), Loaded q l → l.length + k < 257 →
      ∃ p, loadFrom freq k s q = some p ∧ Loaded p (l ++ leafEntries freq s k)
  | 0, s, l, q, h, _ => ⟨q, rfl, by simpa [leafEntries] using h⟩
  | k + 1, s, l, q, h, hn => by
    rw [loadFrom, leafEntries_succ]
    by_cases hw : freq[s]?.getD 0 = 0
    · rw [if_pos hw, if_pos hw, List.nil_append]
      exact loadFrom_spec freq k (s + 1) l q h (by omega)
    · rw [if_neg hw, if_neg hw]
      have hsz := h.size
      obtain ⟨p, h1, h2, h3, h4⟩ :=
        pqInsert_entries { weight := freq[s]?.getD 0, sym := some (BitVec.ofNat 9 s) } q (by omega)
      rw [h1]
      have hwt : heapWeight q.heap 1 ≤ (freq[s]?.getD 0).toNat := by
        have h0 : (freq[s]?.getD 0).toNat ≠ 0 := fun e => hw (by rw [BitVec.toNat_eq]; simpa using e)
        have h1 : heapWeight q.heap 1 = 1 := by unfold heapWeight; rw [h.root]; rfl
        omega
      have ld : Loaded p (l ++ [{ weight := freq[s]?.getD 0, sym := some (BitVec.ofNat 9 s) }]) :=
        ⟨by simp; omega, (h4 (by omega) hwt).trans h.root,
          h3.trans ((List.Perm.cons _ h.perm).trans (List.perm_append_singleton _ _).symm)⟩
      obtain ⟨r, e1, e2⟩ := loadFrom_spec freq k (s + 1) _ p ld (by simp; omega)
      exact ⟨r, e1, by rw [← List.append_assoc]; exact e2⟩

/-- Queue loading never fails (R161). -/
theorem loadQueue_spec (freq : Vector Word 257) (q : Queue) :
    ∃ p, loadQueue freq q = some p ∧ Loaded p (leafEntries freq 0 256) := by
  obtain ⟨p, h1, h2, h3, _⟩ := pqInsert_entries { weight := 1, sym := some Config.sent } (pqClear q) (by simp [pqClear])
  rw [loadQueue, h1]
  have hz : (pqClear q).hn.toNat = 0 := rfl
  rw [hz] at h2 h3
  have e0 : heapEntries (pqClear q).heap 0 = [] := rfl
  rw [e0] at h3
  have hroot : heapAt p.heap 1 = { weight := 1, sym := some Config.sent } := by
    have e1 := List.perm_singleton.1 h3
    rw [h2] at e1
    simpa [heapEntries] using e1
  exact loadFrom_spec freq 256 0 [] p ⟨h2, hroot, h3⟩ (by simp)

/-! ### Merging (R162) -/

/-- One round: two entries go from the queue to the stack, and one without a symbol comes in. -/
theorem mergeOnce_spec (q : Queue) (k : Stack) (h1 : 2 ≤ q.hn.toNat) (h2 : q.hn.toNat ≤ 257)
    (hk : k.psn.toNat + 2 ≤ 513) :
    ∃ p m left right rest, mergeOnce q k = .ok p m ∧ p.hn.toNat = q.hn.toNat - 1 ∧ m.psn.toNat = k.psn.toNat + 2 ∧
      stackEntries m = stackEntries k ++ [left, right] ∧ left = heapAt q.heap 1 ∧
      (left :: right :: rest).Perm (heapEntries q.heap q.hn.toNat) ∧
      (heapEntries p.heap p.hn.toNat).Perm ({ weight := left.weight + right.weight, sym := none } :: rest) := by
  obtain ⟨q1, a1, a2, a3⟩ := removeMin_entries q (by omega) h2
  obtain ⟨q2, b1, b2, b3⟩ := removeMin_entries q1 (by omega) (by omega)
  obtain ⟨k1, c1, c2, c3, _⟩ := push_spec (heapAt q.heap 1) k (by omega)
  obtain ⟨k2, d1, d2, d3, _⟩ := push_spec (heapAt q1.heap 1) k1 (by omega)
  obtain ⟨q3, e1, e2, e3, _⟩ := pqInsert_entries
    { weight := (heapAt q.heap 1).weight + (heapAt q1.heap 1).weight, sym := none } q2 (by omega)
  refine ⟨q3, k2, heapAt q.heap 1, heapAt q1.heap 1, heapEntries q2.heap q2.hn.toNat, ?_, by omega, by omega, ?_, rfl,
    (List.Perm.cons _ b3).trans a3, e3⟩
  · simp only [mergeOnce, a1, b1, c1, d1, e1]
  · rw [d3, c3, List.append_assoc]
    rfl

/-- What the merges of the pairs on a stack put into the queue (R162): of each of the first `j` pairs, bottom first, an
entry without a symbol and with the pair's weights added. -/
def pairSums (l : List Entry) (j : Nat) : List Entry :=
  (List.range j).map fun i =>
    { weight := (l[2 * i]?.getD default).weight + (l[2 * i + 1]?.getD default).weight, sym := none }

theorem pairSums_prefix (l m : List Entry) (j : Nat) (h : 2 * j ≤ l.length) : pairSums (l ++ m) j = pairSums l j := by
  unfold pairSums
  apply List.map_congr_left
  intro i hi
  have hi : i < j := by simpa using hi
  rw [List.getElem?_append_left (by omega), List.getElem?_append_left (by omega)]

theorem pairSums_append (l : List Entry) (j : Nat) (a b : Entry) (h : l.length = 2 * j) :
    pairSums (l ++ [a, b]) (j + 1) = pairSums l j ++ [{ weight := a.weight + b.weight, sym := none }] := by
  rw [← pairSums_prefix l [a, b] j (by omega)]
  simp [pairSums, List.range_succ, ← h]

/-- The weights of some entries, added up as the queue's adder does. -/
def totalWeight (l : List Entry) : Nat := (l.map fun e => e.weight.toNat).sum % 2 ^ 32

theorem totalWeight_perm {l m : List Entry} (h : l.Perm m) : totalWeight l = totalWeight m := by
  unfold totalWeight
  rw [(h.map _).sum_eq]

/-- A merge keeps the total (R163). -/
theorem totalWeight_merge (a b : Entry) (l : List Entry) :
    totalWeight ({ weight := a.weight + b.weight, sym := none } :: l) = totalWeight (a :: b :: l) := by
  simp [totalWeight, BitVec.toNat_add]
  omega

/-- The merge loop after `j` rounds, begun with the sentinel's entry and those of `l`: two stack entries for each round,
the bare ones among them and in the queue being the rounds' results; no weight is lost. -/
structure Merging (q : Queue) (k : Stack) (l : List Entry) (j : Nat) : Prop where
  size : q.hn.toNat + j = l.length + 1
  one : 1 ≤ q.hn.toNat
  stack : k.psn.toNat = 2 * j
  bares : bareEntries (stackEntries k) + bareEntries (heapEntries q.heap q.hn.toNat) = j
  pairs : ∀ i, 1 ≤ i → i ≤ j → bareEntries ((stackEntries k).take (2 * i)) + 1 ≤ i
  last : 1 ≤ j → ∃ w l, (heapEntries q.heap q.hn.toNat).Perm ({ weight := w, sym := none } :: l)
  bottom : 1 ≤ j → k.ps[0]? = some { weight := 1, sym := some Config.sent }
  syms : ((stackEntries k ++ heapEntries q.heap q.hn.toNat).filter fun e => e.sym.isSome).Perm
    ({ weight := 1, sym := some Config.sent } :: l)
  sums : ((stackEntries k ++ heapEntries q.heap q.hn.toNat).filter fun e => e.sym.isNone).Perm
    (pairSums (stackEntries k) j)
  total : totalWeight (heapEntries q.heap q.hn.toNat) = totalWeight ({ weight := 1, sym := some Config.sent } :: l)

theorem mergeLoop_spec (l : List Entry) (hn : l.length < 257) :
    ∀ (fuel : Nat) (q : Queue) (k : Stack) (j : Nat), Merging q k l j → q.hn.toNat ≤ fuel + 1 →
      (j = 0 → heapAt q.heap 1 = { weight := 1, sym := some Config.sent }) →
      ∃ p m, mergeLoop fuel q k = .ok p m ∧ Merging p m l l.length
  | 0, q, k, j, h, hf, _ => by
    have h1 := h.size
    have h2 := h.one
    obtain rfl : j = l.length := by omega
    exact ⟨q, k, rfl, h⟩
  | fuel + 1, q, k, j, h, hf, hroot => by
    have h1 := h.size
    have h2 := h.one
    have h3 := h.stack
    rw [mergeLoop]
    unfold pqSize
    split
    · next hc =>
      obtain ⟨p, m, left, right, rest, a1, a2, a3, a4, a5, a6, a7⟩ := mergeOnce_spec q k (by omega) (by omega) (by omega)
      rw [a1]
      have hb : bareEntries [left, right] + bareEntries rest = bareEntries (heapEntries q.heap q.hn.toNat) := by
        rw [← bareEntries_perm a6, ← bareEntries_append]
        rfl
      have hnew : bareEntries (heapEntries p.heap p.hn.toNat) = bareEntries rest + 1 := by
        rw [bareEntries_perm a7]
        simp [bareEntries]
      have hold := h.bares
      have hkl : (stackEntries k).length = 2 * j := by rw [stackEntries_length k (by omega)]; omega
      -- the entries in all are the ones before and the merge's result
      have e1 : (stackEntries m ++ heapEntries p.heap p.hn.toNat).Perm
          ({ weight := left.weight + right.weight, sym := none } ::
            (stackEntries k ++ heapEntries q.heap q.hn.toNat)) := by
        rw [a4]
        refine (List.Perm.append_left _ a7).trans ?_
        refine (List.perm_middle).trans (List.Perm.cons _ ?_)
        rw [List.append_assoc]
        exact List.Perm.append_left _ a6
      have m' : Merging p m l (j + 1) := by
        refine ⟨by omega, by omega, by omega, ?_, ?_, fun _ => ⟨_, rest, a7⟩, fun _ => ?_, ?_, ?_, ?_⟩
        · rw [a4, bareEntries_append, hnew]
          omega
        · intro i hi hij
          by_cases e : i = j + 1
          · subst e
            have hl : (stackEntries m).length = 2 * (j + 1) := by rw [stackEntries_length m (by omega)]; omega
            rw [List.take_of_length_le (by omega), a4, bareEntries_append]
            omega
          · have hl : (stackEntries k).length = 2 * j := by rw [stackEntries_length k (by omega)]; omega
            rw [a4, List.take_append_of_le_length (by omega)]
            exact h.pairs i hi (by omega)
        · have hl : (stackEntries m)[0]? = m.ps[0]? := by
            simp only [stackEntries, List.getElem?_take]
            rw [if_pos (by omega)]
            simp
          rw [← hl, a4]
          by_cases e : j = 0
          · have hz : stackEntries k = [] := by
              apply List.eq_nil_of_length_eq_zero
              rw [stackEntries_length k (by omega)]
              omega
            rw [hz, a5, hroot e]
            rfl
          · have hl2 : (stackEntries k)[0]? = k.ps[0]? := by
              simp only [stackEntries, List.getElem?_take]
              rw [if_pos (by omega)]
              simp
            rw [List.getElem?_append_left (by rw [stackEntries_length k (by omega)]; omega), hl2]
            exact h.bottom (by omega)
        · refine (e1.filter _).trans ?_
          simpa using h.syms
        · refine (e1.filter _).trans ?_
          rw [a4, pairSums_append _ _ _ _ hkl]
          simpa using (List.Perm.cons _ h.sums).trans (List.perm_append_singleton _ _).symm
        · rw [totalWeight_perm a7, totalWeight_merge, totalWeight_perm a6]
          exact h.total
      exact mergeLoop_spec l hn fuel p m (j + 1) m' (by omega) (fun e => by omega)
    · next hc =>
      obtain rfl : j = l.length := by omega
      exact ⟨q, k, rfl, h⟩

/-! ### The whole build (R160, R164, R165) -/

/-- What a build leaves: `L` leaves' worth of stack, with the sentinel's entry at the bottom. -/
structure BuiltStack (k : Stack) (L : Nat) : Prop where
  size : k.psn.toNat = 2 * L - 1
  two : 2 ≤ L
  le : L ≤ 257
  bottom : k.ps[0]? = some { weight := 1, sym := some Config.sent }
  top : ∃ w, (stackEntries k)[2 * L - 2]? = some { weight := w, sym := none }
  bares : bareEntries (stackEntries k) = L - 1
  pairs : ∀ i, 1 ≤ i → i ≤ L - 1 → bareEntries ((stackEntries k).take (2 * i)) + 1 ≤ i
  syms : ∃ l, ((stackEntries k).filter fun e => e.sym.isSome).Perm ({ weight := 1, sym := some Config.sent } :: l) ∧
    ∀ e ∈ l, ∃ s : Sym, e.sym = some s ∧ s.toNat < 256

/-- What the stack of a build holds: the leaves' entries, the merges' results (R162, R165) and the total (R163). -/
structure BuiltFrom (freq : Vector Word 257) (k : Stack) : Prop where
  leaves : ((stackEntries k).filter fun e => e.sym.isSome).Perm
    ({ weight := 1, sym := some Config.sent } :: leafEntries freq 0 256)
  sums : ((stackEntries k).filter fun e => e.sym.isNone).Perm (pairSums (stackEntries k) (presentFrom freq 0 256))
  top : ∃ w : Word, (stackEntries k)[2 * presentFrom freq 0 256]? = some { weight := w, sym := none } ∧
    w.toNat = (byteCount freq + 1) % 2 ^ 32

theorem totalWeight_loaded (freq : Vector Word 257) :
    totalWeight ({ weight := 1, sym := some Config.sent } :: leafEntries freq 0 256) = (byteCount freq + 1) % 2 ^ 32 := by
  have h : ∀ k s, ((leafEntries freq s k).map fun e => e.weight.toNat).sum =
      ((List.range k).map fun i => (freq[s + i]?.getD 0).toNat).sum := by
    intro k
    induction k with
    | zero => intro s; rfl
    | succ k ih =>
      intro s
      have shift : ∀ i, s + 1 + i = s + (i + 1) := fun i => by omega
      rw [leafEntries_succ, List.map_append, List.sum_append, ih, List.range_succ_eq_map]
      by_cases h : freq[s]?.getD 0#32 = 0#32 <;> simp [h, Function.comp_def, shift]
  have hb : byteCount freq = ((List.range 256).map fun i => (freq[0 + i]?.getD 0).toNat).sum := by
    rw [byteCount, counted_eq, List.map_map]
    rfl
  rw [totalWeight, List.map_cons, List.sum_cons, h, ← hb]
  simp [Nat.add_comm]

theorem buildStack_spec (freq : Vector Word 257) (q : Queue) (k : Stack) (hp : 1 ≤ presentFrom freq 0 256) :
    ∃ p m, buildStack freq q k = .ok p m ∧ p.hn = 0 ∧ BuiltStack m (1 + presentFrom freq 0 256) ∧ BuiltFrom freq m := by
  have hle := presentFrom_le freq 0 256
  have hll := leafEntries_length freq 0 256
  obtain ⟨q1, a1, a2⟩ := loadQueue_spec freq q
  have hsz := a2.size
  have e0 : stackEntries { k with psn := 0 } = [] := by simp [stackEntries]
  have hfull : ∀ e ∈ heapEntries q1.heap q1.hn.toNat, e.sym.isSome = true := by
    intro e he
    rcases List.mem_cons.1 (a2.perm.mem_iff.1 he) with rfl | he
    · rfl
    · obtain ⟨x, hx, _⟩ := leafEntries_sym (by omega) he
      rw [hx]
      rfl
  have hbare : ∀ e ∈ heapEntries q1.heap q1.hn.toNat, ¬ e.sym.isNone = true := fun e he => by
    simpa [← Option.isSome_iff_ne_none] using hfull e he
  have hb0 : bareEntries (heapEntries q1.heap q1.hn.toNat) = 0 := List.countP_eq_zero.2 hbare
  have start : Merging q1 { k with psn := 0 } (leafEntries freq 0 256) 0 := by
    refine ⟨by omega, by omega, rfl, ?_, fun i h1 h2 => by omega, fun h => by omega, fun h => by omega, ?_, ?_,
      totalWeight_perm a2.perm⟩
    · rw [e0, hb0]; rfl
    · rw [e0, List.nil_append, List.filter_eq_self.2 hfull]
      exact a2.perm
    · rw [e0, List.nil_append, List.filter_eq_nil_iff.2 hbare]
      exact List.Perm.refl _
  obtain ⟨q2, k2, b1, b2⟩ := mergeLoop_spec (leafEntries freq 0 256) (by omega) (pqSize q1) q1 { k with psn := 0 } 0
    start (by unfold pqSize; omega) (fun _ => a2.root)
  have s1 := b2.size
  have s2 := b2.stack
  have s3 := b2.one
  have hn2 : q2.hn.toNat = 1 := by omega
  obtain ⟨q3, c1, c2, c3⟩ := removeMin_entries q2 (by omega) (by omega)
  obtain ⟨k3, d1, d2, d3, _⟩ := push_spec (heapAt q2.heap 1) k2 (by omega)
  have hq3 : q3.hn = 0 := by
    rw [BitVec.toNat_eq]
    simp
    omega
  -- the last entry is a merge's result
  have e2 : heapEntries q2.heap q2.hn.toNat = [heapAt q2.heap 1] := by rw [hn2]; rfl
  obtain ⟨w, l, hl⟩ := b2.last (by omega)
  rw [e2] at hl
  have hlast : heapAt q2.heap 1 = { weight := w, sym := none } := by
    have hlen := hl.length_eq
    have : l = [] := by
      apply List.eq_nil_of_length_eq_zero
      simpa using hlen.symm
    subst this
    simpa using List.singleton_perm_singleton.1 hl
  have hk2 : (stackEntries k2).length = 2 * presentFrom freq 0 256 := by
    rw [stackEntries_length k2 (by omega)]; omega
  have htop : (stackEntries k3)[2 * presentFrom freq 0 256]? = some { weight := w, sym := none } := by
    rw [d3, List.getElem?_append_right (by omega), hk2, Nat.sub_self, hlast]
    rfl
  have hsyms := b2.syms
  have hsums := b2.sums
  rw [e2, ← d3] at hsyms hsums
  refine ⟨q3, k3, ?_, hq3, ⟨by omega, by omega, by omega, ?_, ⟨w, ?_⟩, ?_, ?_, ⟨_, hsyms, fun e he =>
    leafEntries_sym (by omega) he⟩⟩, ⟨hsyms, ?_, w, htop, ?_⟩⟩
  · simp only [buildStack, a1, b1, pushLast, c1, d1]
  · have hz : ∀ k : Stack, 1 ≤ k.psn.toNat → (stackEntries k)[0]? = k.ps[0]? := by
      intro k h
      simp only [stackEntries, List.getElem?_take]
      rw [if_pos (by omega)]
      simp
    rw [← hz k3 (by omega), d3, List.getElem?_append_left (by omega), hz k2 (by omega)]
    exact b2.bottom (by omega)
  · rw [show 2 * (1 + presentFrom freq 0 256) - 2 = 2 * presentFrom freq 0 256 by omega]
    exact htop
  · have h := b2.bares
    rw [e2] at h
    rw [d3, bareEntries_append]
    omega
  · intro i h1 h2
    rw [d3, List.take_append_of_le_length (by omega)]
    exact b2.pairs i h1 (by omega)
  · rw [d3, pairSums_prefix _ _ _ (by omega), ← d3, ← hll]
    exact hsums
  · have h := b2.total
    rw [e2, hlast, totalWeight_loaded] at h
    simpa [totalWeight, Nat.mod_eq_of_lt w.isLt] using h

/-- The construction sequence of a built stack assembles (R172). -/
theorem BuiltStack.assembles {k : Stack} {L : Nat} (b : BuiltStack k L) (t : Tree) :
    (assemble (constructionOrder k) t).1 = true := by
  have h1 := b.size
  have h2 := b.two
  have h3 := b.le
  have hlen : (stackEntries k).length = 2 * L - 1 := by rw [stackEntries_length k (by omega)]; exact h1
  have hq : constructionOrder k = ((stackEntries k).map Entry.sym).reverse := constructionOrder_eq k (by omega)
  have hql : (constructionOrder k).length = 2 * L - 1 := by rw [hq]; simp [hlen]
  have hph : ∀ l : List Entry, placeholders ((l.map Entry.sym).reverse) = bareEntries l := by
    intro l
    unfold placeholders bareEntries
    rw [List.countP_reverse, List.countP_map]
    rfl
  have htotal : placeholders (constructionOrder k) = L - 1 := by rw [hq, hph, b.bares]
  refine assemble_succeeds t (by omega) (by omega) (by omega) ?_ (by omega)
  intro i hi
  -- the first 2i + 1 entries from the top are what the lower ones leave
  have htake : placeholders ((constructionOrder k).take (2 * i + 1)) +
      bareEntries ((stackEntries k).take (2 * (L - 1 - i))) = L - 1 := by
    have e1 : (constructionOrder k).take (2 * i + 1) =
        (((stackEntries k).drop (2 * (L - 1 - i))).map Entry.sym).reverse := by
      rw [hq, List.take_reverse, List.map_drop]
      congr 2
      simp [hlen]
      omega
    have e2 := bareEntries_append ((stackEntries k).take (2 * (L - 1 - i))) ((stackEntries k).drop (2 * (L - 1 - i)))
    rw [List.take_append_drop, b.bares] at e2
    rw [e1, hph]
    omega
  have := b.pairs (L - 1 - i) (by omega) (by omega)
  omega

end Sys2Proof.Machine
end

