-- ==== Sys2Proof/Laws/Codes.lean ====
section
/-!
SUPPORT. Code derivation (44_code_table.md R181, R182): the path buffer as a list of bits, what a visit records, that a
visit of a finished tree ends, and that it gives a code to every leaf below the node visited.
-/

namespace Sys2Proof.Machine

/-- The bits of the path buffer, first one first. -/
def pathBits (c : Codes) : List Bool := (List.range c.pathLen.toNat).map c.path.getMsbD

theorem setPathBit_get (p : BitVec 256) (n j : Nat) (b : Bool) (hn : n < 256) :
    (setPathBit p (255 - n) b).getMsbD j = if j = n then b else p.getMsbD j := by
  by_cases hj : j < 256
  · have h1 : (1#256 <<< (255 - n)).getMsbD j = decide (j = n) := by
      rw [BitVec.getMsbD_shiftLeft, BitVec.getMsbD_one]
      by_cases e : j = n
      · subst e
        have : j + (255 - j) = 255 := by omega
        simp [this]
      · have : ¬ j + (255 - n) = 255 := by omega
        simp [this, e]
    unfold setPathBit
    split
    · next hb =>
      subst hb
      rw [BitVec.getMsbD_or, h1]
      by_cases e : j = n <;> simp [e]
    · next hb =>
      have hb : b = false := by simpa using hb
      subst hb
      rw [BitVec.getMsbD_and, BitVec.getMsbD_not, h1]
      by_cases e : j = n <;> simp [e, hj]
  · have e : ¬ j = n := by omega
    rw [if_neg e, BitVec.getMsbD_of_ge _ _ (by omega), BitVec.getMsbD_of_ge _ _ (by omega)]

theorem keepTop_get (p : BitVec 256) (n j : Nat) (hn : n ≤ 256) :
    (keepTop p n).getMsbD j = (decide (j < n) && p.getMsbD j) := by
  unfold keepTop
  by_cases hj : j < 256
  · rw [BitVec.getMsbD_and, BitVec.getMsbD_shiftLeft, BitVec.getMsbD_allOnes]
    have : j + (256 - n) < 256 ↔ j < n := by omega
    simp only [this]
    cases decide (j < n) <;> cases p.getMsbD j <;> rfl
  · rw [BitVec.getMsbD_of_ge _ _ (by omega), BitVec.getMsbD_of_ge _ _ (by omega)]
    simp

/-- The path appended to (R181). -/
theorem pathPush_spec (b : Bool) (c : Codes) (h : c.pathLen.toNat < 256) :
    ∃ d, pathPush b c = some d ∧ d.pathLen.toNat = c.pathLen.toNat + 1 ∧ pathBits d = pathBits c ++ [b] ∧
      d.len = c.len ∧ d.bits = c.bits ∧ ∀ j, j < c.pathLen.toNat → d.path.getMsbD j = c.path.getMsbD j := by
  have hs : (c.pathLen + 1).toNat = c.pathLen.toNat + 1 := by
    rw [BitVec.toNat_add]
    simp
    omega
  refine ⟨{ c with path := setPathBit c.path (255 - c.pathLen.toNat) b, pathLen := c.pathLen + 1 },
    by rw [pathPush, if_pos h], hs, ?_, rfl, rfl, ?_⟩
  · simp only [pathBits, hs, List.range_succ, List.map_append, List.map_cons, List.map_nil]
    congr 1
    · apply List.map_congr_left
      intro j hj
      have hj : j < c.pathLen.toNat := by simpa using hj
      rw [setPathBit_get _ _ _ _ h, if_neg (by omega)]
    · rw [setPathBit_get _ _ _ _ h, if_pos rfl]
  · intro j hj
    simp only
    rw [setPathBit_get _ _ _ _ h, if_neg (by omega)]

/-- The last character removed (R181). -/
theorem pathPop_spec (c : Codes) (h : 1 ≤ c.pathLen.toNat) :
    (pathPop c).pathLen.toNat = c.pathLen.toNat - 1 ∧ (pathPop c).len = c.len ∧ (pathPop c).bits = c.bits ∧
      (pathPop c).path = c.path := by
  have hs : (c.pathLen - 1).toNat = c.pathLen.toNat - 1 := by
    have := c.pathLen.isLt
    rw [BitVec.toNat_sub]
    simp
    omega
  exact ⟨hs, rfl, rfl, rfl⟩

theorem walkTo_leaf {v : Vector Node 513} {k : NodeIx} {sym : Sym} (h : v[k.toNat]? = some (.leaf sym)) (b : Bool)
    (l : List Bool) : walkTo v k (b :: l) = none := by simp [walkTo, childOf, h]

/-- The code of symbol `s` is the path `p` and a walk `w` from node `k` to a leaf of `s` that does not give way, zeros after
it, 256 bits at most (R45, R182). -/
def recorded (g : NodeIx → Sym → Bool) (v : Vector Node 513) (k : NodeIx) (p : List Bool) (d : Codes) (s : Nat) : Prop :=
  ∃ w m n x, d.len[s]? = some n ∧ d.bits[s]? = some x ∧ codeBitList n x = p ++ w ∧ n.toNat = (p ++ w).length ∧
    walkTo v k w = some m ∧ v[m.toNat]? = some (.leaf (BitVec.ofNat 9 s)) ∧
    g m (BitVec.ofNat 9 s) = false ∧ n.toNat ≤ 256 ∧
    ∀ j, n.toNat ≤ j → x.getMsbD j = false

theorem recordCode_spec (sym : Sym) (c d : Codes) (h : recordCode sym c = some d) :
    d.path = c.path ∧ d.pathLen = c.pathLen ∧ sym.toNat < 257 ∧
    (∀ s : Nat, s ≠ sym.toNat → d.len[s]? = c.len[s]? ∧ d.bits[s]? = c.bits[s]?) ∧
    d.len[sym.toNat]? = some c.pathLen ∧ d.bits[sym.toNat]? = some (keepTop c.path c.pathLen.toNat) := by
  unfold recordCode at h
  split at h
  · next hs =>
    cases h
    refine ⟨rfl, rfl, hs, fun s hne => ?_, ?_, ?_⟩
    · have : ¬ sym.toNat = s := fun e => hne e.symm
      simp only [Vector.getElem?_setIfInBounds, if_neg this, and_self]
    · simp only [Vector.getElem?_setIfInBounds, if_pos, if_pos hs]
    · simp only [Vector.getElem?_setIfInBounds, if_pos, if_pos hs]
  · cases h

/-- What a visit does (R181): the path buffer is as before, and the code of every symbol is as before or a path through
the node visited. -/
theorem visit_spec (g : NodeIx → Sym → Bool) (v : Vector Node 513) :
    ∀ (fuel : Nat) (k : NodeIx) (c d : Codes), c.pathLen.toNat ≤ 256 → visit g v fuel k c = some d →
      d.pathLen = c.pathLen ∧ (∀ j, j < c.pathLen.toNat → d.path.getMsbD j = c.path.getMsbD j) ∧
      ∀ s : Nat, s < 257 → (d.len[s]? = c.len[s]? ∧ d.bits[s]? = c.bits[s]?) ∨ recorded g v k (pathBits c) d s
  | 0, _, _, _, _, h => by simp [visit] at h
  | fuel + 1, k, c, d, hc, h => by
    rw [visit] at h
    split at h
    · next sym hk =>
      split at h
      · cases h
        exact ⟨rfl, fun _ _ => rfl, fun _ _ => .inl ⟨rfl, rfl⟩⟩
      next hg =>
      obtain ⟨h1, h2, h3, h4, h5, h6⟩ := recordCode_spec sym c d h
      refine ⟨h2, fun j _ => by rw [h1], fun s hs => ?_⟩
      by_cases e : s = sym.toNat
      · right
        subst e
        have hl : (pathBits c).length = c.pathLen.toNat := by simp [pathBits]
        refine ⟨[], k, c.pathLen, keepTop c.path c.pathLen.toNat, h5, h6, ?_, by simp [hl], rfl, by simpa using hk,
          by simpa using hg, hc, ?_⟩
        · rw [List.append_nil]
          unfold codeBitList pathBits
          apply List.map_congr_left
          intro j hj
          have hj : j < c.pathLen.toNat := by simpa using hj
          rw [keepTop_get _ _ _ hc]
          simp [hj]
        · intro j hj
          rw [keepTop_get _ _ _ hc]
          have : ¬ j < c.pathLen.toNat := by omega
          simp [this]
      · exact .inl (h4 s e)
    · next l r hk =>
      simp only [Option.bind_eq_some_iff, Option.map_eq_some_iff] at h
      obtain ⟨c1, a1, c2, a2, c3, a3, c4, a4, rfl⟩ := h
      have hlt : c.pathLen.toNat < 256 := by
        unfold pathPush at a1
        split at a1
        · assumption
        · cases a1
      obtain ⟨_, b0, b1, b2, b3, b4, b5⟩ := pathPush_spec false c hlt
      rw [a1] at b0; cases b0
      obtain ⟨d1, d2, d3⟩ := visit_spec g v fuel l c1 c2 (by omega) a2
      obtain ⟨e1, e2, e3, e4⟩ := pathPop_spec c2 (by rw [d1]; omega)
      obtain ⟨_, f0, f1, f2, f3, f4, f5⟩ := pathPush_spec true (pathPop c2) (by rw [e1, d1]; omega)
      rw [a3] at f0; cases f0
      obtain ⟨g1, g2, g3⟩ := visit_spec g v fuel r c3 c4 (by rw [f1, e1, d1]; omega) a4
      obtain ⟨i1, i2, i3, i4⟩ := pathPop_spec c4 (by rw [g1]; omega)
      have hpath : ∀ j, j < c.pathLen.toNat → (pathPop c2).path.getMsbD j = c.path.getMsbD j := by
        intro j hj
        rw [e4, d2 j (by omega), b5 j hj]
      have hpb : pathBits (pathPop c2) = pathBits c := by
        unfold pathBits
        rw [e1, d1, b1]
        apply List.map_congr_left
        intro j hj
        have hj : j < c.pathLen.toNat := by simpa using hj
        exact hpath j hj
      refine ⟨?_, ?_, ?_⟩
      · rw [BitVec.toNat_eq, i1, g1, f1, e1, d1]; omega
      · intro j hj
        rw [i4, g2 j (by rw [f1, e1, d1]; omega), f5 j (by rw [e1, d1]; omega), hpath j hj]
      · intro s hs
        have hchild : ∀ b x, childOf v k b = some x → ∀ q dd, recorded g v x (q ++ [b]) dd s → recorded g v k q dd s := by
          rintro b x hx q dd ⟨w, m, n, y, h1, h2, h3, h4, h5, h6, h7⟩
          exact ⟨b :: w, m, n, y, h1, h2, by simpa using h3, by simpa using h4, by simpa [walkTo, hx] using h5, h6, h7⟩
        have hsame : ∀ q x, recorded g v x q c4 s → recorded g v x q (pathPop c4) s := fun q x h => h
        rcases g3 s hs with ⟨h1, h2⟩ | h1
        · rcases d3 s hs with ⟨h3, h4⟩ | h3
          · left
            rw [i2, i3, h1, h2, f3, f4, e2, e3, h3, h4, b3, b4]
            exact ⟨rfl, rfl⟩
          · right
            apply hchild false l (by simp [childOf, hk])
            rw [b2] at h3
            obtain ⟨w, m, n, y, j1, j2, j3⟩ := h3
            exact ⟨w, m, n, y, by rw [i2, h1, f3, e2]; exact j1, by rw [i3, h2, f4, e3]; exact j2, j3⟩
        · right
          apply hchild true r (by simp [childOf, hk])
          rw [f2, hpb] at h1
          exact hsame _ _ h1
    · cases h
    · cases h

/-- How many nodes from index `k` on are internal. -/
def internalFrom (t : Tree) (k : Nat) : Nat :=
  ((List.range t.nn.toNat).filter fun i => decide (k ≤ i) && !leafAt t.node (BitVec.ofNat 10 i)).length

theorem internalFrom_lt (t : Tree) {k c : Nat} (hk : k < t.nn.toNat) (hc : k < c)
    (hn : leafAt t.node (BitVec.ofNat 10 k) = false) : internalFrom t c + 1 ≤ internalFrom t k := by
  unfold internalFrom
  rw [← List.countP_eq_length_filter, ← List.countP_eq_length_filter]
  -- one more element counts for k than for c
  have key : ∀ l : List Nat, k ∈ l →
      l.countP (fun i => decide (c ≤ i) && !leafAt t.node (BitVec.ofNat 10 i)) + 1 ≤
      l.countP (fun i => decide (k ≤ i) && !leafAt t.node (BitVec.ofNat 10 i)) := by
    intro l
    induction l with
    | nil => intro h; cases h
    | cons a rest ih =>
      intro h
      rw [List.countP_cons, List.countP_cons]
      have hmono : rest.countP (fun i => decide (c ≤ i) && !leafAt t.node (BitVec.ofNat 10 i)) ≤
          rest.countP (fun i => decide (k ≤ i) && !leafAt t.node (BitVec.ofNat 10 i)) := by
        apply List.countP_mono_left
        intro x _ hx
        simp only [Bool.and_eq_true, decide_eq_true_eq] at hx ⊢
        exact ⟨by omega, hx.2⟩
      rcases List.mem_cons.1 h with rfl | h
      · have h1 : ¬ c ≤ k := by omega
        simp only [h1, hn]
        simp
        exact hmono
      · have := ih h
        by_cases h1 : c ≤ a
        · have h2 : k ≤ a := by omega
          simp only [h1, h2]
          omega
        · simp only [h1]
          simp
          omega
  exact key _ (by simpa using hk)

/-- Internal nodes and leaves make up the tree. -/
theorem internalFrom_leaves (t : Tree) (h : t.nn.toNat ≤ 513) :
    internalFrom t 0 + leafCount t.node t.nn.toNat = t.nn.toNat := by
  unfold internalFrom leafCount
  rw [← List.countP_eq_length_filter, ← List.countP_eq_length_filter]
  have e : t.node.toList.take t.nn.toNat = (List.range t.nn.toNat).map fun i => t.node[i]?.getD .bare := by
    apply List.ext_getElem
    · simp [h]
    · intro i h1 h2
      have : i < 513 := by simp at h2; omega
      simp [this]
  have e1 : List.countP Node.isLeaf (t.node.toList.take t.nn.toNat) =
      List.countP (fun i => leafAt t.node (BitVec.ofNat 10 i)) (List.range t.nn.toNat) := by
    rw [e, List.countP_map]
    apply List.countP_congr
    intro i hi
    have hi : i < t.nn.toNat := by simpa using hi
    have e2 : (BitVec.ofNat 10 i).toNat = i := by simp; omega
    have e3 : i < 513 := by omega
    simp only [leafAt, e2, Function.comp, Vector.getElem?_eq_getElem e3, Option.getD_some]
  have h2 := List.length_eq_countP_add_countP (fun i => !leafAt t.node (BitVec.ofNat 10 i)) (l := List.range t.nn.toNat)
  have e4 : List.countP (fun i => decide ¬ (!leafAt t.node (BitVec.ofNat 10 i)) = true) (List.range t.nn.toNat) =
      List.countP (fun i => leafAt t.node (BitVec.ofNat 10 i)) (List.range t.nn.toNat) := by
    apply List.countP_congr
    intro i _
    simp
  rw [e4, List.length_range] at h2
  rw [e1]
  simpa using h2.symm

/-- A visit of a node of a finished tree ends, where the path buffer and the fuel have room for the internal nodes that
are left. -/
theorem visit_ends (g : NodeIx → Sym → Bool) (t : Tree) (ht : treeFinished t)
    (hs : ∀ (k : Nat) sym, k < t.nn.toNat → t.node[k]? = some (.leaf sym) → sym.toNat < 257) :
    ∀ (fuel : Nat) (k : NodeIx) (c : Codes), k.toNat < t.nn.toNat → internalFrom t k.toNat < fuel →
      c.pathLen.toNat + internalFrom t k.toNat ≤ 256 → ∃ d, visit g t.node fuel k c = some d
  | 0, _, _, _, h, _ => by omega
  | fuel + 1, k, c, hk, hf, hp => by
    obtain ⟨hle, _, hnode⟩ := ht
    have hn := hnode k.toNat hk
    have hkk : BitVec.ofNat 10 k.toNat = k := by simp
    rw [visit]
    split
    · next sym he =>
      have := hs k.toNat sym hk he
      split
      · exact ⟨_, rfl⟩
      · exact ⟨_, by rw [recordCode, if_pos this]⟩
    · next l r he =>
      rw [he] at hn
      obtain ⟨h1, h2, h3, h4⟩ := hn
      have hleaf : leafAt t.node (BitVec.ofNat 10 k.toNat) = false := by
        rw [hkk]; simp [leafAt, he, Node.isLeaf]
      have i1 := internalFrom_lt t hk h1 hleaf
      have i2 := internalFrom_lt t hk h3 hleaf
      obtain ⟨c1, a1, a2, _⟩ := pathPush_spec false c (by omega)
      obtain ⟨c2, b1⟩ := visit_ends g t ⟨hle, ‹_›, hnode⟩ hs fuel l c1 h2 (by omega) (by omega)
      obtain ⟨b2, _⟩ := visit_spec g t.node fuel l c1 c2 (by omega) b1
      obtain ⟨p1, _⟩ := pathPop_spec c2 (by rw [b2]; omega)
      obtain ⟨c3, d1, d2, _⟩ := pathPush_spec true (pathPop c2) (by rw [p1, b2]; omega)
      obtain ⟨c4, e1⟩ := visit_ends g t ⟨hle, ‹_›, hnode⟩ hs fuel r c3 h4 (by omega) (by rw [d2, p1, b2]; omega)
      exact ⟨pathPop c4, by simp [a1, b1, d1, e1]⟩
    · next he => rw [he] at hn; exact hn.elim
    · next he => rw [he] at hn; exact hn.elim

theorem higherLeaf_eq_false {t : Tree} {k : NodeIx} {sym : Sym} :
    higherLeaf t k sym = false ↔ ∀ i : Nat, k.toNat < i → i < t.nn.toNat → t.node[i]? ≠ some (.leaf sym) := by
  simp only [higherLeaf, List.any_eq_false, List.mem_range, Bool.and_eq_true, decide_eq_true_eq, not_and]
  exact forall_congr' fun i => forall_comm

/-- No leaf has a higher number than the last one. -/
theorem higherLeaf_last {t : Tree} {k : NodeIx} {sym : Sym} (h : t.nn.toNat ≤ k.toNat + 1) : higherLeaf t k sym = false :=
  higherLeaf_eq_false.2 fun i _ _ => by omega

theorem goesBefore.cons (b : Bool) {w w' : List Bool} (h : goesBefore w w') : goesBefore (b :: w) (b :: w') := by
  obtain ⟨p, r, r', rfl, rfl⟩ := h
  exact ⟨b :: p, r, r', rfl, rfl⟩

/-- The traversal that a derivation is (R181). -/
theorem deriveCodes_eq (t : Tree) (c : Codes) :
    deriveCodes t c = visit (fun k sym => higherLeaf t k sym && Config.repeatedByNumber) t.node 257 0
      { c with len := Vector.replicate 257 0, bits := Vector.replicate 257 0, pathLen := 0 } := rfl

/-- Two ways of giving way that agree on the leaves of a tree give one derivation. -/
theorem visit_congr {g g' : NodeIx → Sym → Bool} (v : Vector Node 513)
    (h : ∀ (k : NodeIx) sym, v[k.toNat]? = some (.leaf sym) → g k sym = g' k sym) :
    ∀ (fuel : Nat) (k : NodeIx) (c : Codes), visit g v fuel k c = visit g' v fuel k c
  | 0, _, _ => rfl
  | fuel + 1, k, c => by
    have ih : visit g v fuel = visit g' v fuel := funext fun k => funext fun c => visit_congr v h fuel k c
    rw [visit, visit, ih]
    split
    · next sym hk => rw [h k sym hk]
    all_goals rfl

/-- Every leaf below the node visited that does not give way gets a code: its walk's, or that of such a leaf of the same
symbol visited later (R182, R187). -/
theorem visit_latest (g : NodeIx → Sym → Bool) (v : Vector Node 513) :
    ∀ (fuel : Nat) (k : NodeIx) (c d : Codes), c.pathLen.toNat ≤ 256 → visit g v fuel k c = some d →
      ∀ (w : List Bool) (m : NodeIx) (sym : Sym), walkTo v k w = some m → v[m.toNat]? = some (.leaf sym) →
        g m sym = false → ∃ n x w', d.len[sym.toNat]? = some n ∧ d.bits[sym.toNat]? = some x ∧ codeBitList n x = pathBits c ++ w' ∧
          (w = w' ∨ goesBefore w w')
  | 0, _, _, _, _, h => by simp [visit] at h
  | fuel + 1, k, c, d, hc, h => by
    intro w m sym hw hm hg
    rw [visit] at h
    split at h
    · next sym' hk =>
      cases w with
      | cons b rest => rw [walkTo_leaf hk] at hw; cases hw
      | nil =>
        simp only [walkTo, Option.some.injEq] at hw
        subst hw
        rw [hk] at hm
        simp only [Option.some.injEq, Node.leaf.injEq] at hm
        subst hm
        rw [if_neg (by simp [hg])] at h
        obtain ⟨_, _, _, _, h5, h6⟩ := recordCode_spec sym' c d h
        refine ⟨_, _, [], h5, h6, ?_, .inl rfl⟩
        rw [List.append_nil]
        unfold codeBitList pathBits
        apply List.map_congr_left
        intro j hj
        have hj : j < c.pathLen.toNat := by simpa using hj
        rw [keepTop_get _ _ _ hc]
        simp [hj]
    · next l r hk =>
      simp only [Option.bind_eq_some_iff, Option.map_eq_some_iff] at h
      obtain ⟨c1, a1, c2, a2, c3, a3, c4, a4, rfl⟩ := h
      have hlt : c.pathLen.toNat < 256 := by
        unfold pathPush at a1
        split at a1
        · assumption
        · cases a1
      obtain ⟨_, b0, b1, b2, b3, b4, b5⟩ := pathPush_spec false c hlt
      rw [a1] at b0; cases b0
      obtain ⟨d1, d2, _⟩ := visit_spec g v fuel l c1 c2 (by omega) a2
      obtain ⟨e1, e2, e3, e4⟩ := pathPop_spec c2 (by rw [d1]; omega)
      obtain ⟨_, f0, f1, f2, f3, f4, f5⟩ := pathPush_spec true (pathPop c2) (by rw [e1, d1]; omega)
      rw [a3] at f0; cases f0
      obtain ⟨g1, _, g3⟩ := visit_spec g v fuel r c3 c4 (by rw [f1, e1, d1]; omega) a4
      have hpb : pathBits (pathPop c2) = pathBits c := by
        unfold pathBits
        rw [e1, d1, b1]
        apply List.map_congr_left
        intro j hj
        have hj : j < c.pathLen.toNat := by simpa using hj
        rw [e4, d2 j (by omega), b5 j hj]
      rw [hpb] at f2
      cases w with
      | nil =>
        simp only [walkTo, Option.some.injEq] at hw
        subst hw
        rw [hk] at hm
        cases hm
      | cons b rest =>
        cases b with
        | true =>
          have hr : walkTo v r rest = some m := by simpa [walkTo, childOf, hk] using hw
          obtain ⟨n, x, w', n1, n2, n3, n4⟩ :=
            visit_latest g v fuel r c3 c4 (by rw [f1, e1, d1]; omega) a4 rest m sym hr hm hg
          exact ⟨n, x, true :: w', n1, n2, by simp [n3, f2], n4.imp (congrArg _) (goesBefore.cons true)⟩
        | false =>
          have hl : walkTo v l rest = some m := by simpa [walkTo, childOf, hk] using hw
          obtain ⟨n, x, w', n1, n2, n3, n4⟩ := visit_latest g v fuel l c1 c2 (by omega) a2 rest m sym hl hm hg
          have hsym : sym.toNat < 257 := by
            by_contra hcon
            rw [Vector.getElem?_eq_none (by omega)] at n1
            cases n1
          rcases g3 sym.toNat hsym with ⟨h1, h2⟩ | ⟨w2, m', n', x', h1, h2, h3, _⟩
          · exact ⟨n, x, false :: w', by rw [show (pathPop c4).len = c4.len from rfl, h1, f3, e2]; exact n1,
              by rw [show (pathPop c4).bits = c4.bits from rfl, h2, f4, e3]; exact n2, by simp [n3, b2],
              n4.imp (congrArg _) (goesBefore.cons false)⟩
          · exact ⟨n', x', true :: w2, h1, h2, by simp [h3, f2], .inr ⟨[], rest, w2, rfl, rfl⟩⟩
    · cases h
    · cases h

theorem walkTo_append (v : Vector Node 513) (k m : NodeIx) (a b : List Bool) (h : walkTo v k a = some m) :
    walkTo v k (a ++ b) = walkTo v m b := by
  induction a generalizing k with
  | nil => simp only [walkTo, Option.some.injEq] at h; subst h; rfl
  | cons x rest ih =>
    simp only [walkTo, List.cons_append] at h ⊢
    cases hx : childOf v k x with
    | none => simp [hx] at h
    | some y => simp only [hx] at h ⊢; exact ih y h

/-- Every node of an assembled tree can be walked to from the root. -/
theorem Assembled.reachable {q : List (Option Sym)} {u : Tree} (a : Assembled q u) :
    ∀ c, c < q.length → ∃ w, walkTo u.node 0 w = some (BitVec.ofNat 10 c) ∧ (1 ≤ c → w ≠ []) := by
  intro c
  induction c using Nat.strong_induction_on with
  | _ c ih =>
    intro hc
    by_cases h0 : c = 0
    · subst h0
      exact ⟨[], rfl, fun h => by omega⟩
    · obtain ⟨i, d, h1, h2, h3⟩ := a.parents c (by omega) hc
      obtain ⟨w, hw, _⟩ := ih i (by omega) (by omega)
      have hi : (BitVec.ofNat 10 i).toNat = i := by have := a.fits; simp; omega
      rcases h3 with rfl | rfl
      · refine ⟨w ++ [false], ?_, by simp⟩
        rw [walkTo_append _ _ _ _ _ hw]
        simp only [walkTo, childOf, hi, h2]
        rfl
      · refine ⟨w ++ [true], ?_, by simp⟩
        rw [walkTo_append _ _ _ _ _ hw]
        simp only [walkTo, childOf, hi, h2]
        rfl

/-- Of the leaves of an assembled tree that hold one symbol, one has no higher one. -/
theorem Assembled.highestLeaf {q : List (Option Sym)} {u : Tree} (a : Assembled q u) {sym : Sym} (h : some sym ∈ q) :
    ∃ i, q[i]? = some (some sym) ∧ higherLeaf u (BitVec.ofNat 10 i) sym = false := by
  obtain ⟨i, hi⟩ := List.mem_iff_getElem?.1 h
  have hf := a.fits
  have key : ∀ n i, q[i]? = some (some sym) → q.length ≤ i + n →
      ∃ j, q[j]? = some (some sym) ∧ higherLeaf u (BitVec.ofNat 10 j) sym = false := by
    intro n
    induction n with
    | zero =>
      intro i hi hn
      rw [List.getElem?_eq_none (by omega)] at hi
      cases hi
    | succ n ih =>
      intro i hi hn
      cases hc : higherLeaf u (BitVec.ofNat 10 i) sym with
      | false => exact ⟨i, hi, hc⟩
      | true =>
        simp only [higherLeaf, List.any_eq_true, List.mem_range, Bool.and_eq_true, decide_eq_true_eq] at hc
        obtain ⟨j, h1, h2, h3⟩ := hc
        have hil : i < q.length := by
          by_contra hx
          rw [List.getElem?_eq_none (by omega)] at hi
          cases hi
        have e : (BitVec.ofNat 10 i).toNat = i := by simp; omega
        rw [a.size] at h1
        rcases a.node_cases h1 with ⟨s, hs, hl⟩ | ⟨_, c, hk, _⟩
        · rw [hl] at h3
          simp only [Option.some.injEq, Node.leaf.injEq] at h3
          subst h3
          exact ih j hs (by omega)
        · rw [hk] at h3
          cases h3
  exact key q.length i hi (by omega)

/-- A walk from the root of an assembled tree stays in it. -/
theorem Assembled.walk_lt {q : List (Option Sym)} {u : Tree} (a : Assembled q u) {w : List Bool} {m : NodeIx}
    (h : walkTo u.node 0 w = some m) : m.toNat < q.length := by
  have key : ∀ (w : List Bool) (k : NodeIx), k.toNat < q.length → walkTo u.node k w = some m → m.toNat < q.length := by
    intro w
    induction w with
    | nil =>
      intro k hk h
      simp only [walkTo, Option.some.injEq] at h
      rwa [← h]
    | cons b rest ih =>
      intro k hk h
      have hf := a.fits
      rcases a.node_cases hk with ⟨s, _, hl⟩ | ⟨_, c, hc, _, hlt⟩
      · rw [walkTo_leaf hl] at h
        cases h
      · cases b <;> simp only [walkTo, childOf, hc] at h
        · exact ih _ (by simp; omega) h
        · exact ih _ (by simp; omega) h
  exact key w 0 (by have := a.three; simp; omega) h

end Sys2Proof.Machine
end

