-- ==== Sys2Proof/Laws/State.lean ====
section
/-!
SUPPORT. For every operation that updates the state, what each field is after it; and how a `Flow` goes on.
-/

namespace Sys2Proof.Machine

/-! ### Flow -/

@[simp] theorem Flow.bind_go (s : State) (f : State → Flow) : (Flow.go s).bind f = f s := rfl
@[simp] theorem Flow.bind_ended (s : State) (f : State → Flow) : (Flow.ended s).bind f = .ended s := rfl
@[simp] theorem Flow.bind_stop (e : Fault) (f : State → Flow) : (Flow.stop e).bind f = .stop e := rfl
@[simp] theorem Flow.bind_refuse (r : Refusal) (f : State → Flow) : (Flow.refuse r).bind f = .refuse r := rfl
@[simp] theorem Flow.outcome_go (s : State) : (Flow.go s).outcome = .next s := rfl
@[simp] theorem Flow.outcome_ended (s : State) : (Flow.ended s).outcome = .next s := rfl
@[simp] theorem Flow.outcome_stop (e : Fault) : (Flow.stop e).outcome = .fault e := rfl
@[simp] theorem Flow.outcome_refuse (r : Refusal) : (Flow.refuse r).outcome = .refused r := rfl
@[simp] theorem raise_eq (c : ErrCode) (s : State) : raise c s = .ended (errorEntry c s) := rfl

theorem Flow.bind_assoc (m : Flow) (f g : State → Flow) : (m.bind f).bind g = m.bind fun s => (f s).bind g := by
  cases m <;> rfl

/-- A flow answers a next state exactly when it goes on or has ended with that state. -/
theorem Flow.outcome_next_iff (m : Flow) (t : State) : m.outcome = .next t ↔ m = .go t ∨ m = .ended t := by
  cases m <;> simp [Flow.outcome]

/-! `errorEntry`: one lemma per field. -/

@[simp] theorem errorEntry_phase (c : ErrCode) (s : State) : (errorEntry c s).phase = .error := rfl
@[simp] theorem errorEntry_op (c : ErrCode) (s : State) : (errorEntry c s).op = s.op := rfl
@[simp] theorem errorEntry_cmderr (c : ErrCode) (s : State) : (errorEntry c s).cmderr = s.cmderr := rfl
@[simp] theorem errorEntry_discard (c : ErrCode) (s : State) : (errorEntry c s).discard = true := rfl
@[simp] theorem errorEntry_freqValid (c : ErrCode) (s : State) : (errorEntry c s).freqValid = s.freqValid := rfl
@[simp] theorem errorEntry_codeValid (c : ErrCode) (s : State) : (errorEntry c s).codeValid = s.codeValid := rfl
@[simp] theorem errorEntry_err (c : ErrCode) (s : State) : (errorEntry c s).err = { code := c, phase := s.phase, info := s.inCnt } := rfl
@[simp] theorem errorEntry_badCmd (c : ErrCode) (s : State) : (errorEntry c s).badCmd = s.badCmd := rfl
@[simp] theorem errorEntry_force (c : ErrCode) (s : State) : (errorEntry c s).force = s.force := rfl
@[simp] theorem errorEntry_irqEn (c : ErrCode) (s : State) : (errorEntry c s).irqEn = s.irqEn := rfl
@[simp] theorem errorEntry_irqPend (c : ErrCode) (s : State) : (errorEntry c s).irqPend = s.irqPend ||| Irq.error.bit := rfl
@[simp] theorem errorEntry_totalLen (c : ErrCode) (s : State) : (errorEntry c s).totalLen = s.totalLen := rfl
@[simp] theorem errorEntry_extLen (c : ErrCode) (s : State) : (errorEntry c s).extLen = s.extLen := rfl
@[simp] theorem errorEntry_ext (c : ErrCode) (s : State) : (errorEntry c s).ext = s.ext := rfl
@[simp] theorem errorEntry_inCnt (c : ErrCode) (s : State) : (errorEntry c s).inCnt = s.inCnt := rfl
@[simp] theorem errorEntry_estBytes (c : ErrCode) (s : State) : (errorEntry c s).estBytes = s.estBytes := rfl
@[simp] theorem errorEntry_nleaf (c : ErrCode) (s : State) : (errorEntry c s).nleaf = s.nleaf := rfl
@[simp] theorem errorEntry_nnode (c : ErrCode) (s : State) : (errorEntry c s).nnode = s.nnode := rfl
@[simp] theorem errorEntry_pct (c : ErrCode) (s : State) : (errorEntry c s).pct = s.pct := rfl
@[simp] theorem errorEntry_magicReg (c : ErrCode) (s : State) : (errorEntry c s).magicReg = s.magicReg := rfl
@[simp] theorem errorEntry_termReg (c : ErrCode) (s : State) : (errorEntry c s).termReg = s.termReg := rfl
@[simp] theorem errorEntry_freq (c : ErrCode) (s : State) : (errorEntry c s).freq = s.freq := rfl
@[simp] theorem errorEntry_queue (c : ErrCode) (s : State) : (errorEntry c s).queue = s.queue := rfl
@[simp] theorem errorEntry_stack (c : ErrCode) (s : State) : (errorEntry c s).stack = s.stack := rfl
@[simp] theorem errorEntry_tree (c : ErrCode) (s : State) : (errorEntry c s).tree = s.tree := rfl
@[simp] theorem errorEntry_codes (c : ErrCode) (s : State) : (errorEntry c s).codes = s.codes := rfl
@[simp] theorem errorEntry_out (c : ErrCode) (s : State) : (errorEntry c s).out = s.out := rfl
@[simp] theorem errorEntry_dec (c : ErrCode) (s : State) : (errorEntry c s).dec = s.dec := rfl
@[simp] theorem errorEntry_events (c : ErrCode) (s : State) : (errorEntry c s).events = s.events := rfl
@[simp] theorem errorEntry_reply (c : ErrCode) (s : State) : (errorEntry c s).reply = s.reply := rfl
@[simp] theorem errorEntry_draws (c : ErrCode) (s : State) : (errorEntry c s).draws = s.draws := rfl

/-! `reject`: one lemma per field. -/

@[simp] theorem reject_phase (w : Word) (s : State) : (reject w s).phase = s.phase := rfl
@[simp] theorem reject_op (w : Word) (s : State) : (reject w s).op = s.op := rfl
@[simp] theorem reject_cmderr (w : Word) (s : State) : (reject w s).cmderr = true := rfl
@[simp] theorem reject_discard (w : Word) (s : State) : (reject w s).discard = s.discard := rfl
@[simp] theorem reject_freqValid (w : Word) (s : State) : (reject w s).freqValid = s.freqValid := rfl
@[simp] theorem reject_codeValid (w : Word) (s : State) : (reject w s).codeValid = s.codeValid := rfl
@[simp] theorem reject_err (w : Word) (s : State) : (reject w s).err = s.err := rfl
@[simp] theorem reject_badCmd (w : Word) (s : State) : (reject w s).badCmd = w := rfl
@[simp] theorem reject_force (w : Word) (s : State) : (reject w s).force = s.force := rfl
@[simp] theorem reject_irqEn (w : Word) (s : State) : (reject w s).irqEn = s.irqEn := rfl
@[simp] theorem reject_irqPend (w : Word) (s : State) : (reject w s).irqPend = s.irqPend ||| Irq.cmderr.bit := rfl
@[simp] theorem reject_totalLen (w : Word) (s : State) : (reject w s).totalLen = s.totalLen := rfl
@[simp] theorem reject_extLen (w : Word) (s : State) : (reject w s).extLen = s.extLen := rfl
@[simp] theorem reject_ext (w : Word) (s : State) : (reject w s).ext = s.ext := rfl
@[simp] theorem reject_inCnt (w : Word) (s : State) : (reject w s).inCnt = s.inCnt := rfl
@[simp] theorem reject_estBytes (w : Word) (s : State) : (reject w s).estBytes = s.estBytes := rfl
@[simp] theorem reject_nleaf (w : Word) (s : State) : (reject w s).nleaf = s.nleaf := rfl
@[simp] theorem reject_nnode (w : Word) (s : State) : (reject w s).nnode = s.nnode := rfl
@[simp] theorem reject_pct (w : Word) (s : State) : (reject w s).pct = s.pct := rfl
@[simp] theorem reject_magicReg (w : Word) (s : State) : (reject w s).magicReg = s.magicReg := rfl
@[simp] theorem reject_termReg (w : Word) (s : State) : (reject w s).termReg = s.termReg := rfl
@[simp] theorem reject_freq (w : Word) (s : State) : (reject w s).freq = s.freq := rfl
@[simp] theorem reject_queue (w : Word) (s : State) : (reject w s).queue = s.queue := rfl
@[simp] theorem reject_stack (w : Word) (s : State) : (reject w s).stack = s.stack := rfl
@[simp] theorem reject_tree (w : Word) (s : State) : (reject w s).tree = s.tree := rfl
@[simp] theorem reject_codes (w : Word) (s : State) : (reject w s).codes = s.codes := rfl
@[simp] theorem reject_out (w : Word) (s : State) : (reject w s).out = s.out := rfl
@[simp] theorem reject_dec (w : Word) (s : State) : (reject w s).dec = s.dec := rfl
@[simp] theorem reject_events (w : Word) (s : State) : (reject w s).events = s.events := rfl
@[simp] theorem reject_reply (w : Word) (s : State) : (reject w s).reply = s.reply := rfl
@[simp] theorem reject_draws (w : Word) (s : State) : (reject w s).draws = s.draws := rfl

/-! `pend`: one lemma per field. -/

@[simp] theorem pend_phase (q : Irq) (s : State) : (s.pend q).phase = s.phase := rfl
@[simp] theorem pend_op (q : Irq) (s : State) : (s.pend q).op = s.op := rfl
@[simp] theorem pend_cmderr (q : Irq) (s : State) : (s.pend q).cmderr = s.cmderr := rfl
@[simp] theorem pend_discard (q : Irq) (s : State) : (s.pend q).discard = s.discard := rfl
@[simp] theorem pend_freqValid (q : Irq) (s : State) : (s.pend q).freqValid = s.freqValid := rfl
@[simp] theorem pend_codeValid (q : Irq) (s : State) : (s.pend q).codeValid = s.codeValid := rfl
@[simp] theorem pend_err (q : Irq) (s : State) : (s.pend q).err = s.err := rfl
@[simp] theorem pend_badCmd (q : Irq) (s : State) : (s.pend q).badCmd = s.badCmd := rfl
@[simp] theorem pend_force (q : Irq) (s : State) : (s.pend q).force = s.force := rfl
@[simp] theorem pend_irqEn (q : Irq) (s : State) : (s.pend q).irqEn = s.irqEn := rfl
@[simp] theorem pend_irqPend (q : Irq) (s : State) : (s.pend q).irqPend = s.irqPend ||| q.bit := rfl
@[simp] theorem pend_totalLen (q : Irq) (s : State) : (s.pend q).totalLen = s.totalLen := rfl
@[simp] theorem pend_extLen (q : Irq) (s : State) : (s.pend q).extLen = s.extLen := rfl
@[simp] theorem pend_ext (q : Irq) (s : State) : (s.pend q).ext = s.ext := rfl
@[simp] theorem pend_inCnt (q : Irq) (s : State) : (s.pend q).inCnt = s.inCnt := rfl
@[simp] theorem pend_estBytes (q : Irq) (s : State) : (s.pend q).estBytes = s.estBytes := rfl
@[simp] theorem pend_nleaf (q : Irq) (s : State) : (s.pend q).nleaf = s.nleaf := rfl
@[simp] theorem pend_nnode (q : Irq) (s : State) : (s.pend q).nnode = s.nnode := rfl
@[simp] theorem pend_pct (q : Irq) (s : State) : (s.pend q).pct = s.pct := rfl
@[simp] theorem pend_magicReg (q : Irq) (s : State) : (s.pend q).magicReg = s.magicReg := rfl
@[simp] theorem pend_termReg (q : Irq) (s : State) : (s.pend q).termReg = s.termReg := rfl
@[simp] theorem pend_freq (q : Irq) (s : State) : (s.pend q).freq = s.freq := rfl
@[simp] theorem pend_queue (q : Irq) (s : State) : (s.pend q).queue = s.queue := rfl
@[simp] theorem pend_stack (q : Irq) (s : State) : (s.pend q).stack = s.stack := rfl
@[simp] theorem pend_tree (q : Irq) (s : State) : (s.pend q).tree = s.tree := rfl
@[simp] theorem pend_codes (q : Irq) (s : State) : (s.pend q).codes = s.codes := rfl
@[simp] theorem pend_out (q : Irq) (s : State) : (s.pend q).out = s.out := rfl
@[simp] theorem pend_dec (q : Irq) (s : State) : (s.pend q).dec = s.dec := rfl
@[simp] theorem pend_events (q : Irq) (s : State) : (s.pend q).events = s.events := rfl
@[simp] theorem pend_reply (q : Irq) (s : State) : (s.pend q).reply = s.reply := rfl
@[simp] theorem pend_draws (q : Irq) (s : State) : (s.pend q).draws = s.draws := rfl

/-! `setPct`: one lemma per field. -/

@[simp] theorem setPct_phase (v : BitVec 7) (s : State) : (s.setPct v).phase = s.phase := by unfold State.setPct; split <;> rfl
@[simp] theorem setPct_op (v : BitVec 7) (s : State) : (s.setPct v).op = s.op := by unfold State.setPct; split <;> rfl
@[simp] theorem setPct_cmderr (v : BitVec 7) (s : State) : (s.setPct v).cmderr = s.cmderr := by unfold State.setPct; split <;> rfl
@[simp] theorem setPct_discard (v : BitVec 7) (s : State) : (s.setPct v).discard = s.discard := by unfold State.setPct; split <;> rfl
@[simp] theorem setPct_freqValid (v : BitVec 7) (s : State) : (s.setPct v).freqValid = s.freqValid := by unfold State.setPct; split <;> rfl
@[simp] theorem setPct_codeValid (v : BitVec 7) (s : State) : (s.setPct v).codeValid = s.codeValid := by unfold State.setPct; split <;> rfl
@[simp] theorem setPct_err (v : BitVec 7) (s : State) : (s.setPct v).err = s.err := by unfold State.setPct; split <;> rfl
@[simp] theorem setPct_badCmd (v : BitVec 7) (s : State) : (s.setPct v).badCmd = s.badCmd := by unfold State.setPct; split <;> rfl
@[simp] theorem setPct_force (v : BitVec 7) (s : State) : (s.setPct v).force = s.force := by unfold State.setPct; split <;> rfl
@[simp] theorem setPct_irqEn (v : BitVec 7) (s : State) : (s.setPct v).irqEn = s.irqEn := by unfold State.setPct; split <;> rfl
@[simp] theorem setPct_irqPend (v : BitVec 7) (s : State) : (s.setPct v).irqPend = if s.pct < v then s.irqPend ||| Irq.prog.bit else s.irqPend := by unfold State.setPct; split <;> rfl
@[simp] theorem setPct_totalLen (v : BitVec 7) (s : State) : (s.setPct v).totalLen = s.totalLen := by unfold State.setPct; split <;> rfl
@[simp] theorem setPct_extLen (v : BitVec 7) (s : State) : (s.setPct v).extLen = s.extLen := by unfold State.setPct; split <;> rfl
@[simp] theorem setPct_ext (v : BitVec 7) (s : State) : (s.setPct v).ext = s.ext := by unfold State.setPct; split <;> rfl
@[simp] theorem setPct_inCnt (v : BitVec 7) (s : State) : (s.setPct v).inCnt = s.inCnt := by unfold State.setPct; split <;> rfl
@[simp] theorem setPct_estBytes (v : BitVec 7) (s : State) : (s.setPct v).estBytes = s.estBytes := by unfold State.setPct; split <;> rfl
@[simp] theorem setPct_nleaf (v : BitVec 7) (s : State) : (s.setPct v).nleaf = s.nleaf := by unfold State.setPct; split <;> rfl
@[simp] theorem setPct_nnode (v : BitVec 7) (s : State) : (s.setPct v).nnode = s.nnode := by unfold State.setPct; split <;> rfl
@[simp] theorem setPct_pct (v : BitVec 7) (s : State) : (s.setPct v).pct = v := by unfold State.setPct; split <;> rfl
@[simp] theorem setPct_magicReg (v : BitVec 7) (s : State) : (s.setPct v).magicReg = s.magicReg := by unfold State.setPct; split <;> rfl
@[simp] theorem setPct_termReg (v : BitVec 7) (s : State) : (s.setPct v).termReg = s.termReg := by unfold State.setPct; split <;> rfl
@[simp] theorem setPct_freq (v : BitVec 7) (s : State) : (s.setPct v).freq = s.freq := by unfold State.setPct; split <;> rfl
@[simp] theorem setPct_queue (v : BitVec 7) (s : State) : (s.setPct v).queue = s.queue := by unfold State.setPct; split <;> rfl
@[simp] theorem setPct_stack (v : BitVec 7) (s : State) : (s.setPct v).stack = s.stack := by unfold State.setPct; split <;> rfl
@[simp] theorem setPct_tree (v : BitVec 7) (s : State) : (s.setPct v).tree = s.tree := by unfold State.setPct; split <;> rfl
@[simp] theorem setPct_codes (v : BitVec 7) (s : State) : (s.setPct v).codes = s.codes := by unfold State.setPct; split <;> rfl
@[simp] theorem setPct_out (v : BitVec 7) (s : State) : (s.setPct v).out = s.out := by unfold State.setPct; split <;> rfl
@[simp] theorem setPct_dec (v : BitVec 7) (s : State) : (s.setPct v).dec = s.dec := by unfold State.setPct; split <;> rfl
@[simp] theorem setPct_events (v : BitVec 7) (s : State) : (s.setPct v).events = s.events := by unfold State.setPct; split <;> rfl
@[simp] theorem setPct_reply (v : BitVec 7) (s : State) : (s.setPct v).reply = s.reply := by unfold State.setPct; split <;> rfl
@[simp] theorem setPct_draws (v : BitVec 7) (s : State) : (s.setPct v).draws = s.draws := by unfold State.setPct; split <;> rfl

/-! `updatePct`: one lemma per field. -/

@[simp] theorem updatePct_phase (s : State) : (s.updatePct).phase = s.phase := by simp [State.updatePct]
@[simp] theorem updatePct_op (s : State) : (s.updatePct).op = s.op := by simp [State.updatePct]
@[simp] theorem updatePct_cmderr (s : State) : (s.updatePct).cmderr = s.cmderr := by simp [State.updatePct]
@[simp] theorem updatePct_discard (s : State) : (s.updatePct).discard = s.discard := by simp [State.updatePct]
@[simp] theorem updatePct_freqValid (s : State) : (s.updatePct).freqValid = s.freqValid := by simp [State.updatePct]
@[simp] theorem updatePct_codeValid (s : State) : (s.updatePct).codeValid = s.codeValid := by simp [State.updatePct]
@[simp] theorem updatePct_err (s : State) : (s.updatePct).err = s.err := by simp [State.updatePct]
@[simp] theorem updatePct_badCmd (s : State) : (s.updatePct).badCmd = s.badCmd := by simp [State.updatePct]
@[simp] theorem updatePct_force (s : State) : (s.updatePct).force = s.force := by simp [State.updatePct]
@[simp] theorem updatePct_irqEn (s : State) : (s.updatePct).irqEn = s.irqEn := by simp [State.updatePct]
@[simp] theorem updatePct_irqPend (s : State) : (s.updatePct).irqPend = if s.pct < s.progress then s.irqPend ||| Irq.prog.bit else s.irqPend := by simp [State.updatePct]
@[simp] theorem updatePct_totalLen (s : State) : (s.updatePct).totalLen = s.totalLen := by simp [State.updatePct]
@[simp] theorem updatePct_extLen (s : State) : (s.updatePct).extLen = s.extLen := by simp [State.updatePct]
@[simp] theorem updatePct_ext (s : State) : (s.updatePct).ext = s.ext := by simp [State.updatePct]
@[simp] theorem updatePct_inCnt (s : State) : (s.updatePct).inCnt = s.inCnt := by simp [State.updatePct]
@[simp] theorem updatePct_estBytes (s : State) : (s.updatePct).estBytes = s.estBytes := by simp [State.updatePct]
@[simp] theorem updatePct_nleaf (s : State) : (s.updatePct).nleaf = s.nleaf := by simp [State.updatePct]
@[simp] theorem updatePct_nnode (s : State) : (s.updatePct).nnode = s.nnode := by simp [State.updatePct]
@[simp] theorem updatePct_pct (s : State) : (s.updatePct).pct = s.progress := by simp [State.updatePct]
@[simp] theorem updatePct_magicReg (s : State) : (s.updatePct).magicReg = s.magicReg := by simp [State.updatePct]
@[simp] theorem updatePct_termReg (s : State) : (s.updatePct).termReg = s.termReg := by simp [State.updatePct]
@[simp] theorem updatePct_freq (s : State) : (s.updatePct).freq = s.freq := by simp [State.updatePct]
@[simp] theorem updatePct_queue (s : State) : (s.updatePct).queue = s.queue := by simp [State.updatePct]
@[simp] theorem updatePct_stack (s : State) : (s.updatePct).stack = s.stack := by simp [State.updatePct]
@[simp] theorem updatePct_tree (s : State) : (s.updatePct).tree = s.tree := by simp [State.updatePct]
@[simp] theorem updatePct_codes (s : State) : (s.updatePct).codes = s.codes := by simp [State.updatePct]
@[simp] theorem updatePct_out (s : State) : (s.updatePct).out = s.out := by simp [State.updatePct]
@[simp] theorem updatePct_dec (s : State) : (s.updatePct).dec = s.dec := by simp [State.updatePct]
@[simp] theorem updatePct_events (s : State) : (s.updatePct).events = s.events := by simp [State.updatePct]
@[simp] theorem updatePct_reply (s : State) : (s.updatePct).reply = s.reply := by simp [State.updatePct]
@[simp] theorem updatePct_draws (s : State) : (s.updatePct).draws = s.draws := by simp [State.updatePct]

/-! `finish`: one lemma per field. -/

@[simp] theorem finish_phase (s : State) : (finish s).phase = .done := by simp [finish]
@[simp] theorem finish_op (s : State) : (finish s).op = s.op := by simp [finish]
@[simp] theorem finish_cmderr (s : State) : (finish s).cmderr = s.cmderr := by simp [finish]
@[simp] theorem finish_discard (s : State) : (finish s).discard = s.discard := by simp [finish]
@[simp] theorem finish_freqValid (s : State) : (finish s).freqValid = s.freqValid := by simp [finish]
@[simp] theorem finish_codeValid (s : State) : (finish s).codeValid = s.codeValid := by simp [finish]
@[simp] theorem finish_err (s : State) : (finish s).err = s.err := by simp [finish]
@[simp] theorem finish_badCmd (s : State) : (finish s).badCmd = s.badCmd := by simp [finish]
@[simp] theorem finish_force (s : State) : (finish s).force = s.force := by simp [finish]
@[simp] theorem finish_irqEn (s : State) : (finish s).irqEn = s.irqEn := by simp [finish]
@[simp] theorem finish_irqPend (s : State) : (finish s).irqPend = (if s.pct < 100 then s.irqPend ||| Irq.prog.bit else s.irqPend) ||| Irq.done.bit := by simp [finish]
@[simp] theorem finish_totalLen (s : State) : (finish s).totalLen = s.totalLen := by simp [finish]
@[simp] theorem finish_extLen (s : State) : (finish s).extLen = s.extLen := by simp [finish]
@[simp] theorem finish_ext (s : State) : (finish s).ext = s.ext := by simp [finish]
@[simp] theorem finish_inCnt (s : State) : (finish s).inCnt = s.inCnt := by simp [finish]
@[simp] theorem finish_estBytes (s : State) : (finish s).estBytes = s.estBytes := by simp [finish]
@[simp] theorem finish_nleaf (s : State) : (finish s).nleaf = s.nleaf := by simp [finish]
@[simp] theorem finish_nnode (s : State) : (finish s).nnode = s.nnode := by simp [finish]
@[simp] theorem finish_pct (s : State) : (finish s).pct = 100 := by simp [finish]
@[simp] theorem finish_magicReg (s : State) : (finish s).magicReg = s.magicReg := by simp [finish]
@[simp] theorem finish_termReg (s : State) : (finish s).termReg = s.termReg := by simp [finish]
@[simp] theorem finish_freq (s : State) : (finish s).freq = s.freq := by simp [finish]
@[simp] theorem finish_queue (s : State) : (finish s).queue = s.queue := by simp [finish]
@[simp] theorem finish_stack (s : State) : (finish s).stack = s.stack := by simp [finish]
@[simp] theorem finish_tree (s : State) : (finish s).tree = s.tree := by simp [finish]
@[simp] theorem finish_codes (s : State) : (finish s).codes = s.codes := by simp [finish]
@[simp] theorem finish_out (s : State) : (finish s).out = s.out := by simp [finish]
@[simp] theorem finish_dec (s : State) : (finish s).dec = s.dec := by simp [finish]
@[simp] theorem finish_events (s : State) : (finish s).events = s.events := by simp [finish]
@[simp] theorem finish_reply (s : State) : (finish s).reply = s.reply := by simp [finish]
@[simp] theorem finish_draws (s : State) : (finish s).draws = s.draws := by simp [finish]

/-! `returnToIdle`: one lemma per field. -/

@[simp] theorem returnToIdle_phase (s : State) : (returnToIdle s).phase = .idle := rfl
@[simp] theorem returnToIdle_op (s : State) : (returnToIdle s).op = .none := rfl
@[simp] theorem returnToIdle_cmderr (s : State) : (returnToIdle s).cmderr = false := rfl
@[simp] theorem returnToIdle_discard (s : State) : (returnToIdle s).discard = false := rfl
@[simp] theorem returnToIdle_freqValid (s : State) : (returnToIdle s).freqValid = s.freqValid := rfl
@[simp] theorem returnToIdle_codeValid (s : State) : (returnToIdle s).codeValid = s.codeValid := rfl
@[simp] theorem returnToIdle_err (s : State) : (returnToIdle s).err = { code := .none, phase := .idle, info := 0 } := rfl
@[simp] theorem returnToIdle_badCmd (s : State) : (returnToIdle s).badCmd = s.badCmd := rfl
@[simp] theorem returnToIdle_force (s : State) : (returnToIdle s).force = s.force := rfl
@[simp] theorem returnToIdle_irqEn (s : State) : (returnToIdle s).irqEn = s.irqEn := rfl
@[simp] theorem returnToIdle_irqPend (s : State) : (returnToIdle s).irqPend = 0 := rfl
@[simp] theorem returnToIdle_totalLen (s : State) : (returnToIdle s).totalLen = s.totalLen := rfl
@[simp] theorem returnToIdle_extLen (s : State) : (returnToIdle s).extLen = s.extLen := rfl
@[simp] theorem returnToIdle_ext (s : State) : (returnToIdle s).ext = s.ext := rfl
@[simp] theorem returnToIdle_inCnt (s : State) : (returnToIdle s).inCnt = 0 := rfl
@[simp] theorem returnToIdle_estBytes (s : State) : (returnToIdle s).estBytes = s.estBytes := rfl
@[simp] theorem returnToIdle_nleaf (s : State) : (returnToIdle s).nleaf = s.nleaf := rfl
@[simp] theorem returnToIdle_nnode (s : State) : (returnToIdle s).nnode = s.nnode := rfl
@[simp] theorem returnToIdle_pct (s : State) : (returnToIdle s).pct = 0 := rfl
@[simp] theorem returnToIdle_magicReg (s : State) : (returnToIdle s).magicReg = s.magicReg := rfl
@[simp] theorem returnToIdle_termReg (s : State) : (returnToIdle s).termReg = s.termReg := rfl
@[simp] theorem returnToIdle_freq (s : State) : (returnToIdle s).freq = s.freq := rfl
@[simp] theorem returnToIdle_queue (s : State) : (returnToIdle s).queue = s.queue := rfl
@[simp] theorem returnToIdle_stack (s : State) : (returnToIdle s).stack = s.stack := rfl
@[simp] theorem returnToIdle_tree (s : State) : (returnToIdle s).tree = s.tree := rfl
@[simp] theorem returnToIdle_codes (s : State) : (returnToIdle s).codes = s.codes := rfl
@[simp] theorem returnToIdle_out (s : State) : (returnToIdle s).out = { s.out with cnt := 0 } := rfl
@[simp] theorem returnToIdle_dec (s : State) : (returnToIdle s).dec = s.dec := rfl
@[simp] theorem returnToIdle_events (s : State) : (returnToIdle s).events = s.events := rfl
@[simp] theorem returnToIdle_reply (s : State) : (returnToIdle s).reply = s.reply := rfl
@[simp] theorem returnToIdle_draws (s : State) : (returnToIdle s).draws = s.draws := rfl

/-! `startOperation`: one lemma per field. -/

@[simp] theorem startOperation_phase (o : Op) (s : State) : (startOperation o s).phase = s.phase := rfl
@[simp] theorem startOperation_op (o : Op) (s : State) : (startOperation o s).op = o := rfl
@[simp] theorem startOperation_cmderr (o : Op) (s : State) : (startOperation o s).cmderr = s.cmderr := rfl
@[simp] theorem startOperation_discard (o : Op) (s : State) : (startOperation o s).discard = false := rfl
@[simp] theorem startOperation_freqValid (o : Op) (s : State) : (startOperation o s).freqValid = false := rfl
@[simp] theorem startOperation_codeValid (o : Op) (s : State) : (startOperation o s).codeValid = false := rfl
@[simp] theorem startOperation_err (o : Op) (s : State) : (startOperation o s).err = { code := .none, phase := .idle, info := 0 } := rfl
@[simp] theorem startOperation_badCmd (o : Op) (s : State) : (startOperation o s).badCmd = s.badCmd := rfl
@[simp] theorem startOperation_force (o : Op) (s : State) : (startOperation o s).force = s.force := rfl
@[simp] theorem startOperation_irqEn (o : Op) (s : State) : (startOperation o s).irqEn = s.irqEn := rfl
@[simp] theorem startOperation_irqPend (o : Op) (s : State) : (startOperation o s).irqPend = s.irqPend := rfl
@[simp] theorem startOperation_totalLen (o : Op) (s : State) : (startOperation o s).totalLen = s.totalLen := rfl
@[simp] theorem startOperation_extLen (o : Op) (s : State) : (startOperation o s).extLen = s.extLen := rfl
@[simp] theorem startOperation_ext (o : Op) (s : State) : (startOperation o s).ext = s.ext := rfl
@[simp] theorem startOperation_inCnt (o : Op) (s : State) : (startOperation o s).inCnt = 0 := rfl
@[simp] theorem startOperation_estBytes (o : Op) (s : State) : (startOperation o s).estBytes = 0 := rfl
@[simp] theorem startOperation_nleaf (o : Op) (s : State) : (startOperation o s).nleaf = 0 := rfl
@[simp] theorem startOperation_nnode (o : Op) (s : State) : (startOperation o s).nnode = 0 := rfl
@[simp] theorem startOperation_pct (o : Op) (s : State) : (startOperation o s).pct = 0 := rfl
@[simp] theorem startOperation_magicReg (o : Op) (s : State) : (startOperation o s).magicReg = s.magicReg := rfl
@[simp] theorem startOperation_termReg (o : Op) (s : State) : (startOperation o s).termReg = s.termReg := rfl
@[simp] theorem startOperation_freq (o : Op) (s : State) : (startOperation o s).freq = ftClear := rfl
@[simp] theorem startOperation_queue (o : Op) (s : State) : (startOperation o s).queue = s.queue := rfl
@[simp] theorem startOperation_stack (o : Op) (s : State) : (startOperation o s).stack = { s.stack with psn := 0 } := rfl
@[simp] theorem startOperation_tree (o : Op) (s : State) : (startOperation o s).tree = { s.tree with nn := 0, fill := 0, sentNode := 0 } := rfl
@[simp] theorem startOperation_codes (o : Op) (s : State) : (startOperation o s).codes = s.codes := rfl
@[simp] theorem startOperation_out (o : Op) (s : State) : (startOperation o s).out = { s.out with seq := [], cnt := 0, taken := 0 } := rfl
@[simp] theorem startOperation_dec (o : Op) (s : State) : (startOperation o s).dec = s.dec := rfl
@[simp] theorem startOperation_events (o : Op) (s : State) : (startOperation o s).events = s.events := rfl
@[simp] theorem startOperation_reply (o : Op) (s : State) : (startOperation o s).reply = s.reply := rfl
@[simp] theorem startOperation_draws (o : Op) (s : State) : (startOperation o s).draws = s.draws := rfl

/-! `encStarted`: one lemma per field. -/

@[simp] theorem encStarted_phase (s : State) : (encStarted s).phase = .encCount := rfl
@[simp] theorem encStarted_op (s : State) : (encStarted s).op = .compress := rfl
@[simp] theorem encStarted_cmderr (s : State) : (encStarted s).cmderr = s.cmderr := rfl
@[simp] theorem encStarted_discard (s : State) : (encStarted s).discard = false := rfl
@[simp] theorem encStarted_freqValid (s : State) : (encStarted s).freqValid = false := rfl
@[simp] theorem encStarted_codeValid (s : State) : (encStarted s).codeValid = false := rfl
@[simp] theorem encStarted_err (s : State) : (encStarted s).err = { code := .none, phase := .idle, info := 0 } := rfl
@[simp] theorem encStarted_badCmd (s : State) : (encStarted s).badCmd = s.badCmd := rfl
@[simp] theorem encStarted_force (s : State) : (encStarted s).force = s.force := rfl
@[simp] theorem encStarted_irqEn (s : State) : (encStarted s).irqEn = s.irqEn := rfl
@[simp] theorem encStarted_irqPend (s : State) : (encStarted s).irqPend = s.irqPend := rfl
@[simp] theorem encStarted_totalLen (s : State) : (encStarted s).totalLen = s.totalLen := rfl
@[simp] theorem encStarted_extLen (s : State) : (encStarted s).extLen = s.extLen := rfl
@[simp] theorem encStarted_ext (s : State) : (encStarted s).ext = s.ext := rfl
@[simp] theorem encStarted_inCnt (s : State) : (encStarted s).inCnt = 0 := rfl
@[simp] theorem encStarted_estBytes (s : State) : (encStarted s).estBytes = 0 := rfl
@[simp] theorem encStarted_nleaf (s : State) : (encStarted s).nleaf = 0 := rfl
@[simp] theorem encStarted_nnode (s : State) : (encStarted s).nnode = 0 := rfl
@[simp] theorem encStarted_pct (s : State) : (encStarted s).pct = 0 := rfl
@[simp] theorem encStarted_magicReg (s : State) : (encStarted s).magicReg = s.magicReg := rfl
@[simp] theorem encStarted_termReg (s : State) : (encStarted s).termReg = s.termReg := rfl
@[simp] theorem encStarted_freq (s : State) : (encStarted s).freq = ftClear := rfl
@[simp] theorem encStarted_queue (s : State) : (encStarted s).queue = s.queue := rfl
@[simp] theorem encStarted_stack (s : State) : (encStarted s).stack = { s.stack with psn := 0 } := rfl
@[simp] theorem encStarted_tree (s : State) : (encStarted s).tree = { s.tree with nn := 0, fill := 0, sentNode := 0 } := rfl
@[simp] theorem encStarted_codes (s : State) : (encStarted s).codes = s.codes := rfl
@[simp] theorem encStarted_out (s : State) : (encStarted s).out = { acc := 0, nb := 0, seq := [], cnt := 0, taken := 0 } := rfl
@[simp] theorem encStarted_dec (s : State) : (encStarted s).dec = s.dec := rfl
@[simp] theorem encStarted_events (s : State) : (encStarted s).events = s.events := rfl
@[simp] theorem encStarted_reply (s : State) : (encStarted s).reply = s.reply := rfl
@[simp] theorem encStarted_draws (s : State) : (encStarted s).draws = s.draws := rfl

/-! `decStarted`: one lemma per field. -/

@[simp] theorem decStarted_phase (s : State) : (decStarted s).phase = .decMagic := rfl
@[simp] theorem decStarted_op (s : State) : (decStarted s).op = .decompress := rfl
@[simp] theorem decStarted_cmderr (s : State) : (decStarted s).cmderr = s.cmderr := rfl
@[simp] theorem decStarted_discard (s : State) : (decStarted s).discard = false := rfl
@[simp] theorem decStarted_freqValid (s : State) : (decStarted s).freqValid = false := rfl
@[simp] theorem decStarted_codeValid (s : State) : (decStarted s).codeValid = false := rfl
@[simp] theorem decStarted_err (s : State) : (decStarted s).err = { code := .none, phase := .idle, info := 0 } := rfl
@[simp] theorem decStarted_badCmd (s : State) : (decStarted s).badCmd = s.badCmd := rfl
@[simp] theorem decStarted_force (s : State) : (decStarted s).force = s.force := rfl
@[simp] theorem decStarted_irqEn (s : State) : (decStarted s).irqEn = s.irqEn := rfl
@[simp] theorem decStarted_irqPend (s : State) : (decStarted s).irqPend = s.irqPend := rfl
@[simp] theorem decStarted_totalLen (s : State) : (decStarted s).totalLen = s.totalLen := rfl
@[simp] theorem decStarted_extLen (s : State) : (decStarted s).extLen = 0 := rfl
@[simp] theorem decStarted_ext (s : State) : (decStarted s).ext = s.ext := rfl
@[simp] theorem decStarted_inCnt (s : State) : (decStarted s).inCnt = 0 := rfl
@[simp] theorem decStarted_estBytes (s : State) : (decStarted s).estBytes = 0 := rfl
@[simp] theorem decStarted_nleaf (s : State) : (decStarted s).nleaf = 0 := rfl
@[simp] theorem decStarted_nnode (s : State) : (decStarted s).nnode = 0 := rfl
@[simp] theorem decStarted_pct (s : State) : (decStarted s).pct = 0 := rfl
@[simp] theorem decStarted_magicReg (s : State) : (decStarted s).magicReg = s.magicReg := rfl
@[simp] theorem decStarted_termReg (s : State) : (decStarted s).termReg = s.termReg := rfl
@[simp] theorem decStarted_freq (s : State) : (decStarted s).freq = ftClear := rfl
@[simp] theorem decStarted_queue (s : State) : (decStarted s).queue = s.queue := rfl
@[simp] theorem decStarted_stack (s : State) : (decStarted s).stack = { s.stack with psn := 0 } := rfl
@[simp] theorem decStarted_tree (s : State) : (decStarted s).tree = { s.tree with nn := 0, fill := 0, sentNode := 0 } := rfl
@[simp] theorem decStarted_codes (s : State) : (decStarted s).codes = s.codes := rfl
@[simp] theorem decStarted_out (s : State) : (decStarted s).out = { s.out with seq := [], cnt := 0, taken := 0 } := rfl
@[simp] theorem decStarted_dec (s : State) : (decStarted s).dec = { magAcc := 0, magN := 0, dstate := .mark, symAcc := 0, symCnt := 0, slot := 0, cur := 0 } := rfl
@[simp] theorem decStarted_events (s : State) : (decStarted s).events = s.events := rfl
@[simp] theorem decStarted_reply (s : State) : (decStarted s).reply = s.reply := rfl
@[simp] theorem decStarted_draws (s : State) : (decStarted s).draws = s.draws := rfl

/-! `extEnd`: one lemma per field. -/

@[simp] theorem extEnd_phase (s : State) : (extEnd s).phase = .decWait := rfl
@[simp] theorem extEnd_op (s : State) : (extEnd s).op = s.op := rfl
@[simp] theorem extEnd_cmderr (s : State) : (extEnd s).cmderr = s.cmderr := rfl
@[simp] theorem extEnd_discard (s : State) : (extEnd s).discard = s.discard := rfl
@[simp] theorem extEnd_freqValid (s : State) : (extEnd s).freqValid = s.freqValid := rfl
@[simp] theorem extEnd_codeValid (s : State) : (extEnd s).codeValid = s.codeValid := rfl
@[simp] theorem extEnd_err (s : State) : (extEnd s).err = s.err := rfl
@[simp] theorem extEnd_badCmd (s : State) : (extEnd s).badCmd = s.badCmd := rfl
@[simp] theorem extEnd_force (s : State) : (extEnd s).force = s.force := rfl
@[simp] theorem extEnd_irqEn (s : State) : (extEnd s).irqEn = s.irqEn := rfl
@[simp] theorem extEnd_irqPend (s : State) : (extEnd s).irqPend = s.irqPend ||| Irq.wait.bit := rfl
@[simp] theorem extEnd_totalLen (s : State) : (extEnd s).totalLen = s.totalLen := rfl
@[simp] theorem extEnd_extLen (s : State) : (extEnd s).extLen = s.extLen := rfl
@[simp] theorem extEnd_ext (s : State) : (extEnd s).ext = s.ext := rfl
@[simp] theorem extEnd_inCnt (s : State) : (extEnd s).inCnt = s.inCnt := rfl
@[simp] theorem extEnd_estBytes (s : State) : (extEnd s).estBytes = s.estBytes := rfl
@[simp] theorem extEnd_nleaf (s : State) : (extEnd s).nleaf = s.nleaf := rfl
@[simp] theorem extEnd_nnode (s : State) : (extEnd s).nnode = s.nnode := rfl
@[simp] theorem extEnd_pct (s : State) : (extEnd s).pct = s.pct := rfl
@[simp] theorem extEnd_magicReg (s : State) : (extEnd s).magicReg = s.magicReg := rfl
@[simp] theorem extEnd_termReg (s : State) : (extEnd s).termReg = s.termReg := rfl
@[simp] theorem extEnd_freq (s : State) : (extEnd s).freq = s.freq := rfl
@[simp] theorem extEnd_queue (s : State) : (extEnd s).queue = s.queue := rfl
@[simp] theorem extEnd_stack (s : State) : (extEnd s).stack = s.stack := rfl
@[simp] theorem extEnd_tree (s : State) : (extEnd s).tree = s.tree := rfl
@[simp] theorem extEnd_codes (s : State) : (extEnd s).codes = s.codes := rfl
@[simp] theorem extEnd_out (s : State) : (extEnd s).out = s.out := rfl
@[simp] theorem extEnd_dec (s : State) : (extEnd s).dec = s.dec := rfl
@[simp] theorem extEnd_events (s : State) : (extEnd s).events = s.events := rfl
@[simp] theorem extEnd_reply (s : State) : (extEnd s).reply = s.reply := rfl
@[simp] theorem extEnd_draws (s : State) : (extEnd s).draws = s.draws := rfl

/-! `recordSizes`: one lemma per field. -/

@[simp] theorem recordSizes_phase (s : State) : (recordSizes s).phase = s.phase := rfl
@[simp] theorem recordSizes_op (s : State) : (recordSizes s).op = s.op := rfl
@[simp] theorem recordSizes_cmderr (s : State) : (recordSizes s).cmderr = s.cmderr := rfl
@[simp] theorem recordSizes_discard (s : State) : (recordSizes s).discard = s.discard := rfl
@[simp] theorem recordSizes_freqValid (s : State) : (recordSizes s).freqValid = s.freqValid := rfl
@[simp] theorem recordSizes_codeValid (s : State) : (recordSizes s).codeValid = s.codeValid := rfl
@[simp] theorem recordSizes_err (s : State) : (recordSizes s).err = s.err := rfl
@[simp] theorem recordSizes_badCmd (s : State) : (recordSizes s).badCmd = s.badCmd := rfl
@[simp] theorem recordSizes_force (s : State) : (recordSizes s).force = s.force := rfl
@[simp] theorem recordSizes_irqEn (s : State) : (recordSizes s).irqEn = s.irqEn := rfl
@[simp] theorem recordSizes_irqPend (s : State) : (recordSizes s).irqPend = s.irqPend := rfl
@[simp] theorem recordSizes_totalLen (s : State) : (recordSizes s).totalLen = s.totalLen := rfl
@[simp] theorem recordSizes_extLen (s : State) : (recordSizes s).extLen = s.extLen := rfl
@[simp] theorem recordSizes_ext (s : State) : (recordSizes s).ext = s.ext := rfl
@[simp] theorem recordSizes_inCnt (s : State) : (recordSizes s).inCnt = s.inCnt := rfl
@[simp] theorem recordSizes_estBytes (s : State) : (recordSizes s).estBytes = s.estBytes := rfl
@[simp] theorem recordSizes_nleaf (s : State) : (recordSizes s).nleaf = BitVec.ofNat 9 (leafCount s.tree.node s.tree.nn.toNat) := rfl
@[simp] theorem recordSizes_nnode (s : State) : (recordSizes s).nnode = s.tree.nn := rfl
@[simp] theorem recordSizes_pct (s : State) : (recordSizes s).pct = s.pct := rfl
@[simp] theorem recordSizes_magicReg (s : State) : (recordSizes s).magicReg = s.magicReg := rfl
@[simp] theorem recordSizes_termReg (s : State) : (recordSizes s).termReg = s.termReg := rfl
@[simp] theorem recordSizes_freq (s : State) : (recordSizes s).freq = s.freq := rfl
@[simp] theorem recordSizes_queue (s : State) : (recordSizes s).queue = s.queue := rfl
@[simp] theorem recordSizes_stack (s : State) : (recordSizes s).stack = s.stack := rfl
@[simp] theorem recordSizes_tree (s : State) : (recordSizes s).tree = s.tree := rfl
@[simp] theorem recordSizes_codes (s : State) : (recordSizes s).codes = s.codes := rfl
@[simp] theorem recordSizes_out (s : State) : (recordSizes s).out = s.out := rfl
@[simp] theorem recordSizes_dec (s : State) : (recordSizes s).dec = s.dec := rfl
@[simp] theorem recordSizes_events (s : State) : (recordSizes s).events = s.events := rfl
@[simp] theorem recordSizes_reply (s : State) : (recordSizes s).reply = s.reply := rfl
@[simp] theorem recordSizes_draws (s : State) : (recordSizes s).draws = s.draws := rfl

/-! `estimate`: one lemma per field. -/

@[simp] theorem estimate_phase (s : State) : (estimate s).phase = s.phase := rfl
@[simp] theorem estimate_op (s : State) : (estimate s).op = s.op := rfl
@[simp] theorem estimate_cmderr (s : State) : (estimate s).cmderr = s.cmderr := rfl
@[simp] theorem estimate_discard (s : State) : (estimate s).discard = s.discard := rfl
@[simp] theorem estimate_freqValid (s : State) : (estimate s).freqValid = s.freqValid := rfl
@[simp] theorem estimate_codeValid (s : State) : (estimate s).codeValid = s.codeValid := rfl
@[simp] theorem estimate_err (s : State) : (estimate s).err = s.err := rfl
@[simp] theorem estimate_badCmd (s : State) : (estimate s).badCmd = s.badCmd := rfl
@[simp] theorem estimate_force (s : State) : (estimate s).force = s.force := rfl
@[simp] theorem estimate_irqEn (s : State) : (estimate s).irqEn = s.irqEn := rfl
@[simp] theorem estimate_irqPend (s : State) : (estimate s).irqPend = s.irqPend := rfl
@[simp] theorem estimate_totalLen (s : State) : (estimate s).totalLen = s.totalLen := rfl
@[simp] theorem estimate_extLen (s : State) : (estimate s).extLen = s.extLen := rfl
@[simp] theorem estimate_ext (s : State) : (estimate s).ext = s.ext := rfl
@[simp] theorem estimate_inCnt (s : State) : (estimate s).inCnt = s.inCnt := rfl
@[simp] theorem estimate_estBytes (s : State) : (estimate s).estBytes = BitVec.ofNat 64 ((headerBits s + payloadBits s.freq s.codes.len + 7) / 8) := rfl
@[simp] theorem estimate_nleaf (s : State) : (estimate s).nleaf = s.nleaf := rfl
@[simp] theorem estimate_nnode (s : State) : (estimate s).nnode = s.nnode := rfl
@[simp] theorem estimate_pct (s : State) : (estimate s).pct = s.pct := rfl
@[simp] theorem estimate_magicReg (s : State) : (estimate s).magicReg = s.magicReg := rfl
@[simp] theorem estimate_termReg (s : State) : (estimate s).termReg = s.termReg := rfl
@[simp] theorem estimate_freq (s : State) : (estimate s).freq = s.freq := rfl
@[simp] theorem estimate_queue (s : State) : (estimate s).queue = s.queue := rfl
@[simp] theorem estimate_stack (s : State) : (estimate s).stack = s.stack := rfl
@[simp] theorem estimate_tree (s : State) : (estimate s).tree = s.tree := rfl
@[simp] theorem estimate_codes (s : State) : (estimate s).codes = s.codes := rfl
@[simp] theorem estimate_out (s : State) : (estimate s).out = s.out := rfl
@[simp] theorem estimate_dec (s : State) : (estimate s).dec = s.dec := rfl
@[simp] theorem estimate_events (s : State) : (estimate s).events = s.events := rfl
@[simp] theorem estimate_reply (s : State) : (estimate s).reply = s.reply := rfl
@[simp] theorem estimate_draws (s : State) : (estimate s).draws = s.draws := rfl

/-! `writeHeader`: one lemma per field. -/

@[simp] theorem writeHeader_phase (s : State) : (writeHeader s).phase = s.phase := by simp only [writeHeader]
@[simp] theorem writeHeader_op (s : State) : (writeHeader s).op = s.op := by simp only [writeHeader]
@[simp] theorem writeHeader_cmderr (s : State) : (writeHeader s).cmderr = s.cmderr := by simp only [writeHeader]
@[simp] theorem writeHeader_discard (s : State) : (writeHeader s).discard = s.discard := by simp only [writeHeader]
@[simp] theorem writeHeader_freqValid (s : State) : (writeHeader s).freqValid = s.freqValid := by simp only [writeHeader]
@[simp] theorem writeHeader_codeValid (s : State) : (writeHeader s).codeValid = s.codeValid := by simp only [writeHeader]
@[simp] theorem writeHeader_err (s : State) : (writeHeader s).err = s.err := by simp only [writeHeader]
@[simp] theorem writeHeader_badCmd (s : State) : (writeHeader s).badCmd = s.badCmd := by simp only [writeHeader]
@[simp] theorem writeHeader_force (s : State) : (writeHeader s).force = s.force := by simp only [writeHeader]
@[simp] theorem writeHeader_irqEn (s : State) : (writeHeader s).irqEn = s.irqEn := by simp only [writeHeader]
@[simp] theorem writeHeader_irqPend (s : State) : (writeHeader s).irqPend = s.irqPend := by simp only [writeHeader]
@[simp] theorem writeHeader_totalLen (s : State) : (writeHeader s).totalLen = s.totalLen := by simp only [writeHeader]
@[simp] theorem writeHeader_extLen (s : State) : (writeHeader s).extLen = s.extLen := by simp only [writeHeader]
@[simp] theorem writeHeader_ext (s : State) : (writeHeader s).ext = s.ext := by simp only [writeHeader]
@[simp] theorem writeHeader_inCnt (s : State) : (writeHeader s).inCnt = s.inCnt := by simp only [writeHeader]
@[simp] theorem writeHeader_estBytes (s : State) : (writeHeader s).estBytes = s.estBytes := by simp only [writeHeader]
@[simp] theorem writeHeader_nleaf (s : State) : (writeHeader s).nleaf = s.nleaf := by simp only [writeHeader]
@[simp] theorem writeHeader_nnode (s : State) : (writeHeader s).nnode = s.nnode := by simp only [writeHeader]
@[simp] theorem writeHeader_pct (s : State) : (writeHeader s).pct = s.pct := by simp only [writeHeader]
@[simp] theorem writeHeader_magicReg (s : State) : (writeHeader s).magicReg = s.magicReg := by simp only [writeHeader]
@[simp] theorem writeHeader_termReg (s : State) : (writeHeader s).termReg = s.termReg := by simp only [writeHeader]
@[simp] theorem writeHeader_freq (s : State) : (writeHeader s).freq = s.freq := by simp only [writeHeader]
@[simp] theorem writeHeader_queue (s : State) : (writeHeader s).queue = s.queue := by simp only [writeHeader]
@[simp] theorem writeHeader_stack (s : State) : (writeHeader s).stack = s.stack := by simp only [writeHeader]
@[simp] theorem writeHeader_tree (s : State) : (writeHeader s).tree = s.tree := by simp only [writeHeader]
@[simp] theorem writeHeader_codes (s : State) : (writeHeader s).codes = s.codes := by simp only [writeHeader]
@[simp] theorem writeHeader_dec (s : State) : (writeHeader s).dec = s.dec := by simp only [writeHeader]
@[simp] theorem writeHeader_events (s : State) : (writeHeader s).events = s.events := by simp only [writeHeader]
@[simp] theorem writeHeader_reply (s : State) : (writeHeader s).reply = s.reply := by simp only [writeHeader]
@[simp] theorem writeHeader_draws (s : State) : (writeHeader s).draws = s.draws := by simp only [writeHeader]

/-! `hostRead`: one lemma per field. -/

@[simp] theorem hostRead_phase (a : BitVec 15) (s : State) : (hostRead a s).phase = s.phase := by unfold hostRead; split <;> rfl
@[simp] theorem hostRead_op (a : BitVec 15) (s : State) : (hostRead a s).op = s.op := by unfold hostRead; split <;> rfl
@[simp] theorem hostRead_cmderr (a : BitVec 15) (s : State) : (hostRead a s).cmderr = s.cmderr := by unfold hostRead; split <;> rfl
@[simp] theorem hostRead_discard (a : BitVec 15) (s : State) : (hostRead a s).discard = s.discard := by unfold hostRead; split <;> rfl
@[simp] theorem hostRead_freqValid (a : BitVec 15) (s : State) : (hostRead a s).freqValid = s.freqValid := by unfold hostRead; split <;> rfl
@[simp] theorem hostRead_codeValid (a : BitVec 15) (s : State) : (hostRead a s).codeValid = s.codeValid := by unfold hostRead; split <;> rfl
@[simp] theorem hostRead_err (a : BitVec 15) (s : State) : (hostRead a s).err = s.err := by unfold hostRead; split <;> rfl
@[simp] theorem hostRead_badCmd (a : BitVec 15) (s : State) : (hostRead a s).badCmd = s.badCmd := by unfold hostRead; split <;> rfl
@[simp] theorem hostRead_force (a : BitVec 15) (s : State) : (hostRead a s).force = s.force := by unfold hostRead; split <;> rfl
@[simp] theorem hostRead_irqEn (a : BitVec 15) (s : State) : (hostRead a s).irqEn = s.irqEn := by unfold hostRead; split <;> rfl
@[simp] theorem hostRead_irqPend (a : BitVec 15) (s : State) : (hostRead a s).irqPend = s.irqPend := by unfold hostRead; split <;> rfl
@[simp] theorem hostRead_totalLen (a : BitVec 15) (s : State) : (hostRead a s).totalLen = s.totalLen := by unfold hostRead; split <;> rfl
@[simp] theorem hostRead_extLen (a : BitVec 15) (s : State) : (hostRead a s).extLen = s.extLen := by unfold hostRead; split <;> rfl
@[simp] theorem hostRead_ext (a : BitVec 15) (s : State) : (hostRead a s).ext = s.ext := by unfold hostRead; split <;> rfl
@[simp] theorem hostRead_inCnt (a : BitVec 15) (s : State) : (hostRead a s).inCnt = s.inCnt := by unfold hostRead; split <;> rfl
@[simp] theorem hostRead_estBytes (a : BitVec 15) (s : State) : (hostRead a s).estBytes = s.estBytes := by unfold hostRead; split <;> rfl
@[simp] theorem hostRead_nleaf (a : BitVec 15) (s : State) : (hostRead a s).nleaf = s.nleaf := by unfold hostRead; split <;> rfl
@[simp] theorem hostRead_nnode (a : BitVec 15) (s : State) : (hostRead a s).nnode = s.nnode := by unfold hostRead; split <;> rfl
@[simp] theorem hostRead_pct (a : BitVec 15) (s : State) : (hostRead a s).pct = s.pct := by unfold hostRead; split <;> rfl
@[simp] theorem hostRead_magicReg (a : BitVec 15) (s : State) : (hostRead a s).magicReg = s.magicReg := by unfold hostRead; split <;> rfl
@[simp] theorem hostRead_termReg (a : BitVec 15) (s : State) : (hostRead a s).termReg = s.termReg := by unfold hostRead; split <;> rfl
@[simp] theorem hostRead_freq (a : BitVec 15) (s : State) : (hostRead a s).freq = s.freq := by unfold hostRead; split <;> rfl
@[simp] theorem hostRead_queue (a : BitVec 15) (s : State) : (hostRead a s).queue = s.queue := by unfold hostRead; split <;> rfl
@[simp] theorem hostRead_stack (a : BitVec 15) (s : State) : (hostRead a s).stack = s.stack := by unfold hostRead; split <;> rfl
@[simp] theorem hostRead_tree (a : BitVec 15) (s : State) : (hostRead a s).tree = s.tree := by unfold hostRead; split <;> rfl
@[simp] theorem hostRead_codes (a : BitVec 15) (s : State) : (hostRead a s).codes = s.codes := by unfold hostRead; split <;> rfl
@[simp] theorem hostRead_out (a : BitVec 15) (s : State) : (hostRead a s).out = s.out := by unfold hostRead; split <;> rfl
@[simp] theorem hostRead_dec (a : BitVec 15) (s : State) : (hostRead a s).dec = s.dec := by unfold hostRead; split <;> rfl
@[simp] theorem hostRead_events (a : BitVec 15) (s : State) : (hostRead a s).events = s.events := by unfold hostRead; split <;> rfl

/-! `refuseAccess`: one lemma per field. -/

@[simp] theorem refuseAccess_phase (s : State) : (refuseAccess s).phase = s.phase := rfl
@[simp] theorem refuseAccess_op (s : State) : (refuseAccess s).op = s.op := rfl
@[simp] theorem refuseAccess_cmderr (s : State) : (refuseAccess s).cmderr = s.cmderr := rfl
@[simp] theorem refuseAccess_discard (s : State) : (refuseAccess s).discard = s.discard := rfl
@[simp] theorem refuseAccess_freqValid (s : State) : (refuseAccess s).freqValid = s.freqValid := rfl
@[simp] theorem refuseAccess_codeValid (s : State) : (refuseAccess s).codeValid = s.codeValid := rfl
@[simp] theorem refuseAccess_err (s : State) : (refuseAccess s).err = s.err := rfl
@[simp] theorem refuseAccess_badCmd (s : State) : (refuseAccess s).badCmd = s.badCmd := rfl
@[simp] theorem refuseAccess_force (s : State) : (refuseAccess s).force = s.force := rfl
@[simp] theorem refuseAccess_irqEn (s : State) : (refuseAccess s).irqEn = s.irqEn := rfl
@[simp] theorem refuseAccess_irqPend (s : State) : (refuseAccess s).irqPend = s.irqPend := rfl
@[simp] theorem refuseAccess_totalLen (s : State) : (refuseAccess s).totalLen = s.totalLen := rfl
@[simp] theorem refuseAccess_extLen (s : State) : (refuseAccess s).extLen = s.extLen := rfl
@[simp] theorem refuseAccess_ext (s : State) : (refuseAccess s).ext = s.ext := rfl
@[simp] theorem refuseAccess_inCnt (s : State) : (refuseAccess s).inCnt = s.inCnt := rfl
@[simp] theorem refuseAccess_estBytes (s : State) : (refuseAccess s).estBytes = s.estBytes := rfl
@[simp] theorem refuseAccess_nleaf (s : State) : (refuseAccess s).nleaf = s.nleaf := rfl
@[simp] theorem refuseAccess_nnode (s : State) : (refuseAccess s).nnode = s.nnode := rfl
@[simp] theorem refuseAccess_pct (s : State) : (refuseAccess s).pct = s.pct := rfl
@[simp] theorem refuseAccess_magicReg (s : State) : (refuseAccess s).magicReg = s.magicReg := rfl
@[simp] theorem refuseAccess_termReg (s : State) : (refuseAccess s).termReg = s.termReg := rfl
@[simp] theorem refuseAccess_freq (s : State) : (refuseAccess s).freq = s.freq := rfl
@[simp] theorem refuseAccess_queue (s : State) : (refuseAccess s).queue = s.queue := rfl
@[simp] theorem refuseAccess_stack (s : State) : (refuseAccess s).stack = s.stack := rfl
@[simp] theorem refuseAccess_tree (s : State) : (refuseAccess s).tree = s.tree := rfl
@[simp] theorem refuseAccess_codes (s : State) : (refuseAccess s).codes = s.codes := rfl
@[simp] theorem refuseAccess_out (s : State) : (refuseAccess s).out = s.out := rfl
@[simp] theorem refuseAccess_dec (s : State) : (refuseAccess s).dec = s.dec := rfl
@[simp] theorem refuseAccess_events (s : State) : (refuseAccess s).events = s.events := rfl
@[simp] theorem refuseAccess_reply (s : State) : (refuseAccess s).reply = .busError := rfl
@[simp] theorem refuseAccess_draws (s : State) : (refuseAccess s).draws = s.draws := rfl

/-! `outTransfer`: one lemma per field. -/

@[simp] theorem outTransfer_phase (s : State) : (outTransfer s).phase = s.phase := rfl
@[simp] theorem outTransfer_op (s : State) : (outTransfer s).op = s.op := rfl
@[simp] theorem outTransfer_cmderr (s : State) : (outTransfer s).cmderr = s.cmderr := rfl
@[simp] theorem outTransfer_discard (s : State) : (outTransfer s).discard = s.discard := rfl
@[simp] theorem outTransfer_freqValid (s : State) : (outTransfer s).freqValid = s.freqValid := rfl
@[simp] theorem outTransfer_codeValid (s : State) : (outTransfer s).codeValid = s.codeValid := rfl
@[simp] theorem outTransfer_err (s : State) : (outTransfer s).err = s.err := rfl
@[simp] theorem outTransfer_badCmd (s : State) : (outTransfer s).badCmd = s.badCmd := rfl
@[simp] theorem outTransfer_force (s : State) : (outTransfer s).force = s.force := rfl
@[simp] theorem outTransfer_irqEn (s : State) : (outTransfer s).irqEn = s.irqEn := rfl
@[simp] theorem outTransfer_irqPend (s : State) : (outTransfer s).irqPend = s.irqPend := rfl
@[simp] theorem outTransfer_totalLen (s : State) : (outTransfer s).totalLen = s.totalLen := rfl
@[simp] theorem outTransfer_extLen (s : State) : (outTransfer s).extLen = s.extLen := rfl
@[simp] theorem outTransfer_ext (s : State) : (outTransfer s).ext = s.ext := rfl
@[simp] theorem outTransfer_inCnt (s : State) : (outTransfer s).inCnt = s.inCnt := rfl
@[simp] theorem outTransfer_estBytes (s : State) : (outTransfer s).estBytes = s.estBytes := rfl
@[simp] theorem outTransfer_nleaf (s : State) : (outTransfer s).nleaf = s.nleaf := rfl
@[simp] theorem outTransfer_nnode (s : State) : (outTransfer s).nnode = s.nnode := rfl
@[simp] theorem outTransfer_pct (s : State) : (outTransfer s).pct = s.pct := rfl
@[simp] theorem outTransfer_magicReg (s : State) : (outTransfer s).magicReg = s.magicReg := rfl
@[simp] theorem outTransfer_termReg (s : State) : (outTransfer s).termReg = s.termReg := rfl
@[simp] theorem outTransfer_freq (s : State) : (outTransfer s).freq = s.freq := rfl
@[simp] theorem outTransfer_queue (s : State) : (outTransfer s).queue = s.queue := rfl
@[simp] theorem outTransfer_stack (s : State) : (outTransfer s).stack = s.stack := rfl
@[simp] theorem outTransfer_tree (s : State) : (outTransfer s).tree = s.tree := rfl
@[simp] theorem outTransfer_codes (s : State) : (outTransfer s).codes = s.codes := rfl
@[simp] theorem outTransfer_out (s : State) : (outTransfer s).out = { s.out with taken := s.out.taken + 1 } := rfl
@[simp] theorem outTransfer_dec (s : State) : (outTransfer s).dec = s.dec := rfl
@[simp] theorem outTransfer_events (s : State) : (outTransfer s).events = s.events := rfl
@[simp] theorem outTransfer_reply (s : State) : (outTransfer s).reply = s.reply := rfl
@[simp] theorem outTransfer_draws (s : State) : (outTransfer s).draws = s.draws := rfl

end Sys2Proof.Machine
end

