-- ==== Sys2Proof/Laws/Flow.lean ====
section
/-!
SUPPORT. How statements about a transition go through its steps: `Flow.post` says what holds where it goes on and where
it has ended, `Flow.runs` says besides that it does not stop. One lemma each for `bind` and `outcome`.
-/

namespace Sys2Proof.Machine

/-- `G` holds of the state where the transition goes on, `E` where it has ended; nothing is said of a stop. -/
def Flow.post (m : Flow) (G E : State → Prop) : Prop :=
  match m with
  | .go s => G s
  | .ended s => E s
  | .stop _ => True
  | .refuse _ => True

/-- As `post`, and the transition does not stop. -/
def Flow.runs (m : Flow) (G E : State → Prop) : Prop :=
  match m with
  | .go s => G s
  | .ended s => E s
  | .stop _ => False
  | .refuse _ => False

section
variable {m : Flow} {f : State → Flow} {G G' E E' : State → Prop} {s t : State}

@[simp] theorem Flow.post_go : (Flow.go s).post G E = G s := rfl
@[simp] theorem Flow.post_ended : (Flow.ended s).post G E = E s := rfl
@[simp] theorem Flow.post_stop {e : Fault} : (Flow.stop e).post G E = True := rfl
@[simp] theorem Flow.post_refuse {r : Refusal} : (Flow.refuse r).post G E = True := rfl
@[simp] theorem Flow.runs_go : (Flow.go s).runs G E = G s := rfl
@[simp] theorem Flow.runs_ended : (Flow.ended s).runs G E = E s := rfl
@[simp] theorem Flow.runs_stop {e : Fault} : (Flow.stop e).runs G E = False := rfl
@[simp] theorem Flow.runs_refuse {r : Refusal} : (Flow.refuse r).runs G E = False := rfl

theorem Flow.post_mono (h : m.post G E) (hG : ∀ s, G s → G' s) (hE : ∀ s, E s → E' s) : m.post G' E' := by
  cases m with
  | go s => exact hG s h
  | ended s => exact hE s h
  | stop e => trivial
  | refuse r => trivial

theorem Flow.runs_mono (h : m.runs G E) (hG : ∀ s, G s → G' s) (hE : ∀ s, E s → E' s) : m.runs G' E' := by
  cases m with
  | go s => exact hG s h
  | ended s => exact hE s h
  | stop e => exact h
  | refuse r => exact h

theorem Flow.post_bind (h : m.post G E) (hf : ∀ s, G s → (f s).post G' E) : (m.bind f).post G' E := by
  cases m with
  | go s => exact hf s h
  | ended s => exact h
  | stop e => trivial
  | refuse r => trivial

theorem Flow.runs_bind (h : m.runs G E) (hf : ∀ s, G s → (f s).runs G' E) : (m.bind f).runs G' E := by
  cases m with
  | go s => exact hf s h
  | ended s => exact h
  | stop e => exact h
  | refuse r => exact h

/-- A transition that runs says the same of its next state. -/
theorem Flow.runs_post (h : m.runs G E) : m.post G E := by
  cases m with
  | go s => exact h
  | ended s => exact h
  | stop e => exact h.elim
  | refuse r => exact h.elim

theorem Flow.next_of_post (h : m.post G G) (ht : m.outcome = .next t) : G t := by
  cases m <;> simp only [outcome_go, outcome_ended, outcome_stop, outcome_refuse, Host.Outcome.next.injEq, reduceCtorEq] at ht
  · exact ht ▸ h
  · exact ht ▸ h

theorem Flow.next_of_runs (h : m.runs G G) : ∃ t, m.outcome = .next t ∧ G t := by
  cases m with
  | go s => exact ⟨s, rfl, h⟩
  | ended s => exact ⟨s, rfl, h⟩
  | stop e => exact h.elim
  | refuse r => exact h.elim

end

end Sys2Proof.Machine
end

