-- ==== Sys2Proof/Laws/Decoding.lean ====
section
/-!
SUPPORT. Decoding bit by bit: one lemma per unit (rebuild, code derivation, a skeleton bit, a payload bit, a run of bits)
that says what it changes, and one that says when it does not stop.
-/

namespace Sys2Proof.Machine

/-- The state with PHASE, the output path, the tree, the pair stack, the code table and the decoder's registers put at
fixed values: what decoding bits never touches. -/
def untouched (s : State) : State :=
  { s with
    phase := .idle, codeValid := false, nleaf := 0, nnode := 0, stack := State.reset.stack, tree := State.reset.tree
    codes := State.reset.codes, out := State.reset.out, dec := State.reset.dec }

/-- `t` differs from `s` at most in PHASE and in the tree, the pair stack, the code table and the decoder's registers. -/
structure Quiet (s t : State) : Prop where
  rest : untouched t = untouched s
  out : t.out = s.out

theorem Quiet.refl (s : State) : Quiet s s := ⟨rfl, rfl⟩

theorem Quiet.trans {s t u : State} (h : Quiet s t) (g : Quiet t u) : Quiet s u :=
  ⟨g.rest.trans h.rest, g.out.trans h.out⟩

/-! ### The skeleton's end -/

/-- The cut of R202: the length up to the last entry with a symbol. -/
theorem realSlots_spec (l : List Entry) :
    realSlots l ≤ l.length ∧ (∀ i e, realSlots l ≤ i → l[i]? = some e → e.sym = none) ∧
    (realSlots l ≠ 0 → ∃ e s, l[realSlots l - 1]? = some e ∧ e.sym = some s) := by
  induction l with
  | nil => exact ⟨Nat.le_refl _, fun i e _ h => by simp at h, fun h => absurd rfl h⟩
  | cons e rest ih =>
    obtain ⟨h1, h2, h3⟩ := ih
    rw [realSlots]
    cases hr : realSlots rest with
    | zero =>
      rw [hr] at h2
      simp only
      cases hs : e.sym with
      | none =>
        refine ⟨by simp, fun i x _ hx => ?_, fun h => absurd rfl h⟩
        cases i with
        | zero => simp at hx; rw [← hx]; exact hs
        | succ i => exact h2 i x (by omega) (by simpa using hx)
      | some s =>
        refine ⟨by simp, fun i x hi hx => ?_, fun _ => ⟨e, s, by simp, hs⟩⟩
        cases i with
        | zero => simp at hi
        | succ i => exact h2 i x (by omega) (by simpa using hx)
    | succ n =>
      rw [hr] at h1 h2 h3
      simp only
      refine ⟨by simp; omega, fun i x hi hx => ?_, fun _ => ?_⟩
      · cases i with
        | zero => omega
        | succ i => exact h2 i x (by omega) (by simpa using hx)
      · obtain ⟨x, s, hx, hs⟩ := h3 (by omega)
        refine ⟨x, s, ?_, hs⟩
        have : n + 2 - 1 = n + 1 := by omega
        rw [this, List.getElem?_cons_succ]
        simpa using hx

/-- The cut of R202 is the count up to the last entry with a symbol. -/
theorem realSlots_eq {l : List Entry} {n : Nat} {k : Sym} (hn : 0 < n) (h1 : (l.map Entry.sym)[n - 1]? = some (some k))
    (h2 : ∀ e ∈ (l.map Entry.sym).drop n, e = none) : realSlots l = n := by
  obtain ⟨_, b, c⟩ := realSlots_spec l
  have hl : n - 1 < l.length := by
    by_contra hc
    rw [List.getElem?_eq_none (by simp; omega)] at h1
    cases h1
  have he : l[n - 1]? = some l[n - 1] := by simp [hl]
  have hes : l[n - 1].sym = some k := by simpa [he] using h1
  rcases Nat.lt_trichotomy (realSlots l) n with h | h | h
  · have := b (n - 1) _ (by omega) he
    rw [hes] at this
    cases this
  · exact h
  · obtain ⟨x, s, hx, hs⟩ := c (by omega)
    have : x.sym = none := h2 _ (by
      rw [List.mem_iff_getElem?]
      refine ⟨realSlots l - 1 - n, ?_⟩
      rw [List.getElem?_drop, show n + (realSlots l - 1 - n) = realSlots l - 1 by omega, List.getElem?_map, hx]
      rfl)
    rw [hs] at this
    cases this

/-- A tree whose codes can be derived: finished, its symbols in the table, one leaf more than internal nodes. -/
structure GoodTree (t : Tree) : Prop where
  finished : treeFinished t
  symbols : ∀ (k : Nat) sym, k < t.nn.toNat → t.node[k]? = some (.leaf sym) → sym.toNat < 257
  leaves : 2 * leafCount t.node t.nn.toNat = t.nn.toNat + 1

theorem Assembled.goodTree {q : List (Option Sym)} {u : Tree} (a : Assembled q u)
    (h : ∀ s : Sym, some s ∈ q → s.toNat < 257) : GoodTree u := by
  refine ⟨a.finished, fun k sym hk hn => ?_, ?_⟩
  · rw [a.size] at hk
    rcases a.node_cases hk with ⟨s, hs, h1⟩ | ⟨_, c, h1, _⟩
    · rw [hn] at h1
      cases h1
      exact h _ (List.mem_of_getElem? hs)
    · rw [hn] at h1
      cases h1
  · rw [a.leafCount_eq, a.leaves, a.size]

/-- What passes conditions 2 to 5 of R203 has symbols of the table only. -/
theorem skeletonMalformed_false {q : List (Option Sym)} (h : skeletonMalformed q = false) :
    q.getLast? = some (some Config.sent) ∧ ∀ s : Sym, some s ∈ q → s.toNat < 257 := by
  simp only [skeletonMalformed, Bool.or_eq_false_iff] at h
  obtain ⟨⟨⟨_, _⟩, h3⟩, h4⟩ := h
  have hl : q.getLast? = some (some Config.sent) := by
    cases hq : q.getLast? with
    | none => simp [hq] at h3
    | some e => simpa [hq] using h3
  refine ⟨hl, fun s hs => ?_⟩
  have hsplit := List.dropLast_append_getLast? _ hl
  rw [← hsplit] at hs
  rcases List.mem_append.1 hs with h | h
  · rw [List.any_eq_false] at h4
    have := h4 _ h
    simp only [decide_eq_true_eq] at this
    omega
  · have : s = Config.sent := by simpa using h
    subst this
    decide

/-- rebuild (R202, R203) never stops: it goes on with a tree whose codes can be derived, or is E_SKEL. -/
theorem rebuild_runs (s : State) :
    (rebuild s).runs
      (fun t => Quiet s t ∧ t.phase = s.phase ∧ t.codes = s.codes ∧ t.codeValid = s.codeValid ∧
        t.dec = { s.dec with cur := 0 } ∧ GoodTree t.tree)
      (fun t => ∃ u, Quiet s u ∧ u.phase = s.phase ∧ u.codes = s.codes ∧ u.codeValid = s.codeValid ∧
        t = errorEntry .skel u) := by
  obtain ⟨h1, _, _⟩ := realSlots_spec s.stack.ps.toList
  unfold rebuild
  dsimp only
  split
  · exact ⟨s, .refl s, rfl, rfl, rfl, rfl⟩
  · split
    · exact ⟨{ s with stack := { s.stack with psn := BitVec.ofNat 10 (realSlots s.stack.ps.toList) } }, ⟨rfl, rfl⟩, rfl,
        rfl, rfl, rfl⟩
    · next hm =>
      generalize hq : (s.stack.ps.toList.take (realSlots s.stack.ps.toList)).map Entry.sym = q at *
      have hlen : q.length ≤ 513 := by
        rw [← hq]
        simp
      split
      · exact ⟨{ s with
          stack := { s.stack with psn := BitVec.ofNat 10 (realSlots s.stack.ps.toList) }, tree := (assemble q s.tree).2 },
          ⟨rfl, rfl⟩, rfl, rfl, rfl, rfl⟩
      · next hok =>
        have hok : (assemble q s.tree).1 = true := by simpa using hok
        have a := assemble_true hlen (Prod.ext hok rfl : assemble q s.tree = (true, _))
        have g := a.goodTree (skeletonMalformed_false (by simpa using hm)).2
        exact ⟨⟨rfl, rfl⟩, rfl, rfl, rfl, rfl, ⟨g.finished, g.symbols, g.leaves⟩⟩

/-- derive_codes (R181) where it goes on. -/
theorem deriveStep_post (s : State) :
    (deriveStep s).post (fun t => ∃ c, deriveCodes s.tree s.codes = some c ∧ t = { s with codes := c, codeValid := true })
      (fun _ => False) := by
  unfold deriveStep
  split
  · next c h => exact ⟨c, h, rfl⟩
  · trivial

theorem deriveCodes_pathLen {t : Tree} {c d : Codes} (h : deriveCodes t c = some d) : d.pathLen = 0 := by
  rw [deriveCodes_eq] at h
  exact (visit_spec _ t.node 257 0 _ d (by simp) h).1

/-- The derivation ends on a tree whose codes can be derived. -/
theorem deriveCodes_good {t : Tree} (c : Codes) (g : GoodTree t) : ∃ d, deriveCodes t c = some d := by
  have h := internalFrom_leaves t g.finished.1
  have hl := g.leaves
  have hn := g.finished.1
  have hk := g.finished.2.1.1
  rw [deriveCodes_eq]
  refine visit_ends _ t g.finished g.symbols 257 0 _ hk ?_ ?_
  · simp; omega
  · simp; omega

theorem deriveStep_runs (s : State) (g : GoodTree s.tree) :
    (deriveStep s).runs (fun t => ∃ c, c.pathLen = 0 ∧ deriveCodes s.tree s.codes = some c ∧
      t = { s with codes := c, codeValid := true }) (fun _ => False) := by
  obtain ⟨c, h⟩ := deriveCodes_good s.codes g
  unfold deriveStep
  rw [h]
  exact ⟨c, deriveCodes_pathLen h, rfl, rfl⟩

/-! ### One bit of the skeleton -/

/-- How a transition of the skeleton may end: E_SKEL. -/
def SkelError (s t : State) : Prop :=
  ∃ u, Quiet s u ∧ u.phase = s.phase ∧ u.codes.pathLen = s.codes.pathLen ∧ t = errorEntry .skel u

theorem SkelError.of_quiet {s t u : State} (h : Quiet s t) (hp : t.phase = s.phase)
    (hl : t.codes.pathLen = s.codes.pathLen) (g : SkelError t u) : SkelError s u := by
  obtain ⟨v, h1, h2, h3, h4⟩ := g
  exact ⟨v, h.trans h1, h2.trans hp, h3.trans hl, h4⟩

theorem slotCheck_post (s : State) :
    (slotCheck s).post (fun t => Quiet s t ∧ (t = s ∨ t.phase = .decPayload)) (SkelError s) := by
  unfold slotCheck
  split
  · refine Flow.post_bind (Flow.post_mono (Flow.runs_post (rebuild_runs s)) (fun _ h => h) ?_) ?_
    · rintro t ⟨u, h1, h2, h3, _, h4⟩
      exact ⟨u, h1, h2, by rw [h3], h4⟩
    · rintro t ⟨h1, h2, _⟩
      refine Flow.post_bind (Flow.post_mono (deriveStep_post t) (fun _ h => h) fun _ h => h.elim) ?_
      rintro u ⟨c, _, rfl⟩
      exact ⟨h1.trans ⟨rfl, rfl⟩, .inr rfl⟩
  · exact ⟨.refl s, .inl rfl⟩

theorem pushSlot_post (sym : Option Sym) (s : State) :
    (pushSlot sym s).post (fun t => Quiet s t ∧ t.phase = s.phase ∧ t.codes = s.codes) (fun _ => False) := by
  unfold pushSlot
  split
  · exact ⟨⟨rfl, rfl⟩, rfl, rfl⟩
  · trivial

/-- One bit of the skeleton (R200, R238). -/
theorem dictStep_post (bit : Bool) (s : State) :
    (dictStep bit s).post (fun t => Quiet s t ∧ (t.phase = s.phase ∨ t.phase = .decPayload)) (SkelError s) := by
  have after : ∀ t, Quiet s t → t.phase = s.phase → t.codes = s.codes →
      (slotCheck t).post (fun u => Quiet s u ∧ (u.phase = s.phase ∨ u.phase = .decPayload)) (SkelError s) := by
    intro t h1 h2 h3
    refine Flow.post_mono (slotCheck_post t) ?_ fun u => SkelError.of_quiet h1 h2 (by rw [h3])
    rintro u ⟨g1, g2⟩
    refine ⟨h1.trans g1, ?_⟩
    rcases g2 with rfl | g2
    · exact .inl h2
    · exact .inr g2
  unfold dictStep
  split
  · split
    · exact after _ ⟨rfl, rfl⟩ rfl rfl
    · refine Flow.post_bind (Flow.post_mono (pushSlot_post none s) (fun _ h => h) fun _ h => h.elim) ?_
      rintro t ⟨h1, h2, h3⟩
      exact after t h1 h2 h3
  · dsimp only
    split
    · refine Flow.post_bind (Flow.post_mono (pushSlot_post _ _) (fun _ h => h) fun _ h => h.elim) ?_
      rintro t ⟨h1, h2, h3⟩
      exact after _ ⟨h1.rest, h1.out⟩ h2 h3
    · exact after _ ⟨rfl, rfl⟩ rfl rfl

/-! ### One bit of the payload, and a run of bits -/

/-- The output path of `s` with some bytes more, counted. -/
structure OutGrows (o p : Output) : Prop where
  acc : p.acc = o.acc
  nb : p.nb = o.nb
  taken : p.taken = o.taken
  seq : ∃ l, p.seq = o.seq ++ l
  cnt : o.cnt = BitVec.ofNat 64 o.seq.length → p.cnt = BitVec.ofNat 64 p.seq.length

theorem OutGrows.refl (o : Output) : OutGrows o o := ⟨rfl, rfl, rfl, ⟨[], by simp⟩, id⟩

theorem OutGrows.trans {o p r : Output} (h : OutGrows o p) (g : OutGrows p r) : OutGrows o r := by
  obtain ⟨l, hl⟩ := h.seq
  obtain ⟨m, hm⟩ := g.seq
  exact ⟨g.acc.trans h.acc, g.nb.trans h.nb, g.taken.trans h.taken, ⟨l ++ m, by rw [hm, hl, List.append_assoc]⟩,
    fun e => g.cnt (h.cnt e)⟩

theorem emit_grows (b : Byte) (o : Output) : OutGrows o (emit b o) := by
  refine ⟨rfl, rfl, rfl, ⟨[b], rfl⟩, fun h => ?_⟩
  simp only [emit, h, List.length_append, List.length_singleton]
  rw [BitVec.ofNat_add]
  rfl

/-- `t` is `s` after some bits of the skeleton or the payload, the operation going on. -/
structure BitsGo (s t : State) : Prop where
  rest : untouched t = untouched s
  grows : OutGrows s.out t.out
  phase : t.phase = s.phase ∨ s.phase = .decDict ∧ t.phase = .decPayload
  silent : t.phase = .decDict → t.out = s.out

theorem BitsGo.refl (s : State) : BitsGo s s := ⟨rfl, .refl _, .inl rfl, fun _ => rfl⟩

theorem BitsGo.trans {s t u : State} (h : BitsGo s t) (g : BitsGo t u) : BitsGo s u := by
  refine ⟨g.rest.trans h.rest, h.grows.trans g.grows, ?_, fun hu => ?_⟩
  · rcases g.phase with g1 | ⟨g1, g2⟩
    · rcases h.phase with h1 | ⟨h1, h2⟩
      · exact .inl (g1.trans h1)
      · exact .inr ⟨h1, g1.trans h2⟩
    · rcases h.phase with h1 | ⟨h1, h2⟩
      · exact .inr ⟨h1 ▸ g1, g2⟩
      · rw [h2] at g1; cases g1
  · have ht : t.phase = .decDict := by
      rcases g.phase with g1 | ⟨g1, g2⟩
      · rw [← g1]; exact hu
      · rw [g2] at hu; cases hu
    rw [g.silent hu, h.silent ht]

/-- How a run of bits may end: E_SKEL in the skeleton, or DONE at the sentinel. -/
def BitsEnd (s t : State) : Prop :=
  ∃ u, BitsGo s u ∧ (u.phase = .decDict ∧ t = errorEntry .skel u ∨ u.phase = .decPayload ∧ t = finish u)

/-- One bit of the payload (R240). -/
theorem payloadBit_post (bit : Bool) (s : State) (hp : s.phase = .decPayload) :
    (payloadBit bit s).post (BitsGo s) (BitsEnd s) := by
  have keep : ∀ d : Dec, BitsGo s { s with dec := d } := fun d =>
    ⟨rfl, .refl _, .inl rfl, fun h => absurd (hp.symm.trans h) (by decide)⟩
  unfold payloadBit
  split
  · trivial
  · next k _ =>
    dsimp only
    split
    · unfold leafReached
      split
      · exact ⟨{ s with dec := { s.dec with cur := k } }, keep _, .inr ⟨hp, rfl⟩⟩
      · exact ⟨rfl, emit_grows _ _, .inl rfl, fun h => absurd (hp.symm.trans h) (by decide)⟩
    · exact keep _
    · exact keep _
    · trivial

theorem takeBit_post (bit : Bool) (s : State) (hp : s.phase = .decDict ∨ s.phase = .decPayload) :
    (takeBit bit s).post (BitsGo s) (BitsEnd s) := by
  unfold takeBit
  rcases hp with hp | hp
  · rw [hp]
    refine Flow.post_mono (dictStep_post bit s) ?_ ?_
    · rintro t ⟨h1, h2⟩
      refine ⟨h1.rest, by rw [h1.out]; exact .refl _, ?_, fun _ => h1.out⟩
      · rcases h2 with h2 | h2
        · exact .inl h2
        · exact .inr ⟨hp, h2⟩
    · rintro t ⟨u, h1, h2, _, h3⟩
      exact ⟨u, ⟨h1.rest, by rw [h1.out]; exact .refl _, .inl h2, fun _ => h1.out⟩,
        .inl ⟨h2.trans hp, h3⟩⟩
  · rw [hp]
    exact payloadBit_post bit s hp

/-- A run of bits (R232). -/
theorem takeBits_post (bits : List Bool) :
    ∀ s : State, s.phase = .decDict ∨ s.phase = .decPayload → (takeBits bits s).post (BitsGo s) (BitsEnd s) := by
  induction bits with
  | nil => exact fun s _ => .refl s
  | cons b rest ih =>
    intro s hp
    refine Flow.post_bind (takeBit_post b s hp) ?_
    intro t ht
    have hpt : t.phase = .decDict ∨ t.phase = .decPayload := by
      rcases ht.phase with h | ⟨_, h⟩
      · rw [h]; exact hp
      · exact .inr h
    refine Flow.post_mono (ih t hpt) (fun u hu => ht.trans hu) ?_
    rintro u ⟨v, h1, h2⟩
    exact ⟨v, ht.trans h1, h2⟩

/-! ### No stop -/

/-- The decoder's part of the invariant in DEC_DICT and DEC_PAYLOAD. -/
def decodingOk (s : State) : Prop :=
  (s.phase = .decDict →
    s.stack.psn = s.dec.slot ∧ s.dec.slot.toNat < 513 ∧ (s.dec.dstate = .sym → s.dec.symCnt.toNat < 9)) ∧
  (s.phase = .decPayload → treeFinished s.tree ∧ hasKids s.tree s.dec.cur) ∧ s.codes.pathLen = 0

theorem slotCheck_runs (s : State) (hp : s.phase = .decDict) (hl : s.codes.pathLen = 0)
    (hs : s.stack.psn = s.dec.slot) (hn : s.dec.slot.toNat ≤ 513) (hd : s.dec.slot.toNat < 513 → s.dec.dstate = .sym →
      s.dec.symCnt.toNat < 9) :
    (slotCheck s).runs (fun t => (t.phase = .decDict ∨ t.phase = .decPayload) ∧ decodingOk t)
      (fun t => t.phase = .error ∧ t.codes.pathLen = 0) := by
  unfold slotCheck
  split
  · refine Flow.runs_bind (Flow.runs_mono (rebuild_runs s) (fun _ h => h) ?_) ?_
    · rintro t ⟨u, _, _, h3, _, rfl⟩
      exact ⟨rfl, by rw [errorEntry_codes, h3]; exact hl⟩
    · rintro t ⟨_, _, _, _, h5, h6⟩
      refine Flow.runs_bind (Flow.runs_mono (deriveStep_runs t h6) (fun _ h => h) fun _ h => h.elim) ?_
      rintro u ⟨c, h7, _, rfl⟩
      refine ⟨.inr rfl, fun h => ?_, fun _ => ⟨h6.finished, ?_⟩, h7⟩
      · cases h
      · show hasKids t.tree t.dec.cur
        rw [h5]
        exact h6.finished.2.1
  · next hne =>
    have hlt : s.dec.slot.toNat < 513 := by
      have : s.dec.slot.toNat ≠ 513 := fun e => hne (by rw [BitVec.toNat_eq]; simpa using e)
      omega
    refine ⟨.inl hp, fun _ => ⟨hs, hlt, hd hlt⟩, fun h => ?_, hl⟩
    rw [hp] at h
    cases h

theorem pushSlot_runs (sym : Option Sym) (s : State) (hs : s.stack.psn = s.dec.slot) (hn : s.dec.slot.toNat < 513) :
    (pushSlot sym s).runs
      (fun t => t.phase = s.phase ∧ t.codes = s.codes ∧ t.stack.psn = t.dec.slot ∧ t.dec.slot.toNat ≤ 513 ∧
        t.dec = { s.dec with slot := s.dec.slot + 1 })
      (fun _ => False) := by
  obtain ⟨k, h1, h2, _, h4⟩ := push_spec { weight := 1, sym := sym } s.stack (by rw [hs]; exact hn)
  unfold pushSlot
  rw [h1]
  refine ⟨rfl, rfl, ?_, ?_, rfl⟩
  · simp only [h4, hs]
  · have := h2
    simp only [h4, hs] at this
    simp only
    omega

theorem dictStep_runs (bit : Bool) (s : State) (hp : s.phase = .decDict) (h : decodingOk s) :
    (dictStep bit s).runs (fun t => (t.phase = .decDict ∨ t.phase = .decPayload) ∧ decodingOk t)
      (fun t => t.phase = .error ∧ t.codes.pathLen = 0) := by
  obtain ⟨hd, _, hl⟩ := h
  obtain ⟨h1, h2, h3⟩ := hd hp
  unfold dictStep
  split
  · next hm =>
    split
    · exact slotCheck_runs _ hp hl h1 (by simpa using Nat.le_of_lt h2) (fun _ _ => by simp)
    · refine Flow.runs_bind (Flow.runs_mono (pushSlot_runs none s h1 h2) (fun _ h => h) fun _ h => h.elim) ?_
      rintro t ⟨g1, g2, g3, g4, g5⟩
      refine slotCheck_runs t (g1.trans hp) (by rw [g2]; exact hl) g3 g4 fun _ hs => ?_
      rw [g5] at hs
      simp only at hs
      rw [hm] at hs
      cases hs
  · next hm =>
    have h9 := h3 hm
    have hc : (s.dec.symCnt + 1).toNat = s.dec.symCnt.toNat + 1 := by
      rw [BitVec.toNat_add]
      simp
      omega
    dsimp only
    split
    · refine Flow.runs_bind (Flow.runs_mono (pushSlot_runs _ _ ?_ ?_) (fun _ h => h) fun _ h => h.elim) ?_
      · exact h1
      · exact h2
      · rintro t ⟨g1, g2, g3, g4, g5⟩
        exact slotCheck_runs _ (g1.trans hp) (by rw [g2]; exact hl) g3 g4 fun _ hs => by cases hs
    · next hne =>
      refine slotCheck_runs _ hp hl h1 (Nat.le_of_lt h2) fun _ _ => ?_
      have : (s.dec.symCnt + 1).toNat ≠ 9 := fun e => hne (by rw [BitVec.toNat_eq]; simpa using e)
      simp only
      omega

theorem payloadBit_runs (bit : Bool) (s : State) (hp : s.phase = .decPayload) (h : decodingOk s) :
    (payloadBit bit s).runs (fun t => (t.phase = .decDict ∨ t.phase = .decPayload) ∧ decodingOk t)
      (fun t => t.phase = .done ∧ t.codes.pathLen = 0) := by
  obtain ⟨_, hpay, hl⟩ := h
  obtain ⟨hf, hk⟩ := hpay hp
  obtain ⟨hcur, l, r, hn⟩ := hk
  have hnode := hf.2.2 s.dec.cur.toNat hcur
  rw [hn] at hnode
  obtain ⟨_, hl2, _, hr2⟩ := hnode
  have hchild : childOf s.tree.node s.dec.cur bit = some (if bit then r else l) := by simp [childOf, hn]
  have hlt : (if bit then r else l).toNat < s.tree.nn.toNat := by cases bit <;> assumption
  unfold payloadBit
  rw [hchild]
  dsimp only
  generalize (if bit then r else l) = k at hlt ⊢
  have hnode2 := hf.2.2 k.toNat hlt
  split
  · unfold leafReached
    split
    · exact ⟨finish_phase _, by rw [finish_codes]; exact hl⟩
    · exact ⟨.inr hp, fun h => absurd (hp.symm.trans h) (by decide), fun _ => ⟨hf, hf.2.1⟩, hl⟩
  · next hb => rw [hb] at hnode2; exact hnode2.elim
  · next l2 r2 hb =>
    exact ⟨.inr hp, fun h => absurd (hp.symm.trans h) (by decide), fun _ => ⟨hf, hlt, l2, r2, hb⟩, hl⟩
  · next hb => rw [hb] at hnode2; exact hnode2.elim

/-- A run of bits never stops in a state that meets the invariant, and keeps it. -/
theorem takeBits_runs (bits : List Bool) :
    ∀ s : State, s.phase = .decDict ∨ s.phase = .decPayload → decodingOk s →
      (takeBits bits s).runs (fun t => (t.phase = .decDict ∨ t.phase = .decPayload) ∧ decodingOk t)
        (fun t => (t.phase = .error ∨ t.phase = .done) ∧ t.codes.pathLen = 0) := by
  induction bits with
  | nil => exact fun s hp h => ⟨hp, h⟩
  | cons b rest ih =>
    intro s hp h
    refine Flow.runs_bind (G := fun t => (t.phase = .decDict ∨ t.phase = .decPayload) ∧ decodingOk t) ?_
      fun t ht => ih t ht.1 ht.2
    unfold takeBit
    rcases hp with hp | hp
    · rw [hp]
      exact Flow.runs_mono (dictStep_runs b s hp h) (fun _ h => h) fun _ h => ⟨.inl h.1, h.2⟩
    · rw [hp]
      exact Flow.runs_mono (payloadBit_runs b s hp h) (fun _ h => h) fun _ h => ⟨.inr h.1, h.2⟩

end Sys2Proof.Machine
end

