-- ==== Sys2Proof/Laws/Packer.lean ====
section
/-!
SUPPORT. The BitPacker, one lemma per operation: what it does to the bits written, to the number of bits held and to
the rest of the output path.
-/

namespace Sys2Proof.Machine

theorem pendingBits_length (o : Output) : (pendingBits o).length = o.nb.toNat := by simp [pendingBits]

theorem pendingBits_empty {o : Output} (h : o.nb = 0) : pendingBits o = [] := by simp [pendingBits, h]

/-- The accumulator with one more bit, as a number. -/
theorem shiftConcat_toNat {acc : Byte} (b : Bool) (h : acc.toNat < 128) :
    (acc.shiftConcat b).toNat = 2 * acc.toNat + b.toNat := by
  rw [BitVec.toNat_shiftConcat_eq_of_lt (k := 7) (by omega) (by omega)]
  omega

theorem packerOk_acc {o : Output} (h : packerOk o) : o.acc.toNat < 128 := by
  have hn : o.nb.toNat ≤ 7 := by have := o.nb.isLt; omega
  have := Nat.pow_le_pow_right (show 0 < 2 by omega) hn
  unfold packerOk at h
  omega

theorem nb_add_one {n : BitVec 3} (h : ¬ n = 7) : (n + 1).toNat = n.toNat + 1 := by
  have := n.isLt
  have h7 : n.toNat ≠ 7 := fun e => h (by rw [BitVec.toNat_eq]; simpa using e)
  rw [BitVec.toNat_add]
  simp
  omega

/-- The pending bits after a shift: the old ones and the new one. -/
theorem pending_shiftConcat (acc : Byte) (b : Bool) (n : Nat) (h : n < 8) :
    (List.range (n + 1)).map (fun j => (acc.shiftConcat b).getLsbD (n - j)) =
      (List.range n).map (fun j => acc.getLsbD (n - 1 - j)) ++ [b] := by
  rw [List.range_succ, List.map_append]
  congr 1
  · apply List.map_congr_left
    intro j hj
    have hj : j < n := by simpa using hj
    rw [BitVec.getLsbD_shiftConcat]
    have h1 : n - j < 8 := by omega
    have h2 : n - j ≠ 0 := by omega
    have h3 : n - j - 1 = n - 1 - j := by omega
    simp [h1, h2, h3]
  · simp [BitVec.getLsbD_shiftConcat]

/-- put_bit (40_bitpacker.md R121): one more bit is written, and the accumulator stays in order. -/
theorem putBit_spec (b : Bool) {o : Output} (h : packerOk o) :
    packerOk (putBit b o) ∧ writtenBits (putBit b o) = writtenBits o ++ [b] := by
  have ha := packerOk_acc h
  unfold putBit
  dsimp only
  split
  · next h7 =>
    refine ⟨by simp [packerOk], ?_⟩
    have h7' : o.nb.toNat = 7 := by rw [h7]; rfl
    simp only [writtenBits, pendingBits, emit, h7', List.flatMap_append, List.flatMap_cons, List.flatMap_nil]
    have e : bitsOf (o.acc.shiftConcat b) = (List.range 7).map (fun j => o.acc.getLsbD (7 - 1 - j)) ++ [b] := by
      rw [← pending_shiftConcat o.acc b 7 (by omega)]
      rfl
    simp [e]
  · next h7 =>
    have hb := nb_add_one h7
    constructor
    · unfold packerOk at h ⊢
      rw [shiftConcat_toNat b ha]
      have : b.toNat ≤ 1 := by cases b <;> simp
      simp only [hb, Nat.pow_succ]
      omega
    · simp only [writtenBits, pendingBits, hb]
      have e : o.nb.toNat + 1 - 1 = o.nb.toNat := by omega
      rw [e, pending_shiftConcat o.acc b o.nb.toNat (by have := o.nb.isLt; omega)]
      simp

/-- What put_bit leaves of the rest: OUTSEQ grows at its end, OUT_CNT counts it, nothing is taken. -/
theorem putBit_rest (b : Bool) (o : Output) :
    (∃ l, (putBit b o).seq = o.seq ++ l) ∧ (putBit b o).taken = o.taken ∧
    (o.cnt = BitVec.ofNat 64 o.seq.length → (putBit b o).cnt = BitVec.ofNat 64 (putBit b o).seq.length) := by
  unfold putBit
  dsimp only
  split
  · refine ⟨⟨[_], rfl⟩, rfl, ?_⟩
    intro h
    simp only [emit, h, List.length_append, List.length_singleton]
    rw [BitVec.ofNat_add]
    rfl
  · exact ⟨⟨[], by simp⟩, rfl, id⟩

theorem putAll_append (l m : List Bool) (o : Output) : putAll (l ++ m) o = putAll m (putAll l o) := by
  induction l generalizing o with
  | nil => rfl
  | cons b rest ih => exact ih (putBit b o)

/-- All bits of a list are written, in order. -/
theorem putAll_spec (l : List Bool) {o : Output} (h : packerOk o) :
    packerOk (putAll l o) ∧ writtenBits (putAll l o) = writtenBits o ++ l := by
  induction l generalizing o with
  | nil => exact ⟨h, by simp [putAll]⟩
  | cons b rest ih =>
    obtain ⟨h1, h2⟩ := putBit_spec b h
    obtain ⟨h3, h4⟩ := ih h1
    exact ⟨h3, by rw [putAll, h4, h2]; simp⟩

theorem putAll_rest (l : List Bool) (o : Output) :
    (∃ m, (putAll l o).seq = o.seq ++ m) ∧ (putAll l o).taken = o.taken ∧
    (o.cnt = BitVec.ofNat 64 o.seq.length → (putAll l o).cnt = BitVec.ofNat 64 (putAll l o).seq.length) := by
  induction l generalizing o with
  | nil => exact ⟨⟨[], by simp [putAll]⟩, rfl, id⟩
  | cons b rest ih =>
    obtain ⟨⟨m1, h1⟩, h2, h3⟩ := putBit_rest b o
    obtain ⟨⟨m2, h4⟩, h5, h6⟩ := ih (putBit b o)
    exact ⟨⟨m1 ++ m2, by rw [putAll, h4, h1, List.append_assoc]⟩, by rw [putAll, h5, h2], fun hc => h6 (h3 hc)⟩

/-- The number of bits written is eight for each byte and NB. -/
theorem writtenBits_length (o : Output) : (writtenBits o).length = 8 * o.seq.length + o.nb.toNat := by
  have : ∀ l : List Byte, (l.flatMap bitsOf).length = 8 * l.length := by
    intro l
    induction l with
    | nil => rfl
    | cons b rest ih => simp [bitsOf_length, ih]; omega
  simp [writtenBits, pendingBits_length, this]

/-- bp_flush (40_bitpacker.md R123). -/
theorem bpFlush_spec (o : Output) :
    packerOk o → packerOk (bpFlush o) ∧ (bpFlush o).nb = 0 ∧ (∃ m, (bpFlush o).seq = o.seq ++ m) ∧
    (bpFlush o).taken = o.taken ∧
    (o.cnt = BitVec.ofNat 64 o.seq.length → (bpFlush o).cnt = BitVec.ofNat 64 (bpFlush o).seq.length) ∧
    (bpFlush o).seq.length = o.seq.length + (if o.nb = 0 then 0 else 1) := by
  intro h
  unfold bpFlush
  split
  · next h0 => exact ⟨h, h0, ⟨[], by simp⟩, rfl, id, by simp⟩
  · next h0 =>
    refine ⟨by simp [packerOk], rfl, ⟨[_], rfl⟩, rfl, ?_, by simp [emit]⟩
    intro hc
    simp only [emit, hc, List.length_append, List.length_singleton]
    rw [BitVec.ofNat_add]
    rfl

end Sys2Proof.Machine
end

