-- ==== Sys2Proof/Laws/Encoding.lean ====
section
/-!
SUPPORT. The encoder's transitions: one lemma each for the build, the end of pass 1 and the two reactions to a byte,
saying what the next state is, and one saying when they do not stop.
-/

namespace Sys2Proof.Machine

/-- What tb_build (R160) makes of `s`: the tree assembled from the popped construction sequence of the stack the counts
give, with SENT_NODE its last node, and the sizes; the queue and the stack consumed. -/
def BuildOf (s t : State) : Prop :=
  ∃ q k u, buildStack s.freq s.queue s.stack = .ok q k ∧ assemble (constructionOrder k) s.tree = (true, u) ∧
    t = recordSizes { s with queue := q, stack := consumed k, tree := { u with sentNode := u.nn - 1 } }

theorem tbBuild_post (s : State) : (tbBuild s).post (BuildOf s) (fun _ => False) := by
  unfold tbBuild
  split
  · trivial
  · trivial
  · trivial
  · next q k hk =>
    dsimp only
    split
    · trivial
    · next ha => exact ⟨q, k, _, hk, Prod.ext (by simpa using ha) rfl, rfl⟩

/-- What tb_build leaves where a byte has been counted: a tree whose codes can be derived, with the sentinel at its last
node. -/
structure BuiltTree (t : Tree) : Prop where
  good : GoodTree t
  sentinel : ∃ w m, walkTo t.node 0 w = some m ∧ t.node[m.toNat]? = some (.leaf Config.sent) ∧ w ≠ [] ∧
    m.toNat + 1 = t.nn.toNat

theorem constructionOrder_length {k : Stack} {L : Nat} (b : BuiltStack k L) :
    (constructionOrder k).length = 2 * L - 1 := by
  have h1 := b.size
  have h2 := b.le
  have h3 := stackEntries_length k (by omega)
  have e : (constructionOrder k).length = (stackEntries k).length := by simp [constructionOrder_eq k (by omega)]
  omega

/-- The last entry of the construction sequence is the stack's bottom, the sentinel's (R171). -/
theorem constructionOrder_last {k : Stack} {L : Nat} (b : BuiltStack k L) :
    (constructionOrder k)[2 * L - 2]? = some (some Config.sent) := by
  have h1 := b.size
  have h2 := b.two
  have h3 := b.le
  have hl := constructionOrder_length b
  have hs := stackEntries_length k (by omega)
  have e : constructionOrder k = ((stackEntries k).map Entry.sym).reverse := constructionOrder_eq k (by omega)
  have hb : (stackEntries k)[0]? = some { weight := 1, sym := some Config.sent } := by
    rw [← b.bottom]
    simp only [stackEntries, List.getElem?_take]
    rw [if_pos (by omega)]
    simp
  rw [e, List.getElem?_reverse (by simp; omega)]
  have : ((stackEntries k).map Entry.sym).length - 1 - (2 * L - 2) = 0 := by simp; omega
  rw [this, List.getElem?_map, hb]
  rfl

/-- The symbols of a built stack are those of the table. -/
theorem constructionOrder_symbols {k : Stack} {L : Nat} (b : BuiltStack k L) (s : Sym)
    (h : some s ∈ constructionOrder k) : s.toNat < 257 := by
  obtain ⟨l, h1, h2⟩ := b.syms
  have e : constructionOrder k = ((stackEntries k).map Entry.sym).reverse :=
    constructionOrder_eq k (by have := b.size; have := b.le; omega)
  rw [e, List.mem_reverse, List.mem_map] at h
  obtain ⟨x, hx, hs⟩ := h
  have hm : x ∈ (stackEntries k).filter fun e => e.sym.isSome := by
    rw [List.mem_filter]
    exact ⟨hx, by rw [hs]; rfl⟩
  rcases List.mem_cons.1 (h1.mem_iff.1 hm) with rfl | hl
  · have : s = Config.sent := by simpa using hs.symm
    subst this
    decide
  · obtain ⟨y, hy, hlt⟩ := h2 x hl
    rw [hs] at hy
    cases hy
    omega

theorem assembled_built {k : Stack} {L : Nat} (b : BuiltStack k L) (t : Tree) :
    Assembled (constructionOrder k) (assemble (constructionOrder k) t).2 := by
  have hl := constructionOrder_length b
  have := b.le
  exact assemble_true (by omega) (Prod.ext (b.assembles t) rfl : _ = (true, _))

theorem Assembled.builtTree {k : Stack} {L : Nat} (b : BuiltStack k L) {u : Tree}
    (a : Assembled (constructionOrder k) u) : BuiltTree u := by
  have hl := constructionOrder_length b
  have h2 := b.two
  have hlast := constructionOrder_last b
  obtain ⟨w, h3, h4⟩ := a.reachable (2 * L - 2) (by omega)
  have hf := a.fits
  have e : (BitVec.ofNat 10 (2 * L - 2)).toNat = 2 * L - 2 := by simp; omega
  refine ⟨a.goodTree (constructionOrder_symbols b), w, _, h3, ?_, h4 (by omega), ?_⟩
  · rw [e]
    exact a.leaf _ _ hlast
  · rw [e, a.size]
    omega

/-- tb_build never fails where a byte has been counted (R172). -/
theorem tbBuild_runs (s : State) (h : 1 ≤ presentFrom s.freq 0 256) :
    (tbBuild s).runs
      (fun t => BuildOf s t ∧ BuiltTree t.tree ∧ t.stack.psn = 0 ∧
        2 * (1 + presentFrom s.freq 0 256) = t.tree.nn.toNat + 1)
      (fun _ => False) := by
  obtain ⟨q, k, h1, _, b, _⟩ := buildStack_spec s.freq s.queue s.stack h
  have ha := b.assembles s.tree
  have a := assembled_built b s.tree
  have hb := Assembled.builtTree b a
  have hk : consumed k = { k with psn := 0 } := consumed_eq k (by have := b.size; have := b.le; omega)
  unfold tbBuild
  rw [h1]
  dsimp only
  rw [if_neg (by rw [ha]; decide)]
  refine ⟨⟨q, k, _, h1, Prod.ext ha rfl, rfl⟩, ⟨⟨hb.good.finished, hb.good.symbols, hb.good.leaves⟩, hb.sentinel⟩,
    congrArg Stack.psn hk, ?_⟩
  have h3 := a.size
  have h4 := constructionOrder_length b
  have h5 := b.two
  simp only [recordSizes]
  omega

/-- The sentinel gets a code (44_code_table.md R183). -/
theorem deriveCodes_sentinel {t : Tree} {c d : Codes} (b : BuiltTree t) (h : deriveCodes t c = some d) :
    d.len[256] ≠ 0 := by
  obtain ⟨w, m, h1, h2, h3, hm⟩ := b.sentinel
  rw [deriveCodes_eq] at h
  obtain ⟨n, _, w', h4, _, h5, h6⟩ := visit_latest _ t.node 257 0 _ d (by simp) h w m _ h1 h2
    (by rw [higherLeaf_last (by omega)]; rfl)
  have e : Config.sent.toNat = 256 := rfl
  rw [e, Vector.getElem?_eq_getElem (by omega)] at h4
  simp only [Option.some.injEq] at h4
  rw [h4]
  rintro rfl
  rcases h6 with rfl | ⟨p, _, _, _, rfl⟩ <;> simp [codeBitList] at h5
  exact h3 h5.2

/-- What the header writes is put bit by bit (R217). -/
theorem writeHeader_out (s : State) :
    (writeHeader s).out = putAll (bitsMsb s.magicReg ++ (s.ext.toList.take s.extLen.toNat).flatMap bitsOf ++
      bitsMsb s.termReg ++ skeletonBits s.tree) s.out := by
  simp only [writeHeader, putBits, writeSkeleton, putAll_append]

/-- The state in which pass 1 ends, but for what comes after the size guard: the build, its code table, the estimate. -/
def Estimated (s t : State) : Prop :=
  ∃ u c, BuildOf { s with freqValid := true } u ∧ deriveCodes u.tree s.codes = some c ∧
    t = estimate { u with codes := c, codeValid := true }

/-- The registers a build changes. -/
theorem BuildOf.eq {s t : State} (h : BuildOf s t) : ∃ q k tr, t = recordSizes { s with queue := q, stack := k, tree := tr } := by
  obtain ⟨q, k, u, _, _, rfl⟩ := h
  exact ⟨q, consumed k, _, rfl⟩

/-- The registers the end of pass 1 changes before the size guard. -/
theorem Estimated.eq {s t : State} (h : Estimated s t) : ∃ q k tr c, deriveCodes tr s.codes = some c ∧
    t = estimate { recordSizes { s with freqValid := true, queue := q, stack := k, tree := tr } with
      codes := c, codeValid := true } := by
  obtain ⟨u, c, hb, hc, rfl⟩ := h
  obtain ⟨q, k, tr, rfl⟩ := hb.eq
  exact ⟨q, k, tr, c, hc, rfl⟩

theorem BuildOf.codes {s t : State} (h : BuildOf s t) : t.codes = s.codes := by
  obtain ⟨q, k, tr, rfl⟩ := h.eq
  rfl

theorem estimated_post (s : State) :
    ((tbBuild { s with freqValid := true }).bind fun s1 => (deriveStep s1).bind fun s2 => .go (estimate s2)).post
      (Estimated s) (fun _ => False) := by
  refine Flow.post_bind (Flow.post_mono (tbBuild_post _) (fun _ h => h) fun _ h => h.elim) ?_
  intro t ht
  refine Flow.post_bind (Flow.post_mono (deriveStep_post _) (fun _ h => h) fun _ h => h.elim) ?_
  rintro u ⟨c, h, rfl⟩
  exact ⟨t, c, ht, by rw [← h, ht.codes], rfl⟩

theorem estimated_runs (s : State) (h : 1 ≤ presentFrom s.freq 0 256) :
    ((tbBuild { s with freqValid := true }).bind fun s1 => (deriveStep s1).bind fun s2 => .go (estimate s2)).runs
      (fun t => Estimated s t ∧ BuiltTree t.tree ∧ t.codes.len[256] ≠ 0 ∧ t.codes.pathLen = 0 ∧ t.stack.psn = 0 ∧
        2 * (1 + presentFrom s.freq 0 256) = t.tree.nn.toNat + 1) (fun _ => False) := by
  refine Flow.runs_bind (Flow.runs_mono (tbBuild_runs _ h) (fun _ h => h) fun _ h => h.elim) ?_
  rintro t ⟨ht, b, hk, hn⟩
  refine Flow.runs_bind (Flow.runs_mono (deriveStep_runs _ b.good) (fun _ h => h) fun _ h => h.elim) ?_
  rintro u ⟨c, hl, hc, rfl⟩
  exact ⟨⟨t, c, ht, by rw [← hc, ht.codes], rfl⟩, b, deriveCodes_sentinel b hc, hl, hk, hn⟩

/-- The end of pass 1 (R214) is the estimate, the guard and the header. -/
theorem endOfPass1_eq (s : State) :
    endOfPass1 s =
      ((tbBuild { s with freqValid := true }).bind fun s1 => (deriveStep s1).bind fun s2 => .go (estimate s2)).bind
        fun t => if t.totalLen.toNat ≤ t.estBytes.toNat ∧ t.force = false then .ended (errorEntry .policy t)
          else .go { writeHeader t with inCnt := 0, phase := .encCode } := by
  unfold endOfPass1
  rw [Flow.bind_assoc]
  congr 1
  funext s1
  rw [Flow.bind_assoc]
  congr 1
  funext s2
  simp only [Flow.bind_go, sizeGuard]
  split <;> rfl

theorem endOfPass1_post (s : State) :
    (endOfPass1 s).post (fun t => ∃ u, Estimated s u ∧ t = { writeHeader u with inCnt := 0, phase := .encCode })
      (fun t => ∃ u, Estimated s u ∧ t = errorEntry .policy u) := by
  rw [endOfPass1_eq]
  refine Flow.post_bind (Flow.post_mono (estimated_post s) (fun _ h => h) fun _ h => h.elim) ?_
  intro u hu
  split
  · exact ⟨u, hu, rfl⟩
  · exact ⟨u, hu, rfl⟩

theorem endOfPass1_runs (s : State) (h : 1 ≤ presentFrom s.freq 0 256) :
    (endOfPass1 s).runs (fun t => t.phase = .encCode ∧ t.codes.len[256] ≠ 0 ∧ t.codes.pathLen = 0)
      (fun t => t.phase = .error ∧ t.codes.pathLen = 0) := by
  rw [endOfPass1_eq]
  refine Flow.runs_bind (Flow.runs_mono (estimated_runs s h) (fun _ h => h) fun _ h => h.elim) ?_
  rintro u ⟨_, _, h1, h2, _⟩
  split
  · exact ⟨rfl, h2⟩
  · exact ⟨rfl, h1, h2⟩

/-- What pass 2 makes of a byte that has a code. -/
def coded (s : State) (l : List Bool) : State :=
  State.updatePct { s with inCnt := s.inCnt + 1, out := putAll l s.out }

/-- What the last byte of pass 2 makes of that. -/
def closed (t : State) (m : List Bool) : State := finish { t with out := bpFlush (putAll m t.out) }

/-- A byte in ENC_CODE (R218). -/
theorem inEncCode_post (b : Byte) (s : State) :
    (inEncCode b s).post
      (fun t => ∃ l, t = coded s l ∧ t.inCnt ≠ t.totalLen)
      (fun t => t = errorEntry .mismatch { s with inCnt := s.inCnt + 1 } ∨
        ∃ l m, (coded s l).inCnt = (coded s l).totalLen ∧ t = closed (coded s l) m) := by
  unfold inEncCode
  dsimp only
  split
  · exact .inl rfl
  · unfold putCode
    split
    · next l _ =>
      simp only [Flow.bind_go]
      split
      · next he =>
        unfold endOfPass2 putCode
        split
        · next m _ => exact .inr ⟨l, m, he, rfl⟩
        · trivial
      · next he => exact ⟨l, rfl, he⟩
    · trivial

theorem codeOf_some (c : Codes) (sym : Sym) (h : sym.toNat < 257) (hn : c.len[sym.toNat]? ≠ some 0) :
    ∃ l, codeOf c sym = some l := by
  unfold codeOf
  rw [Vector.getElem?_eq_getElem h] at hn ⊢
  rw [Vector.getElem?_eq_getElem h]
  simp only [ne_eq, Option.some.injEq] at hn
  simp only
  rw [if_neg hn]
  exact ⟨_, rfl⟩

theorem inEncCode_runs (b : Byte) (s : State) (hs : s.codes.len[256] ≠ 0) :
    (inEncCode b s).runs (fun t => t.phase = s.phase ∧ t.codes = s.codes)
      (fun t => (t.phase = .error ∨ t.phase = .done) ∧ t.codes = s.codes) := by
  unfold inEncCode
  dsimp only
  split
  · exact ⟨.inl rfl, rfl⟩
  · next hn =>
    have hb : (b.setWidth 9).toNat = b.toNat := by
      have := b.isLt
      simp
      omega
    obtain ⟨l, hl⟩ := codeOf_some s.codes (b.setWidth 9) (by have := b.isLt; omega) (by rw [hb]; exact hn)
    unfold putCode
    rw [hl]
    simp only [Flow.bind_go]
    split
    · obtain ⟨m, hm⟩ := codeOf_some s.codes Config.sent (by decide) (by
        have e : Config.sent.toNat = 256 := rfl
        rw [e, Vector.getElem?_eq_getElem (by omega)]
        simpa using hs)
      unfold endOfPass2 putCode
      simp only [updatePct_codes, hm, Flow.bind_go]
      exact ⟨.inr (finish_phase _), by simp⟩
    · exact ⟨by simp, by simp⟩

end Sys2Proof.Machine
end

