-- ==== Sys2Proof/Laws/Input.lean ====
section
/-!
SUPPORT. What the reaction to one input byte can do, in every phase: `InStep` says it once, `inByte_post` proves it, and
the rules about whole steps follow from it.
-/

namespace Sys2Proof.Machine

/-- The state with everything put at fixed values that an input byte may change. -/
def hostSide (s : State) : State :=
  { untouched s with
    discard := false, freqValid := false, err := State.reset.err, irqPend := 0, extLen := 0, ext := State.reset.ext
    inCnt := 0, estBytes := 0, pct := 0, freq := State.reset.freq, queue := State.reset.queue }

/-- `s` with one more byte counted and the progress made. -/
def counted (s : State) : State := State.updatePct { s with inCnt := s.inCnt + 1 }

/-- What one accepted input byte may do. -/
structure InStep (b : Byte) (s t : State) : Prop where
  keep : hostSide t = hostSide s
  taken : t.out.taken = s.out.taken
  phase : t.phase ∈ inputMoves s.phase
  err : if t.phase = .error then t.err.code ≠ .none ∧ t.discard = true else t.err = s.err ∧ t.discard = s.discard
  seq : ∃ l, t.out.seq = s.out.seq ++ l
  silent : phaseSilent t.phase = true → t.out.seq = s.out.seq
  cnt : s.out.cnt = BitVec.ofNat 64 s.out.seq.length → t.out.cnt = BitVec.ofNat 64 t.out.seq.length
  packer : packerOk s.out → packerOk t.out
  freqCount : s.phase = .encCount → t.freq = ftAdd b s.freq
  freqRest : s.phase ≠ .encCount → t.freq = s.freq
  inCnt : t.inCnt = s.inCnt + 1 ∨ s.phase = .encCount ∧ t.phase = .encCode ∧ t.inCnt = 0 ∧ s.inCnt + 1 = s.totalLen
  turn : s.phase = .encCount → t.phase = .encCode → t.inCnt = 0 ∧ s.inCnt + 1 = s.totalLen
  full : phaseAccepts t.phase = true → t.inCnt ≠ t.totalLen ∨ s.phase = .encCount ∧ t.phase = .encCode
  progress : opOk s → phaseRunning t.phase = true → t.pct = t.progress
  pct : t.pct = s.pct ∨ t.pct = 100 ∨ t.pct = (counted s).pct
  rises : s.pct < t.pct → t.irqPend.getLsbD 3 = true
  ext : s.phase ≠ .decExt → t.ext = s.ext ∧ t.extLen = s.extLen

theorem or_keeps_bit (a b : BitVec 5) (h : a.getLsbD 3 = true) : (a ||| b).getLsbD 3 = true := by
  rw [BitVec.getLsbD_or, h, Bool.true_or]

theorem prog_bit (a : BitVec 5) : (a ||| Irq.prog.bit).getLsbD 3 = true := by
  rw [BitVec.getLsbD_or]
  simp [Irq.bit]

/-- The PROG bit is pending where the progress made has risen. -/
theorem counted_prog (s : State) (h : s.pct < (counted s).pct) : (counted s).irqPend.getLsbD 3 = true := by
  have h1 : (counted s).pct = State.progress { s with inCnt := s.inCnt + 1 } := updatePct_pct _
  have h2 : (counted s).irqPend = if s.pct < State.progress { s with inCnt := s.inCnt + 1 }
      then s.irqPend ||| Irq.prog.bit else s.irqPend := updatePct_irqPend _
  rw [h1] at h
  rw [h2, if_pos h]
  exact prog_bit _

/-- The progress of a state depends on these registers alone. -/
theorem progress_congr {s t : State} (ho : t.op = s.op) (ht : t.totalLen = s.totalLen) (hi : t.inCnt = s.inCnt)
    (hp : t.phase = .encCode ↔ s.phase = .encCode) (hc : t.op = .none → t.pct = s.pct) : t.progress = s.progress := by
  unfold State.progress
  rw [ho, ht, hi]
  cases h : s.op with
  | compress => simp only [hp]
  | decompress => rfl
  | none => exact hc (ho.trans h)

/-! ### Pass 1 -/

theorem inEncCount_post (b : Byte) (s : State) (hp : s.phase = .encCount) :
    (inEncCount b s).post (InStep b s) (InStep b s) := by
  have hcnt : ∀ t : State, t.pct = (counted s).pct → t.irqPend.getLsbD 3 = true ∨ t.irqPend = (counted s).irqPend ∨
      t.irqPend = (counted s).irqPend ||| Irq.error.bit → s.pct < t.pct → t.irqPend.getLsbD 3 = true := by
    intro t h1 h2 h3
    rw [h1] at h3
    have := counted_prog s h3
    rcases h2 with h | h | h
    · exact h
    · rw [h]; exact this
    · rw [h]; exact or_keeps_bit _ _ this
  have hpct : ∀ f, (State.updatePct { s with freq := f, inCnt := s.inCnt + 1 }).pct = (counted s).pct ∧
      (State.updatePct { s with freq := f, inCnt := s.inCnt + 1 }).irqPend = (counted s).irqPend := by
    intro f
    unfold counted
    rw [updatePct_pct, updatePct_pct, updatePct_irqPend, updatePct_irqPend]
    exact ⟨rfl, rfl⟩
  obtain ⟨p1, p2⟩ := hpct (ftAdd b s.freq)
  unfold inEncCount
  dsimp only
  split
  · next he =>
    have he' : s.inCnt + 1 = s.totalLen := by simpa using he
    refine Flow.post_mono (endOfPass1_post _) ?_ ?_
    · rintro t ⟨u, hest, rfl⟩
      obtain ⟨q, k, tr, c, _, rfl⟩ := hest.eq
      have grow := putAll_rest (bitsMsb s.magicReg ++ (s.ext.toList.take s.extLen.toNat).flatMap bitsOf ++
        bitsMsb s.termReg ++ skeletonBits tr) s.out
      have pk := putAll_spec (bitsMsb s.magicReg ++ (s.ext.toList.take s.extLen.toNat).flatMap bitsOf ++
        bitsMsb s.termReg ++ skeletonBits tr) (o := s.out)
      generalize hu : (estimate _ : State) = u
      have ho : (writeHeader u).out = putAll (bitsMsb s.magicReg ++ (s.ext.toList.take s.extLen.toNat).flatMap bitsOf ++
          bitsMsb s.termReg ++ skeletonBits tr) s.out := by
        rw [writeHeader_out]
        subst hu
        simp
      have hpc : (writeHeader u).pct = (counted s).pct := by subst hu; simpa using p1
      have hir : (writeHeader u).irqPend = (counted s).irqPend := by subst hu; simpa using p2
      have hk : hostSide (writeHeader u) = hostSide s ∧ (writeHeader u).err = s.err ∧
          (writeHeader u).discard = s.discard ∧ (writeHeader u).freq = ftAdd b s.freq ∧
          (writeHeader u).op = s.op ∧ (writeHeader u).totalLen = s.totalLen ∧ (writeHeader u).ext = s.ext ∧
          (writeHeader u).extLen = s.extLen := by
        subst hu
        simp [hostSide, untouched]
      obtain ⟨k1, k2, k3, k4, k5, k6, k7⟩ := hk
      generalize hw : writeHeader u = w at ho hpc hir k1 k2 k3 k4 k5 k6 k7
      refine
        { keep := k1, taken := (congrArg Output.taken ho).trans grow.2.1, phase := by rw [hp]; simp [inputMoves]
          err := by rw [if_neg (by simp)]; exact ⟨k2, k3⟩
          seq := ?_, silent := fun h => by cases h
          cnt := fun h => ?_, packer := fun h => ?_, freqCount := fun _ => k4, freqRest := fun h => absurd hp h
          inCnt := .inr ⟨hp, rfl, rfl, he'⟩, turn := fun _ _ => ⟨rfl, he'⟩, full := fun _ => .inr ⟨hp, rfl⟩, progress := fun hop _ => ?_
          pct := .inr (.inr hpc), rises := fun h => ?_, ext := fun _ => k7 }
      · obtain ⟨l, hl⟩ := grow.1
        exact ⟨l, (congrArg Output.seq ho).trans hl⟩
      · show w.out.cnt = BitVec.ofNat 64 w.out.seq.length
        rw [ho]
        exact grow.2.2 h
      · show packerOk w.out
        rw [ho]
        exact (pk h).1
      · have hop : s.op = .compress := by unfold opOk at hop; rw [hp] at hop; exact hop
        show w.pct = _
        rw [hpc]
        unfold counted
        rw [updatePct_pct]
        simp only [State.progress, hop, k5, k6, hp, he']
        simp
      · exact hcnt { w with inCnt := 0, phase := .encCode } hpc (.inr (.inl hir)) h
    · rintro t ⟨u, hest, rfl⟩
      obtain ⟨q, k, tr, c, _, rfl⟩ := hest.eq
      generalize hu : (estimate _ : State) = u
      have hpc : u.pct = (counted s).pct := by subst hu; simpa using p1
      have hir : u.irqPend = (counted s).irqPend := by subst hu; simpa using p2
      have ho : u.out = s.out := by subst hu; simp
      refine ⟨?_, by simp [ho], ?_, ?_, ⟨[], by simp [ho]⟩, fun h => (by cases h), by simp [ho], by simp [ho], fun _ => ?_,
        fun h => absurd hp h, .inl ?_, fun _ h => (by cases h), fun h => (by cases h), fun _ h => (by cases h), .inr (.inr ?_), hcnt _ ?_ (.inr (.inr ?_)),
        fun _ => by subst hu; simp⟩
      · subst hu
        simp [hostSide, untouched]
      · rw [hp]; simp [inputMoves]
      · simp
      · subst hu; simp
      · subst hu; simp
      · simpa using hpc
      · simpa using hpc
      · show u.irqPend ||| _ = _
        rw [hir]
  · next he =>
    refine ⟨by simp [hostSide, untouched], by simp, ?_, ?_, ⟨[], by simp⟩, fun _ => by simp, by simp, by simp,
      fun _ => by simp, fun h => absurd hp h, .inl (by simp), fun _ h => (by simp [hp] at h), fun _ => .inl he,
      fun _ _ => ?_, .inr (.inr p1),
      hcnt _ p1 (.inr (.inl p2)), fun _ => by simp⟩
    · simp [hp, inputMoves]
    · simp [hp]
    · rw [updatePct_pct]
      exact (progress_congr (by simp) (by simp) (by simp) (by simp) (fun h => by
        simp only [updatePct_op] at h
        simp [State.progress, h])).symm

/-! ### Pass 2 -/

theorem inEncCode_inStep (b : Byte) (s : State) (hp : s.phase = .encCode) :
    (inEncCode b s).post (InStep b s) (InStep b s) := by
  have cp : ∀ l, (coded s l).pct = (counted s).pct ∧ (coded s l).irqPend = (counted s).irqPend := by
    intro l
    unfold coded counted
    rw [updatePct_pct, updatePct_pct, updatePct_irqPend, updatePct_irqPend]
    exact ⟨rfl, rfl⟩
  refine Flow.post_mono (inEncCode_post b s) ?_ ?_
  · rintro t ⟨l, rfl, hne⟩
    obtain ⟨p1, p2⟩ := cp l
    obtain ⟨g1, g2, g3⟩ := putAll_rest l s.out
    have ho : (coded s l).out = putAll l s.out := by simp [coded]
    have hph : (coded s l).phase = .encCode := by simp [coded, hp]
    refine ⟨by simp [coded, hostSide, untouched], by rw [ho]; exact g2, by rw [hph, hp]; decide, ?_,
      by rw [ho]; exact g1, fun h => (by rw [hph] at h; cases h), by rw [ho]; exact g3,
      fun h => by rw [ho]; exact (putAll_spec l h).1, fun h => (by rw [hp] at h; cases h), fun _ => by simp [coded],
      .inl (by simp [coded]), fun h => (by rw [hp] at h; cases h), fun _ => .inl hne, fun _ _ => ?_, .inr (.inr p1), fun h => ?_,
      fun _ => by simp [coded]⟩
    · rw [hph]
      simp [coded]
    · unfold coded
      rw [updatePct_pct]
      exact (progress_congr (by simp) (by simp) (by simp) (by simp) (fun h => by
        simp only [updatePct_op] at h
        simp [State.progress, h])).symm
    · rw [p2]
      exact counted_prog s (by rwa [p1] at h)
  · rintro t (rfl | ⟨l, m, he, rfl⟩)
    · refine ⟨by simp [hostSide, untouched], rfl, by rw [hp]; simp [inputMoves], by simp, ⟨[], by simp⟩, fun h => (by cases h),
        fun h => h, fun h => h, fun h => (by rw [hp] at h; cases h), fun _ => rfl, .inl rfl,
        fun _ h => (by cases h), fun h => (by cases h),
        fun _ h => (by cases h), .inl rfl, fun h => ?_, fun _ => ⟨rfl, rfl⟩⟩
      exact absurd h (by simp)
    · obtain ⟨p1, p2⟩ := cp l
      obtain ⟨⟨x, g1⟩, g2, g3⟩ := putAll_rest l s.out
      obtain ⟨⟨y, g4⟩, g5, g6⟩ := putAll_rest m (putAll l s.out)
      have ho : (closed (coded s l) m).out = bpFlush (putAll m (putAll l s.out)) := by simp [closed, coded]
      have hph : (closed (coded s l) m).phase = .done := by simp [closed]
      have flush : packerOk s.out → _ := fun h => bpFlush_spec (putAll m (putAll l s.out))
        (putAll_spec m (putAll_spec l h).1).1
      -- the flush keeps what does not rest on the accumulator's order
      have hf : (∃ z, (bpFlush (putAll m (putAll l s.out))).seq = (putAll m (putAll l s.out)).seq ++ z) ∧
          (bpFlush (putAll m (putAll l s.out))).taken = (putAll m (putAll l s.out)).taken ∧
          ((putAll m (putAll l s.out)).cnt = BitVec.ofNat 64 (putAll m (putAll l s.out)).seq.length →
            (bpFlush (putAll m (putAll l s.out))).cnt =
              BitVec.ofNat 64 (bpFlush (putAll m (putAll l s.out))).seq.length) := by
        unfold bpFlush
        split
        · exact ⟨⟨[], by simp⟩, rfl, id⟩
        · exact ⟨⟨_, rfl⟩, rfl, (emit_grows _ _).cnt⟩
      obtain ⟨⟨z, f1⟩, f2, f3⟩ := hf
      refine ⟨by simp [closed, coded, hostSide, untouched], by rw [ho, f2, g5, g2], by rw [hph, hp]; decide, ?_,
        ⟨x ++ y ++ z, by rw [ho, f1, g4, g1]; simp⟩, fun h => (by rw [hph] at h; cases h), fun h => ?_, fun h => ?_,
        fun h => (by rw [hp] at h; cases h), fun _ => by simp [closed, coded], .inl (by simp [closed, coded]),
        fun h => (by rw [hp] at h; cases h), fun h => (by rw [hph] at h; cases h), fun _ h => (by rw [hph] at h; cases h), .inr (.inl (by simp [closed])),
        fun h => ?_, fun _ => by simp [closed, coded]⟩
      · rw [hph]
        simp [closed, coded]
      · rw [ho]
        exact f3 (g6 (g3 h))
      · rw [ho]
        exact (flush h).1
      · have hi : (closed (coded s l) m).irqPend =
            (if (coded s l).pct < 100 then (coded s l).irqPend ||| Irq.prog.bit else (coded s l).irqPend) |||
              Irq.done.bit := by simp [closed]
        have h100 : (closed (coded s l) m).pct = 100 := by simp [closed]
        rw [h100] at h
        rw [hi]
        apply or_keeps_bit
        split
        · exact prog_bit _
        · next hlt =>
          rw [p2]
          apply counted_prog
          rw [p1] at hlt
          rw [BitVec.lt_def] at h hlt ⊢
          omega

/-! ### The decoder -/

/-- What the part of the decoder's frame (R231) that belongs to a phase makes of the counted state `c`. -/
structure PartStep (c t : State) : Prop where
  keep : hostSide t = hostSide c
  grows : OutGrows c.out t.out
  phase : t.phase ∈ inputMoves c.phase
  err : if t.phase = .error then t.err.code ≠ .none ∧ t.discard = true else t.err = c.err ∧ t.discard = c.discard
  silent : phaseSilent t.phase = true → t.out = c.out
  freq : t.freq = c.freq
  inCnt : t.inCnt = c.inCnt
  pct : t.pct = c.pct ∨ t.phase = .done ∧ t.pct = 100
  prog : c.irqPend.getLsbD 3 = true → t.irqPend.getLsbD 3 = true
  rises : c.pct < t.pct → t.irqPend.getLsbD 3 = true
  ext : c.phase ≠ .decExt → t.ext = c.ext ∧ t.extLen = c.extLen

theorem hostSide_op {s t : State} (h : hostSide t = hostSide s) : t.op = s.op := (congrArg State.op h :)

theorem hostSide_totalLen {s t : State} (h : hostSide t = hostSide s) : t.totalLen = s.totalLen :=
  (congrArg State.totalLen h :)

theorem hostSide_of_untouched {s t : State} (h : untouched t = untouched s) : hostSide t = hostSide s := by
  have := congrArg hostSide h
  simpa [hostSide, untouched] using this

/-- A raise is an end a phase may come to. -/
theorem PartStep.error {c t : State} (h : PartStep c t) (e : ErrCode) (he : e ≠ .none) (hd : t.phase ≠ .done)
    (hm : .error ∈ inputMoves c.phase) : PartStep c (errorEntry e t) where
  keep := by rw [← h.keep]; simp [hostSide, untouched]
  grows := h.grows
  phase := hm
  err := by simp [he]
  silent := fun h => by cases h
  freq := h.freq
  inCnt := h.inCnt
  pct := by
    rcases h.pct with hp | ⟨hp, _⟩
    · exact .inl hp
    · exact absurd hp hd
  prog := fun g => or_keeps_bit _ _ (h.prog g)
  rises := fun g => or_keeps_bit _ _ (h.rises g)
  ext := h.ext

/-- A part that leaves IRQ_PEND, PCT and the output path alone. -/
theorem PartStep.plain {c t : State} (keep : hostSide t = hostSide c) (phase : t.phase ∈ inputMoves c.phase)
    (ne : t.phase ≠ .error) (err : t.err = c.err) (discard : t.discard = c.discard) (freq : t.freq = c.freq)
    (inCnt : t.inCnt = c.inCnt) (pct : t.pct = c.pct) (out : t.out = c.out)
    (irq : ∀ j, c.irqPend.getLsbD j = true → t.irqPend.getLsbD j = true)
    (ext : c.phase ≠ .decExt → t.ext = c.ext ∧ t.extLen = c.extLen) : PartStep c t where
  keep := keep
  grows := by rw [out]; exact .refl _
  phase := phase
  err := by rw [if_neg ne]; exact ⟨err, discard⟩
  silent := fun _ => out
  freq := freq
  inCnt := inCnt
  pct := .inl pct
  prog := irq 3
  rises := fun h => by rw [pct] at h; exact absurd h (by simp)
  ext := ext

theorem magicByte_part (b : Byte) (c : State) (hp : c.phase = .decMagic) :
    (magicByte b c).post (PartStep c) (fun t => PartStep c t ∧ phaseDecoding t.phase = false) := by
  have stay : ∀ d : Dec, PartStep c { c with dec := d } := fun d =>
    .plain (by simp [hostSide, untouched]) (by simp [hp, inputMoves]) (by simp [hp]) rfl rfl rfl rfl rfl rfl (fun _ h => h)
      fun _ => ⟨rfl, rfl⟩
  unfold magicByte
  dsimp only
  split
  · split
    · exact ⟨(stay _).error .magic (by decide) (by simp [hp]) (by simp [hp, inputMoves]), rfl⟩
    · exact .plain (by simp [hostSide, untouched]) (by simp [hp, inputMoves]) (by simp) rfl rfl rfl rfl rfl rfl
        (fun _ h => h) fun _ => ⟨rfl, rfl⟩
  · exact stay _

theorem extensionByte_part (b : Byte) (c : State) (hp : c.phase = .decExt) :
    (extensionByte b c).post (PartStep c) (fun t => PartStep c t ∧ phaseDecoding t.phase = false) := by
  have stay : PartStep c c :=
    .plain rfl (by simp [hp, inputMoves]) (by simp [hp]) rfl rfl rfl rfl rfl rfl (fun _ h => h) fun _ => ⟨rfl, rfl⟩
  unfold extensionByte
  split
  · refine .plain (by simp [hostSide, untouched, extEnd, State.pend]) (by simp [hp, inputMoves, extEnd, State.pend])
      (by simp [extEnd, State.pend]) rfl rfl rfl rfl rfl rfl (fun j h => ?_) fun h => absurd hp h
    simp [extEnd, State.pend, h]
  · unfold extAppend
    split
    · exact ⟨stay.error .extLong (by decide) (by simp [hp]) (by simp [hp, inputMoves]), rfl⟩
    · exact .plain (by simp [hostSide, untouched]) (by simp [hp, inputMoves]) (by simp [hp]) rfl rfl rfl rfl rfl rfl
        (fun _ h => h) fun h => absurd hp h

theorem BitsGo.part {c t : State} (h : BitsGo c t) (hp : c.phase = .decDict ∨ c.phase = .decPayload) :
    PartStep c t where
  keep := hostSide_of_untouched h.rest
  grows := h.grows
  phase := by
    rcases hp with hp | hp <;> rcases h.phase with h | ⟨g, h⟩ <;> simp_all [inputMoves]
  err := by
    rw [if_neg]
    · exact ⟨(congrArg State.err h.rest :), (congrArg State.discard h.rest :)⟩
    · rcases h.phase with g | ⟨_, g⟩
      · rw [g]; rcases hp with hp | hp <;> simp [hp]
      · simp [g]
  silent := fun hs => h.silent (by
    rcases h.phase with g | ⟨_, g⟩
    · rw [g] at hs ⊢
      rcases hp with hp | hp
      · exact hp
      · rw [hp] at hs; cases hs
    · rw [g] at hs; cases hs)
  freq := (congrArg State.freq h.rest :)
  inCnt := (congrArg State.inCnt h.rest :)
  pct := .inl ((congrArg State.pct h.rest :))
  prog := fun g => by
    have : t.irqPend = c.irqPend := (congrArg State.irqPend h.rest :)
    rw [this]; exact g
  rises := fun g => by
    have : t.pct = c.pct := (congrArg State.pct h.rest :)
    rw [this] at g; exact absurd g (by simp)
  ext := fun _ => ⟨(congrArg State.ext h.rest :), (congrArg State.extLen h.rest :)⟩

theorem takeBits_part (bits : List Bool) (c : State) (hp : c.phase = .decDict ∨ c.phase = .decPayload) :
    (takeBits bits c).post (PartStep c) (fun t => PartStep c t ∧ phaseDecoding t.phase = false) := by
  refine Flow.post_mono (takeBits_post bits c hp) (fun t h => h.part hp) ?_
  rintro t ⟨u, h, ⟨h1, rfl⟩ | ⟨h1, rfl⟩⟩
  · refine ⟨(h.part hp).error .skel (by decide) (by simp [h1]) ?_, rfl⟩
    rcases hp with hp | hp <;> simp [hp, inputMoves]
  · have g := h.part hp
    have hi : (finish u).irqPend =
        (if u.pct < 100 then u.irqPend ||| Irq.prog.bit else u.irqPend) ||| Irq.done.bit := by simp
    refine ⟨?_, by rw [finish_phase]; rfl⟩
    refine
      { keep := by rw [← g.keep]; simp [hostSide, untouched], grows := by simpa using g.grows
        phase := ?_, err := ?_, silent := fun h => by simp [phaseSilent] at h
        freq := by simpa using g.freq, inCnt := by simpa using g.inCnt, pct := .inr ⟨by simp, by simp⟩
        prog := fun k => ?_, rises := fun k => ?_, ext := by simpa using g.ext }
    · rw [finish_phase]
      rcases hp with hp | hp <;> simp [hp, inputMoves]
    · have := g.err
      rw [h1, if_neg (by decide)] at this
      rw [if_neg (by simp)]
      simpa using this
    · rw [hi]
      apply or_keeps_bit
      split
      · exact or_keeps_bit _ _ (g.prog k)
      · exact g.prog k
    · rw [hi]
      apply or_keeps_bit
      split
      · exact prog_bit _
      · next hlt =>
        apply g.rises
        have e : (finish u).pct = 100 := by simp
        rw [e] at k
        rw [BitVec.lt_def] at k hlt ⊢
        omega

theorem PartStep.inStep {b : Byte} {s t : State} (h : PartStep (counted s) t) (hd : phaseDecoding s.phase = true)
    (hf : phaseDecoding t.phase = true → t.inCnt ≠ t.totalLen) : InStep b s t := by
  have hc : (counted s).phase = s.phase := by simp [counted]
  have ho : (counted s).out = s.out := by simp [counted]
  have hm := h.phase
  rw [hc] at hm
  have hne : s.phase ≠ .encCount ∧ s.phase ≠ .encCode := by constructor <;> intro e <;> rw [e] at hd <;> cases hd
  have hkeep : hostSide t = hostSide s := h.keep.trans (by simp [hostSide, untouched, counted])
  have hg := h.grows
  rw [ho] at hg
  have hcr := counted_prog s
  refine
    { keep := hkeep, taken := hg.taken, phase := hm
      err := ?_, seq := hg.seq, silent := fun k => by rw [h.silent k, ho]
      cnt := hg.cnt, packer := fun k => ?_, freqCount := fun e => absurd e hne.1
      freqRest := fun _ => h.freq.trans (by simp [counted]), inCnt := .inl (h.inCnt.trans (by simp [counted]))
      turn := fun e => absurd e hne.1
      full := fun k => .inl (hf ?_), progress := fun k r => ?_, pct := ?_, rises := fun k => ?_
      ext := fun k => by simpa [counted] using h.ext (by rwa [hc]) }
  · have := h.err
    simpa [counted] using this
  · unfold packerOk at k ⊢
    rw [hg.acc, hg.nb]
    exact k
  · revert hm hd k
    cases s.phase <;> cases t.phase <;> simp [inputMoves, phaseDecoding, phaseAccepts]
  · rcases h.pct with e | ⟨e, _⟩
    · rw [e]
      unfold counted
      rw [updatePct_pct]
      refine (progress_congr (by simpa using hostSide_op hkeep) (by simpa using hostSide_totalLen hkeep)
        (by simpa [counted] using h.inCnt) ?_ ?_).symm
      · revert hm hd
        cases s.phase <;> cases t.phase <;> simp [inputMoves, phaseDecoding]
      · intro n
        rw [hostSide_op hkeep] at n
        unfold opOk at k
        revert k hd
        cases s.phase <;> simp [n, phaseDecoding]
    · rw [e] at r; cases r
  · rcases h.pct with e | ⟨_, e⟩
    · exact .inr (.inr e)
    · exact .inr (.inl e)
  · by_cases l : s.pct < (counted s).pct
    · exact h.prog (hcr l)
    · apply h.rises
      rw [BitVec.lt_def] at k l ⊢
      omega

theorem decFrame_inStep (b : Byte) (s : State) (part : State → Flow) (hd : phaseDecoding s.phase = true)
    (h : (part (counted s)).post (PartStep (counted s)) (fun t => PartStep (counted s) t ∧ phaseDecoding t.phase = false)) :
    (decFrame part s).post (InStep b s) (InStep b s) := by
  have herr : .error ∈ inputMoves (counted s).phase := by
    have hc : (counted s).phase = s.phase := by simp [counted]
    rw [hc]
    revert hd
    cases s.phase <;> simp [inputMoves, phaseDecoding]
  unfold decFrame
  refine Flow.post_bind (Flow.post_mono h (fun _ h => h)
    fun t g => g.1.inStep hd fun k => by rw [g.2] at k; cases k) ?_
  intro t g
  split
  · next hp =>
    unfold eofCheck
    split
    · exact (g.error .eof (by decide) (fun e => by rw [e] at hp; cases hp) herr).inStep hd fun k => by cases k
    · next hn => exact g.inStep hd fun _ => hn
  · next hp => exact g.inStep hd fun k => absurd k hp

/-- The reaction to one accepted input byte. -/
theorem inByte_post (b : Byte) (s : State) (ha : phaseAccepts s.phase = true) :
    (inByte b s).post (InStep b s) (InStep b s) := by
  have hc : (counted s).phase = s.phase := by simp [counted]
  unfold inByte
  split
  · next hp => exact inEncCount_post b s hp
  · next hp => exact inEncCode_inStep b s hp
  · next hp => exact decFrame_inStep b s _ (by rw [hp]; rfl) (magicByte_part b _ (hc.trans hp))
  · next hp => exact decFrame_inStep b s _ (by rw [hp]; rfl) (extensionByte_part b _ (hc.trans hp))
  · next hp => exact decFrame_inStep b s _ (by rw [hp]; rfl) (takeBits_part _ _ (.inl (hc.trans hp)))
  · next hp => exact decFrame_inStep b s _ (by rw [hp]; rfl) (takeBits_part _ _ (.inr (hc.trans hp)))
  · next hp => rw [hp] at ha; cases ha
  · next hp => rw [hp] at ha; cases ha
  · next hp => rw [hp] at ha; cases ha
  · next hp => rw [hp] at ha; cases ha

end Sys2Proof.Machine
end

