-- ==== Sys2Proof/Laws/Events.lean ====
section
/-!
SUPPORT. Which event a step takes (`takeEvent`), what the step then is, and that a byte in a state that meets the
invariant does not stop.
-/

namespace Sys2Proof.Machine

theorem takeEvent_cons_of_can {s : State} {e : HostEvent} (h : s.canTake e = true) (l : List HostEvent) :
    takeEvent s (e :: l) = some (e, l) := by
  simp [takeEvent, h]

/-- The event taken can take place; those before it cannot, and all others stay in their order. -/
theorem takeEvent_some {s : State} {l rest : List HostEvent} {e : HostEvent} (h : takeEvent s l = some (e, rest)) :
    s.canTake e = true ∧ ∃ a b, l = a ++ e :: b ∧ rest = a ++ b ∧ ∀ x ∈ a, s.canTake x = false := by
  induction l generalizing rest with
  | nil => cases h
  | cons x l ih =>
    unfold takeEvent at h
    split at h
    · next hx =>
      cases h
      exact ⟨hx, [], _, rfl, rfl, by simp⟩
    · next hx =>
      split at h
      · next f others hf =>
        cases h
        obtain ⟨h1, a, b, h2, h3, h4⟩ := ih hf
        refine ⟨h1, x :: a, b, by rw [h2]; rfl, by rw [h3]; rfl, ?_⟩
        intro y hy
        rcases List.mem_cons.1 hy with rfl | hy
        · simpa using hx
        · exact h4 y hy
      · cases h

/-- No event is taken exactly where none can take place. -/
theorem takeEvent_none {s : State} {l : List HostEvent} : takeEvent s l = none ↔ ∀ x ∈ l, s.canTake x = false := by
  induction l with
  | nil => simp [takeEvent]
  | cons x l ih =>
    unfold takeEvent
    split
    · next hx => simp [hx]
    · next hx =>
      have hx : s.canTake x = false := by simpa using hx
      cases hl : takeEvent s l with
      | none => simpa [hx] using ih.1 hl
      | some p =>
        obtain ⟨e, others⟩ := p
        obtain ⟨h1, a, b, h2, _⟩ := takeEvent_some hl
        simp only [reduceCtorEq, false_iff]
        intro hall
        have := hall e (by rw [h2]; simp)
        rw [h1] at this
        cases this

theorem step_of_takeEvent {s : State} {e : HostEvent} {rest : List HostEvent}
    (h : takeEvent s s.events = some (e, rest)) : step s = react e { s with events := rest } := by
  simp [step, h]

theorem step_of_none {s : State} (h : takeEvent s s.events = none) : step s = .next s := by
  simp [step, h]

/-- An input byte is accepted wherever one is taken. -/
theorem accepts_of_takeEvent {s : State} {b : Byte} {l rest : List HostEvent}
    (h : takeEvent s l = some (.inByte b, rest)) : phaseAccepts s.phase = true :=
  (takeEvent_some h).1

/-- A step on an input byte goes by `InStep`. -/
theorem step_inByte {s t : State} {b : Byte} {rest : List HostEvent}
    (h : takeEvent s s.events = some (.inByte b, rest)) (ht : step s = .next t) :
    InStep b { s with events := rest } t := by
  rw [step_of_takeEvent h] at ht
  have h0 := accepts_of_takeEvent h
  have ha : phaseAccepts (State.phase { s with events := rest }) = true := h0
  exact Flow.next_of_post (inByte_post b _ ha) ht

end Sys2Proof.Machine
end

