-- ==== Sys2Proof/Laws/PerInstr.lean ====
section
/-!
SUPPORT. Rules said of every instruction, one lemma per constructor. `TableWidth`: the encoding has a width that the row of
the opcode table gives (30_encoding.md R91, R97 to R99, R102, R103, R110).
-/

namespace Sys2Proof.Laws

/-- The number of bits of an encoding. -/
def encodedWidth : Encoded → Nat
  | .word _ => 32
  | .bits l => l.length

namespace TableWidth

/-- The least and the greatest width in bits of an instruction's row. -/
def range : Instr → Nat × Nat
  | .nop => (32, 32)
  | .encStart => (32, 32)
  | .decStart => (32, 32)
  | .sinkOk => (32, 32)
  | .stop _ => (32, 32)
  | .clear => (32, 32)
  | .magic _ => (16, 16)
  | .extByte _ => (8, 8)
  | .extTerm => (8, 8)
  | .slotInternal => (1, 1)
  | .slotLeaf _ => (10, 10)
  | .code _ => (1, 256)
  | .pad _ => (0, 7)

/-- The width of every well-formed instruction's encoding is within its row's. -/
def Statement (i : Instr) : Prop :=
  ∀ term : Byte, i.wellFormed term = true →
    (range i).1 ≤ encodedWidth (encode term i) ∧ encodedWidth (encode term i) ≤ (range i).2

theorem nop : Statement .nop := fun _ _ => ⟨Nat.le_refl _, Nat.le_refl _⟩
theorem encStart : Statement .encStart := fun _ _ => ⟨Nat.le_refl _, Nat.le_refl _⟩
theorem decStart : Statement .decStart := fun _ _ => ⟨Nat.le_refl _, Nat.le_refl _⟩
theorem sinkOk : Statement .sinkOk := fun _ _ => ⟨Nat.le_refl _, Nat.le_refl _⟩
theorem stop (arg : Byte) : Statement (.stop arg) := fun _ _ => ⟨Nat.le_refl _, Nat.le_refl _⟩
theorem clear : Statement .clear := fun _ _ => ⟨Nat.le_refl _, Nat.le_refl _⟩
theorem magic (value : BitVec 16) : Statement (.magic value) := fun _ _ => by
  simp [range, encodedWidth, encode, bitsMsb_length]
theorem extByte (b : Byte) : Statement (.extByte b) := fun _ _ => by
  simp [range, encodedWidth, encode, bitsMsb_length]
theorem extTerm : Statement .extTerm := fun _ _ => by
  simp [range, encodedWidth, encode, bitsMsb_length]
theorem slotInternal : Statement .slotInternal := fun _ _ => ⟨Nat.le_refl _, Nat.le_refl _⟩
theorem slotLeaf (sym : Sym) : Statement (.slotLeaf sym) := fun _ _ => by
  simp [range, encodedWidth, encode, bitsMsb_length]
theorem code (bits : List Bool) : Statement (.code bits) := fun _ h => of_decide_eq_true h
theorem pad (bits : List Bool) : Statement (.pad bits) := fun _ h => ⟨Nat.zero_le _, of_decide_eq_true h⟩

end TableWidth

end Sys2Proof.Laws
end

