-- ==== Sys2Proof/Laws/Ports.lean ====
section
/-!
SUPPORT. The host's register space (10_state.md R26, 20_memory.md R66 to R71): which register each address names, and the
words of a code.
-/

namespace Sys2Proof.Machine

/-- The addresses that are refused (R68, R69). -/
theorem regAt_none (a : BitVec 15) : regAt a = none ↔
    a.toNat % 4 ≠ 0 ∨ (0x054 ≤ a.toNat ∧ a.toNat < 0x400) ∨ (0x7FC ≤ a.toNat ∧ a.toNat < 0x800) ∨
      (0xC04 ≤ a.toNat ∧ a.toNat < 0x1000) ∨ (0x1404 ≤ a.toNat ∧ a.toNat < 0x2000) ∨ 0x4020 ≤ a.toNat := by
  unfold regAt
  dsimp only
  split
  · simp
    omega
  · split
    · rw [List.getElem?_eq_none_iff]
      simp [controlRegs]
      omega
    · repeat' split
      all_goals simp
      all_goals omega

/-- The byte address of a mapped word is below 2^15, so it is its own number. -/
theorem address_toNat {n : Nat} (h : n < 0x4020) : (BitVec.ofNat 15 n).toNat = n := by
  rw [BitVec.toNat_ofNat, Nat.mod_eq_of_lt (by omega)]

theorem regAt_ext (i : Nat) (h : i < 255) : regAt (BitVec.ofNat 15 (0x400 + 4 * i)) = some (.ext i) := by
  simp only [regAt, address_toNat (show 0x400 + 4 * i < 0x4020 by omega)]
  split_ifs <;> first | omega | exact congrArg (some ∘ Reg.ext) (by omega)

theorem regAt_freq (k : Nat) (h : k < 257) : regAt (BitVec.ofNat 15 (0x800 + 4 * k)) = some (.freq k) := by
  simp only [regAt, address_toNat (show 0x800 + 4 * k < 0x4020 by omega)]
  split_ifs <;> first | omega | exact congrArg (some ∘ Reg.freq) (by omega)

theorem regAt_codeLen (k : Nat) (h : k < 257) : regAt (BitVec.ofNat 15 (0x1000 + 4 * k)) = some (.codeLen k) := by
  simp only [regAt, address_toNat (show 0x1000 + 4 * k < 0x4020 by omega)]
  split_ifs <;> first | omega | exact congrArg (some ∘ Reg.codeLen) (by omega)

theorem regAt_codeBits (k w : Nat) (h : k < 257) (hw : w < 8) :
    regAt (BitVec.ofNat 15 (0x2000 + 32 * k + 4 * w)) = some (.codeBits k w) := by
  simp only [regAt, address_toNat (show 0x2000 + 32 * k + 4 * w < 0x4020 by omega)]
  split_ifs <;> first | omega | exact congrArg some (congrArg₂ Reg.codeBits (by omega) (by omega))

/-- Word w of a code holds its bits 32 w to 32 w + 31 (R45). -/
theorem codeWord_getMsbD (v : BitVec 256) (w j : Nat) (hw : w < 8) (hj : j < 32) :
    (codeWord v w).getMsbD j = v.getMsbD (32 * w + j) := by
  simp only [codeWord, BitVec.getMsbD_eq_getLsbD, BitVec.getLsbD_extractLsb']
  have h1 : decide (j < 32) = true := by simpa using hj
  have h2 : decide (32 * w + j < 256) = true := by simp; omega
  have h3 : decide (32 - 1 - j < 32) = true := by simp; omega
  rw [h1, h2, h3]
  simp only [Bool.true_and]
  congr 1
  omega

/-- Only EXT[i] reads as EXT[i]. -/
theorem ext_of_regAt {a : BitVec 15} {i : Nat} (h : regAt a = some (.ext i)) : i < 255 ∧ a.toNat = 0x400 + 4 * i := by
  unfold regAt at h
  dsimp only at h
  split at h
  · cases h
  · split at h
    · have no : ∀ x ∈ controlRegs, ∀ i, x ≠ Reg.ext i := by simp [controlRegs]
      exact absurd rfl (no _ (List.mem_of_getElem? h) i)
    · repeat' split at h
      all_goals cases h
      omega

end Sys2Proof.Machine
end

