-- ==== Sys2Proof/Laws/Reaction.lean ====
section
/-!
SUPPORT. Everything a step can do, said once: `Commanded` for a word written to CMD, `Reaction` for every host event.
The rules about whole steps follow by cases on them, without unfolding the meanings.
-/

namespace Sys2Proof.Machine

/-! ### Words by their fields -/

theorem commandWord_toNat (op arg : Byte) : (commandWord op arg).toNat = op.toNat + 256 * arg.toNat := by
  unfold commandWord
  rw [BitVec.toNat_append, BitVec.toNat_append]
  have := op.isLt
  have := arg.isLt
  rw [Nat.shiftLeft_eq, Nat.shiftLeft_eq]
  simp
  rw [Nat.mul_comm, ← Nat.two_pow_add_eq_or_of_lt (i := 8) (by omega)]
  omega

theorem opcode_cases (op : Byte) :
    op = 0#8 ∨ op = 1#8 ∨ op = 2#8 ∨ op = 3#8 ∨ op = 4#8 ∨ op = 5#8 ∨ 5 < op.toNat := by
  simp only [BitVec.toNat_eq]
  simp
  omega

theorem illegalWord_commandWord (op arg : Byte) (p : Phase) :
    illegalWord (commandWord op arg) p = !legalCommand op.toNat arg.toNat p := by
  have := op.isLt
  have := arg.isLt
  have h1 : (op.toNat + 256 * arg.toNat) % 256 = op.toNat := by omega
  have h2 : (op.toNat + 256 * arg.toNat) / 256 % 256 = arg.toNat := by omega
  have h3 : ¬ 65536 ≤ op.toNat + 256 * arg.toNat := by omega
  simp [illegalWord, commandWord_toNat, h1, h2, h3]

theorem legalCommand_reserved {op arg : Nat} {p : Phase} (h : 5 < op) : legalCommand op arg p = false := by
  unfold legalCommand
  split <;> first | omega | rfl

theorem big_of_zeroField (w : Word) (h : w.extractLsb' 16 16 ≠ 0#16) : 65536 ≤ w.toNat := by
  by_contra hc
  apply h
  apply BitVec.eq_of_toNat_eq
  simp [BitVec.extractLsb'_toNat, Nat.shiftRight_eq_div_pow]
  omega

theorem stopCause_none (arg : Byte) (p : Phase) : stopCause arg p = none ↔ legalCommand 4 arg.toNat p = false := by
  have : (arg = 0 ↔ arg.toNat = 0) ∧ (arg = 1 ↔ arg.toNat = 1) ∧ (arg = 2 ↔ arg.toNat = 2) := by
    refine ⟨?_, ?_, ?_⟩ <;> (rw [BitVec.toNat_eq]; simp)
  simp only [stopCause, legalCommand, this.1, this.2.1, this.2.2]
  by_cases h0 : arg.toNat = 0
  · cases p <;> simp [h0, phaseRunning]
  by_cases h1 : arg.toNat = 1
  · cases p <;> simp [h1, phaseRunning]
  by_cases h2 : arg.toNat = 2
  · cases p <;> simp [h2, phaseRunning]
  cases p <;> simp [h0, h1, h2, phaseRunning]

theorem stopCause_some {arg : Byte} {p : Phase} {c : ErrCode} (h : stopCause arg p = some c) :
    phaseRunning p = true ∧ c ≠ .none := by
  unfold stopCause at h
  split at h
  · cases h
  · next hr =>
    refine ⟨by simpa using hr, ?_⟩
    rintro rfl
    repeat' split at h
    all_goals cases h

/-! ### A word written to CMD -/

/-- What a word written to CMD may do. -/
inductive Commanded (s : State) : Word → State → Prop
  | rejected {w : Word} (h : illegalWord w s.phase = true) : Commanded s w (reject w s)
  | nop : Commanded s 0 s
  | encStart (h : s.phase = .idle) (h0 : s.totalLen ≠ 0) (h1 : s.totalLen ≠ Config.lenOver) :
      Commanded s 1 (encStarted s)
  | encFail {c : ErrCode} (h : s.phase = .idle) (hc : c ≠ .none) : Commanded s 1 (errorEntry c (encStarted s))
  | decStart (h : s.phase = .idle) (h0 : s.totalLen ≠ 0) : Commanded s 2 (decStarted s)
  | decFail (h : s.phase = .idle) : Commanded s 2 (errorEntry .eof (decStarted s))
  | sinkOk (h : s.phase = .decWait) (h0 : s.inCnt ≠ s.totalLen) : Commanded s 3 { s with phase := .decDict }
  | sinkFail (h : s.phase = .decWait) : Commanded s 3 (errorEntry .eof { s with phase := .decDict })
  | stop {arg : Byte} {c : ErrCode} (h : phaseRunning s.phase = true) (hc : c ≠ .none) :
      Commanded s (commandWord 4 arg) (errorEntry c s)
  | clear (h : phaseRunning s.phase = false) : Commanded s 5 (returnToIdle s)

theorem commandWrite_commanded (w : Word) (s : State) : ∃ t, commandWrite w s = .next t ∧ Commanded s w t := by
  by_cases h16 : w.extractLsb' 16 16 = 0#16
  · have hw := eq_commandWord w h16
    generalize w.extractLsb' 0 8 = op at hw
    generalize w.extractLsb' 8 8 = arg at hw
    subst hw
    have ill := illegalWord_commandWord op arg s.phase
    have none_of : ∀ e, decodeCommand (commandWord op arg) = .error e → legalCommand op.toNat arg.toNat s.phase = false →
        ∃ t, commandWrite (commandWord op arg) s = .next t ∧ Commanded s (commandWord op arg) t := by
      intro e he hl
      exact ⟨_, by simp only [commandWrite, he], .rejected (by rw [ill, hl]; rfl)⟩
    have some_of : ∀ i t, decodeCommand (commandWord op arg) = .ok i → exec i s = .next t →
        Commanded s (commandWord op arg) t →
        ∃ t, commandWrite (commandWord op arg) s = .next t ∧ Commanded s (commandWord op arg) t := by
      intro i t hd he hc
      exact ⟨t, by simp only [commandWrite, hd, he], hc⟩
    have arg0 : arg ≠ 0 → arg.toNat ≠ 0 := fun h e => h (by rw [BitVec.toNat_eq]; simpa using e)
    rw [decodeCommand_commandWord] at none_of some_of
    rcases opcode_cases op with rfl | rfl | rfl | rfl | rfl | rfl | h5
    · by_cases ha : arg = 0
      · subst ha
        exact some_of .nop s rfl rfl .nop
      · exact none_of .argNotZero (by simp; exact ha) (by simp [legalCommand, arg0 ha])
    · by_cases ha : arg = 0
      · subst ha
        by_cases hp : s.phase = .idle
        · have hx : exec .encStart s = if (encStarted s).totalLen = 0 then .next (errorEntry .empty (encStarted s))
              else if (encStarted s).totalLen = Config.lenOver then .next (errorEntry .range (encStarted s))
              else if extHoldsTerm (encStarted s) then .next (errorEntry .badExt (encStarted s))
              else .next (encStarted s) := by
            simp only [exec, execEncStart, hp, if_true]
          by_cases h0 : (encStarted s).totalLen = 0
          · exact some_of .encStart _ rfl (by rw [hx, if_pos h0]) (.encFail hp (by decide))
          · by_cases h1 : (encStarted s).totalLen = Config.lenOver
            · exact some_of .encStart _ rfl (by rw [hx, if_neg h0, if_pos h1]) (.encFail hp (by decide))
            · by_cases h2 : extHoldsTerm (encStarted s) = true
              · exact some_of .encStart _ rfl (by rw [hx, if_neg h0, if_neg h1, if_pos h2]) (.encFail hp (by decide))
              · exact some_of .encStart _ rfl (by rw [hx, if_neg h0, if_neg h1, if_neg h2]) (.encStart hp h0 h1)
        · exact some_of .encStart (reject (commandWord 1 0) s) rfl
            (by simp only [exec, execEncStart, hp, if_false]; rfl) (.rejected (by rw [ill]; simp [legalCommand, hp]))
      · exact none_of .argNotZero (by simp; exact ha) (by simp [legalCommand, arg0 ha])
    · by_cases ha : arg = 0
      · subst ha
        by_cases hp : s.phase = .idle
        · have hx : exec .decStart s = (eofCheck (decStarted s)).outcome := by
            simp only [exec, execDecStart, hp, if_true]
          by_cases h0 : s.totalLen = 0
          · exact some_of .decStart _ rfl (by rw [hx]; exact congrArg Flow.outcome (if_pos h0.symm)) (.decFail hp)
          · exact some_of .decStart _ rfl (by rw [hx]; exact congrArg Flow.outcome (if_neg fun e => h0 e.symm))
              (.decStart hp h0)
        · exact some_of .decStart (reject (commandWord 2 0) s) rfl
            (by simp only [exec, execDecStart, hp, if_false]; rfl) (.rejected (by rw [ill]; simp [legalCommand, hp]))
      · exact none_of .argNotZero (by simp; exact ha) (by simp [legalCommand, arg0 ha])
    · by_cases ha : arg = 0
      · subst ha
        by_cases hp : s.phase = .decWait
        · have hx : exec .sinkOk s = (eofCheck { s with phase := .decDict }).outcome := by
            simp only [exec, execSinkOk, hp, if_true]
          by_cases h0 : s.inCnt = s.totalLen
          · exact some_of .sinkOk _ rfl (by rw [hx]; unfold eofCheck; rw [if_pos h0]; rfl) (.sinkFail hp)
          · exact some_of .sinkOk _ rfl (by rw [hx]; unfold eofCheck; rw [if_neg h0]; rfl) (.sinkOk hp h0)
        · exact some_of .sinkOk (reject (commandWord 3 0) s) rfl
            (by simp only [exec, execSinkOk, hp, if_false]; rfl) (.rejected (by rw [ill]; simp [legalCommand, hp]))
      · exact none_of .argNotZero (by simp; exact ha) (by simp [legalCommand, arg0 ha])
    · by_cases h2 : arg.toNat ≤ 2
      · cases hs : stopCause arg s.phase with
        | none =>
          exact some_of (.stop arg) (reject (commandWord 4 arg) s) (by simp [h2])
            (by simp only [exec, execStop, hs]; rfl) (.rejected (by
              have hl : legalCommand (4#8).toNat arg.toNat s.phase = false := (stopCause_none _ _).1 hs
              rw [ill, hl]; rfl))
        | some c =>
          exact some_of (.stop arg) (errorEntry c s) (by simp [h2]) (by simp only [exec, execStop, hs])
            (.stop (stopCause_some hs).1 (stopCause_some hs).2)
      · refine none_of .stopReasonReserved (by simp [h2]) ?_
        have h0 : arg.toNat ≠ 0 ∧ arg.toNat ≠ 1 ∧ arg.toNat ≠ 2 := by omega
        simp [legalCommand, h0]
    · by_cases ha : arg = 0
      · subst ha
        cases hp : phaseRunning s.phase with
        | true =>
          refine some_of .clear (reject (commandWord 5 0) s) rfl (by simp only [exec, execClear, hp, if_true]; rfl)
            (.rejected ?_)
          rw [ill]
          revert hp
          cases s.phase <;> simp [legalCommand, phaseRunning]
        | false => exact some_of .clear (returnToIdle s) rfl (by simp [exec, execClear, hp]) (.clear hp)
      · exact none_of .argNotZero (by simp; exact ha) (by simp [legalCommand, arg0 ha])
    · have hn : ¬ op = 4#8 := by
        intro e
        subst e
        simp at h5
      exact none_of .opcodeReserved (by simp [hn, h5]) (legalCommand_reserved h5)
  · have hd : decodeCommand w = .error .zeroField := by simp [decodeCommand, h16]
    have hb := big_of_zeroField w h16
    exact ⟨_, by simp only [commandWrite, hd], .rejected (by simp [illegalWord, hb])⟩

/-! ### Every host event -/

/-- What a step on an event may do; `s` is the state without that event. -/
inductive Reaction (s : State) : HostEvent → State → Prop
  | read {a : BitVec 15} (r : Reply) (d : Nat) : Reaction s (.read a) { s with reply := r, draws := d }
  | narrow {a : BitVec 15} : Reaction s (.narrow a) { s with reply := .busError }
  | port {a : BitVec 15} {v : Word} (h : a ≠ 0x004) (r : Reply) : Reaction s (.write a v) { s with reply := r }
  | config {a : BitVec 15} {v : Word} (h : a ≠ 0x004) (hp : s.phase = .idle) (f : Bool) (n : Word) (l : Byte)
      (x : Vector Byte 255) :
      Reaction s (.write a v) { s with force := f, totalLen := n, extLen := l, ext := x, reply := .ack }
  | irqEn {v : Word} (e : BitVec 5) : Reaction s (.write 0x018 v) { s with irqEn := e, reply := .ack }
  | irqPend {v : Word} (p : BitVec 5) : Reaction s (.write 0x01C v) { s with irqPend := p, reply := .ack }
  | command {w : Word} {t : State} (h : Commanded { s with reply := .ack } w t) : Reaction s (.write 0x004 w) t
  | byte {b : Byte} {t : State} (ha : phaseAccepts s.phase = true) (h : InStep b s t) : Reaction s (.inByte b) t
  | out (h : s.out.taken < s.out.seq.length) : Reaction s .outByte (outTransfer s)
  | reset : Reaction s .reset (hardReset s)

/-- Which registers the control addresses name: each has one address. -/
theorem regAt_control {a : BitVec 15} {r : Reg} (h : regAt a = some r) :
    (r = .cmd → a = 0x004) ∧ (r = .irqEn → a = 0x018) ∧ (r = .irqPend → a = 0x01C) := by
  have key : ∀ k : Nat, k < 256 → controlRegs[k]? = some r →
      (r = .cmd → k = 1) ∧ (r = .irqEn → k = 6) ∧ (r = .irqPend → k = 7) := by
    intro k hk
    by_cases h21 : k < 21
    · interval_cases k <;> (intro h; cases h; decide)
    · intro h
      rw [List.getElem?_eq_none (by simp [controlRegs]; omega)] at h
      cases h
  unfold regAt at h
  dsimp only at h
  split at h
  · cases h
  · next h4 =>
    split at h
    · next hlt =>
      obtain ⟨k1, k2, k3⟩ := key _ (by omega) h
      refine ⟨fun e => ?_, fun e => ?_, fun e => ?_⟩
      · have := k1 e
        rw [BitVec.toNat_eq]
        simp
        omega
      · have := k2 e
        rw [BitVec.toNat_eq]
        simp
        omega
      · have := k3 e
        rw [BitVec.toNat_eq]
        simp
        omega
    · repeat' split at h
      all_goals (cases h; try exact ⟨nofun, nofun, nofun⟩)

theorem writeReg_reaction {a : BitVec 15} {v : Word} {r : Reg} (s : State) (h : regAt a = some r) (hc : r ≠ .cmd) :
    Reaction s (.write a v) (writeReg r v s) := by
  obtain ⟨_, h2, h3⟩ := regAt_control h
  have ha : a ≠ 0x004 := by
    rintro rfl
    exact hc (Option.some.inj h).symm
  cases r with
  | cmd => exact absurd rfl hc
  | irqEn =>
    rw [h2 rfl]
    exact .irqEn _
  | irqPend =>
    rw [h3 rfl]
    exact .irqPend _
  | ctrl =>
    unfold writeReg writeConfig
    dsimp only
    split
    · next hp => exact .config ha hp _ _ _ _
    · exact .port ha _
  | totalLen =>
    unfold writeReg writeConfig
    dsimp only
    split
    · next hp => exact .config ha hp _ _ _ _
    · exact .port ha _
  | extLen =>
    unfold writeReg writeConfig
    dsimp only
    split
    · next hp => exact .config ha hp _ _ _ _
    · exact .port ha _
  | ext i =>
    unfold writeReg writeConfig
    dsimp only
    split
    · next hp => exact .config ha hp _ _ _ _
    · exact .port ha _
  | id | status | err | errInfo | inCnt | outCntLo | outCntHi | estLo | estHi | nleaf | nnode | pct | magic | param
  | badCmd | freq _ | codeLen _ | codeBits _ _ => exact .port ha _

theorem react_reaction {s t : State} {e : HostEvent} (hc : s.canTake e = true) (ht : react e s = .next t) :
    Reaction s e t := by
  cases e with
  | read a =>
    cases ht
    unfold hostRead
    split
    · exact .read _ s.draws
    · exact .read _ _
  | write a v =>
    have ht : hostWrite a v s = .next t := ht
    unfold hostWrite at ht
    split at ht
    · next hr =>
      cases ht
      refine .port ?_ _
      rintro rfl
      cases hr
    · next hr =>
      have ha := (regAt_control hr).1 rfl
      obtain ⟨u, hu, hcm⟩ := commandWrite_commanded v { s with reply := .ack }
      rw [hu] at ht
      cases ht
      rw [ha]
      exact .command hcm
    · next r hn hr =>
      cases ht
      exact writeReg_reaction s hr hn
  | narrow a =>
    cases ht
    exact .narrow
  | inByte b => exact .byte hc (Flow.next_of_post (inByte_post b s hc) ht)
  | outByte =>
    cases ht
    refine .out ?_
    have : (s.out.seq[s.out.taken]?).isSome = true := hc
    simpa using this
  | reset =>
    cases ht
    exact .reset

/-- A step is a reaction to the event taken, or a wait. -/
theorem step_reaction {s t : State} (ht : step s = .next t) :
    (∃ e rest, takeEvent s s.events = some (e, rest) ∧ Reaction { s with events := rest } e t) ∨
    takeEvent s s.events = none ∧ t = s := by
  cases h : takeEvent s s.events with
  | none =>
    rw [step_of_none h] at ht
    cases ht
    exact .inr ⟨rfl, rfl⟩
  | some p =>
    obtain ⟨e, rest⟩ := p
    rw [step_of_takeEvent h] at ht
    have hc := (takeEvent_some h).1
    refine .inl ⟨e, rest, rfl, react_reaction ?_ ht⟩
    cases e <;> exact hc

end Sys2Proof.Machine
end

