-- ==== Sys2Proof/Laws/Running.lean ====
section
/-!
SUPPORT. No input byte stops the machine in a state that meets the invariant, and what the decoder's and the encoder's
parts of the invariant become. The counts of pass 1 do not wrap.
-/

namespace Sys2Proof.Machine

/-! ### The counts of pass 1 -/

theorem sum_set (l : List Nat) (i x : Nat) (h : i < l.length) : (l.set i x).sum + l[i] = l.sum + x := by
  induction l generalizing i with
  | nil => simp at h
  | cons y l ih =>
    cases i with
    | zero => simp; omega
    | succ i =>
      have := ih i (by simpa using h)
      simp only [List.set_cons_succ, List.sum_cons, List.getElem_cons_succ]
      omega

theorem byteCount_ftAdd (b : Byte) (f : Vector Word 257) :
    byteCount (ftAdd b f) + f[b.toNat].toNat = byteCount f + (f[b.toNat] + 1).toNat := by
  have hb := b.isLt
  have hl : b.toNat < ((f.toList.take 256).map BitVec.toNat).length := by simp; omega
  have e : ((ftAdd b f).toList.take 256).map BitVec.toNat =
      ((f.toList.take 256).map BitVec.toNat).set b.toNat (f[b.toNat] + 1).toNat := by
    unfold ftAdd
    rw [Vector.toList_set, List.take_set, List.map_set]
  unfold byteCount
  rw [e]
  have := sum_set _ _ (f[b.toNat] + 1).toNat hl
  rw [List.getElem_map, List.getElem_take, Vector.getElem_toList] at this
  exact this

theorem le_byteCount (b : Byte) (f : Vector Word 257) : f[b.toNat].toNat ≤ byteCount f := by
  have hb := b.isLt
  have hl : b.toNat < ((f.toList.take 256).map BitVec.toNat).length := by simp; omega
  have h := List.getElem_mem hl
  have e : ((f.toList.take 256).map BitVec.toNat)[b.toNat] = f[b.toNat].toNat := by simp
  rw [e] at h
  exact List.le_sum_of_mem h

/-- Where the counts add up to less than LEN_MAX, one more is counted and none wraps (41_frequency_table.md R138). -/
theorem byteCount_succ (b : Byte) (f : Vector Word 257) (h : byteCount f < 2 ^ 32 - 1) :
    byteCount (ftAdd b f) = byteCount f + 1 ∧ (f[b.toNat] + 1).toNat = f[b.toNat].toNat + 1 := by
  have h1 := le_byteCount b f
  have h2 := byteCount_ftAdd b f
  have h3 : (f[b.toNat] + 1).toNat = f[b.toNat].toNat + 1 := by
    rw [BitVec.toNat_add]
    simp
    omega
  omega

theorem presentFrom_ftAdd (b : Byte) (f : Vector Word 257) (h : byteCount f < 2 ^ 32 - 1) :
    1 ≤ presentFrom (ftAdd b f) 0 256 := by
  have hb := b.isLt
  have h1 := (byteCount_succ b f h).2
  unfold presentFrom
  apply List.length_pos_of_mem (a := b.toNat)
  rw [List.mem_filter]
  refine ⟨by simpa using hb, ?_⟩
  have e : (ftAdd b f)[0 + b.toNat]?.getD 0 = f[b.toNat] + 1 := by
    unfold ftAdd
    simp
  rw [e]
  simp only [decide_eq_true_eq]
  intro h0
  rw [h0] at h1
  simp at h1

theorem ftAdd_sentinel (b : Byte) (f : Vector Word 257) : (ftAdd b f)[256] = f[256] := by
  have hb := b.isLt
  unfold ftAdd
  rw [Vector.getElem_set_ne _ _ (by omega)]

/-! ### Every phase -/

/-- What the parts of the invariant that belong to the decoder, the code table and the path buffer say. -/
def unitsOk (s : State) : Prop := decoderOk s ∧ payloadOk s ∧ codesOk s ∧ pathOk s

theorem unitsOk.decoding {s : State} (h : unitsOk s) : decodingOk s := ⟨h.1.2.2, h.2.1, h.2.2.2⟩

/-- In a phase that is none of the decoder's and not ENC_CODE little is said. -/
theorem unitsOk_of_closed {s : State} (h : s.phase = .error ∨ s.phase = .done ∨ s.phase = .idle ∨ s.phase = .encCount)
    (hl : s.codes.pathLen = 0) : unitsOk s := by
  refine ⟨⟨fun e => ?_, fun e => ?_, fun e => ?_⟩, fun e => ?_, fun e => ?_, hl⟩ <;>
    rcases h with h | h | h | h <;> rw [h] at e <;> simp at e

theorem unitsOk_of_decoding {s : State} (h : s.phase = .decDict ∨ s.phase = .decPayload) (g : decodingOk s) :
    unitsOk s := by
  refine ⟨⟨fun e => ?_, fun e => ?_, g.1⟩, g.2.1, fun e => ?_, g.2.2⟩ <;>
    rcases h with h | h <;> rw [h] at e <;> simp at e

/-- The parts of the invariant that an input byte is checked against. -/
theorem inByte_runs (b : Byte) (s : State) (hc : countsOk s) (hk : countersOk s) (hu : unitsOk s)
    (ha : phaseAccepts s.phase = true) : (inByte b s).runs unitsOk unitsOk := by
  have hl := hu.2.2.2
  have eof : ∀ t : State, unitsOk t → (if phaseDecoding t.phase then eofCheck t else Flow.go t).runs unitsOk unitsOk := by
    intro t ht
    split
    · unfold eofCheck
      split
      · exact unitsOk_of_closed (.inl rfl) ht.2.2.2
      · exact ht
    · exact ht
  have hup : ∀ t : State, unitsOk (State.updatePct t) ↔ unitsOk t := by
    intro t
    simp only [unitsOk, decoderOk, payloadOk, codesOk, pathOk, updatePct_phase, updatePct_dec, updatePct_stack,
      updatePct_tree, updatePct_codes]
  have hcnt : unitsOk (counted s) := (hup _).2 hu
  have hph : (counted s).phase = s.phase := by simp [counted]
  unfold inByte
  split
  · next hp =>
    obtain ⟨h1, h2⟩ := hc.2.1 hp
    have h3 := hk.1 ha
    unfold inEncCount
    dsimp only
    split
    · refine Flow.runs_mono (endOfPass1_runs _ ?_) ?_ ?_
      · rw [updatePct_freq]
        exact presentFrom_ftAdd b s.freq (by omega)
      · rintro t ⟨g1, g2, g3⟩
        refine ⟨⟨fun e => ?_, fun e => ?_, fun e => ?_⟩, fun e => ?_, fun _ => g2, g3⟩ <;> rw [g1] at e <;> simp at e
      · rintro t ⟨g1, g2⟩
        exact unitsOk_of_closed (.inl g1) g2
    · exact unitsOk_of_closed (.inr (.inr (.inr (by simpa using hp)))) (by rw [updatePct_codes]; exact hl)
  · next hp =>
    refine Flow.runs_mono (inEncCode_runs b s (hu.2.2.1 hp)) ?_ ?_
    · rintro t ⟨g1, g2⟩
      have g1 := g1.trans hp
      refine ⟨⟨fun e => ?_, fun e => ?_, fun e => ?_⟩, fun e => ?_, fun _ => ?_, ?_⟩
      · rw [g1] at e; cases e
      · rw [g1] at e; simp at e
      · rw [g1] at e; cases e
      · rw [g1] at e; cases e
      · rw [g2]; exact hu.2.2.1 hp
      · unfold pathOk
        rw [g2]; exact hl
    · rintro t ⟨g1, g2⟩
      refine unitsOk_of_closed ?_ (by rw [g2]; exact hl)
      rcases g1 with g1 | g1
      · exact .inl g1
      · exact .inr (.inl g1)
  · next hp =>
    have h1 := hcnt.1.1 (hph.trans hp)
    have h2 := hcnt.1.2.1 (.inl (hph.trans hp))
    have hl := hcnt.2.2.2
    refine Flow.runs_bind (G := unitsOk) ?_ eof
    show (magicByte b (counted s)).runs unitsOk unitsOk
    have hp := hph.trans hp
    generalize counted s = c at *
    unfold magicByte
    dsimp only
    split
    · split
      · exact unitsOk_of_closed (.inl rfl) hl
      · refine ⟨⟨fun e => ?_, fun _ => h2, fun e => ?_⟩, fun e => ?_, fun e => ?_, hl⟩ <;> cases e
    · next hne =>
      have : (c.dec.magN + 1).toNat ≠ 2 := fun e => hne (by rw [BitVec.toNat_eq]; simpa using e)
      refine ⟨⟨fun _ => ?_, fun _ => h2, fun e => ?_⟩, fun e => ?_, fun e => ?_, hl⟩
      · show (c.dec.magN + 1).toNat < 2
        have e : (c.dec.magN + 1).toNat = c.dec.magN.toNat + 1 := by
          rw [BitVec.toNat_add]
          simp
          omega
        omega
      · rw [show State.phase _ = c.phase from rfl, hp] at e; cases e
      · rw [show State.phase _ = c.phase from rfl, hp] at e; cases e
      · rw [show State.phase _ = c.phase from rfl, hp] at e; cases e
  · next hp =>
    have h2 := hcnt.1.2.1 (.inr (.inl (hph.trans hp)))
    have hl := hcnt.2.2.2
    refine Flow.runs_bind (G := unitsOk) ?_ eof
    show (extensionByte b (counted s)).runs unitsOk unitsOk
    have hp := hph.trans hp
    generalize counted s = c at *
    unfold extensionByte
    split
    · refine ⟨⟨fun e => ?_, fun _ => h2, fun e => ?_⟩, fun e => ?_, fun e => ?_, hl⟩ <;> cases e
    · unfold extAppend
      split
      · exact unitsOk_of_closed (.inl rfl) hl
      · refine ⟨⟨fun e => ?_, fun _ => h2, fun e => ?_⟩, fun e => ?_, fun e => ?_, hl⟩ <;>
          (rw [show State.phase _ = c.phase from rfl, hp] at e; cases e)
  all_goals first
    | next hp =>
      refine Flow.runs_bind (G := unitsOk) ?_ eof
      refine Flow.runs_mono (takeBits_runs _ (counted s) ?_ hcnt.decoding) ?_ ?_
      · rw [hph, hp]; simp
      · exact fun t h => unitsOk_of_decoding h.1 h.2
      · rintro t ⟨h | h, h2⟩
        · exact unitsOk_of_closed (.inl h) h2
        · exact unitsOk_of_closed (.inr (.inl h)) h2
    | next hp => rw [hp] at ha; cases ha

end Sys2Proof.Machine
end

