-- ==== Sys2Proof/Tests/Slice0.lean ====
section
/-!
SUPPORT. Tests by kernel evaluation. Expected values are those of spec/95_test_vectors.md, named by their V-numbers, or
written out from a rule. The second half shows, for every statement with hypotheses, states and operands that meet them.
-/

namespace Sys2Proof.Tests

open Sys2Proof Sys2Proof.Machine

-- One theorem at a time: each kernel evaluation waits for those before it, and waiting in parallel costs memory.
set_option Elab.async false

/-! ### Helpers -/

/-- A state whose arrays hold zeros, so that they can be evaluated. -/
def blank : State :=
  { State.reset with
    ext := Vector.replicate 255 0
    freq := Vector.replicate 257 0
    queue := { heap := Vector.replicate 257 default, hn := 0 }
    stack := { ps := Vector.replicate 513 default, psn := 0 }
    tree := { node := Vector.replicate 513 .bare, nn := 0, fill := 0, sentNode := 0 }
    codes := { len := Vector.replicate 257 0, bits := Vector.replicate 257 0, path := 0, pathLen := 0 } }

/-- Something of the next state, where there is one. -/
def see {α : Type} (f : State → α) : Host.Outcome State Fault Refusal → Option α
  | .next t => some (f t)
  | .fault _ => none
  | .refused _ => none

/-- A step on one event. -/
def on (s : State) (e : HostEvent) : Host.Outcome State Fault Refusal := step { s with events := [e] }

/-- A step on a word written to CMD. -/
def cmd (s : State) (w : Word) : Host.Outcome State Fault Refusal := on s (.write 0x004 w)

/-- The tree of V43-1 (its nodes beside it) and its code table (V44-1). -/
def treeV431 : Tree :=
  { node := ((((blank.tree.node.setIfInBounds 0 (.pair 1 2)).setIfInBounds 1 (.leaf 65)).setIfInBounds 2
      (.pair 3 4)).setIfInBounds 3 (.leaf 66)).setIfInBounds 4 (.leaf 256)
    nn := 5, fill := 2, sentNode := 4 }

def codesV441 : Codes :=
  { len := ((blank.codes.len.setIfInBounds 65 1).setIfInBounds 66 2).setIfInBounds 256 2
    bits := (blank.codes.bits.setIfInBounds 66 (2#2 ++ 0#254)).setIfInBounds 256 (3#2 ++ 0#254)
    path := 0, pathLen := 0 }

/-- The construction sequence of V43-1. -/
def orderV431 : List (Option Sym) := [none, some 65, none, some 66, some 256]

/-- A decoder in DEC_PAYLOAD over that tree, 75 of 76 bytes in (V47-1). -/
def paying : State :=
  { blank with
    phase := .decPayload, op := .decompress, totalLen := 76, inCnt := 75, pct := 98, tree := treeV431, codes := codesV441
    codeValid := true }

/-- A decoder in DEC_DICT with `n` slots read; those of `l` at the bottom, all others without a symbol. -/
def slots (l : List (Option Sym)) (n : Nat) : State :=
  { blank with
    phase := .decDict, op := .decompress, totalLen := 76, inCnt := 40, pct := 52
    stack :=
      { ps := tabulate 513 fun i => { weight := 1, sym := l[i]?.join }
        psn := BitVec.ofNat 10 n }
    dec := { blank.dec with slot := BitVec.ofNat 10 n } }

/-! ### Well-formedness: an ill-formed term for each check -/

theorem test_stop_reason_3_is_ill_formed : (Instr.stop 3).wellFormed 0 = false := by decide +kernel
theorem test_extension_byte_is_not_the_terminator : (Instr.extByte 0x2E).wellFormed 0x2E = false := by decide +kernel
theorem test_code_of_no_bits_is_ill_formed : (Instr.code []).wellFormed 0 = false := by decide +kernel
theorem test_code_of_257_bits_is_ill_formed : (Instr.code (List.replicate 257 true)).wellFormed 0 = false := by decide +kernel
theorem test_pad_of_8_bits_is_ill_formed : (Instr.pad (List.replicate 8 false)).wellFormed 0 = false := by decide +kernel

/-! ### Decoding: every constructor from bits written out (R91 to R93, R97 to R103) -/

theorem test_decode_nop : decodeCommand 0b00000000000000000000000000000000#32 = .ok .nop := by decide +kernel
theorem test_decode_encStart : decodeCommand 0b00000000000000000000000000000001#32 = .ok .encStart := by decide +kernel
theorem test_decode_decStart : decodeCommand 0b00000000000000000000000000000010#32 = .ok .decStart := by decide +kernel
theorem test_decode_sinkOk : decodeCommand 0b00000000000000000000000000000011#32 = .ok .sinkOk := by decide +kernel
theorem test_decode_stop : decodeCommand 0b00000000000000000000001000000100#32 = .ok (.stop 2) := by decide +kernel
theorem test_decode_clear : decodeCommand 0b00000000000000000000000000000101#32 = .ok .clear := by decide +kernel
theorem test_decode_magic : decodeToken .magic
    [false, true, false, false, true, false, false, false, false, true, false, false, false, true, true, false, true] =
    .ok (.magic 0x4846, [true]) := by decide +kernel
theorem test_decode_extByte : decodeToken (.ext 0) [false, true, true, true, false, true, false, false] =
    .ok (.extByte 0x74, []) := by decide +kernel
theorem test_decode_extTerm : decodeToken (.ext 0) [false, false, false, false, false, false, false, false] =
    .ok (.extTerm, []) := by decide +kernel
theorem test_decode_slotInternal : decodeToken .slot [false, true] = .ok (.slotInternal, [true]) := by decide +kernel
theorem test_decode_slotLeaf : decodeToken .slot
    [true, true, false, false, false, false, false, false, false, false, true] = .ok (.slotLeaf 256, [true]) := by decide +kernel
theorem test_decode_code : decodeToken (.code treeV431.node) [true, false, true, true] =
    .ok (.code [true, false], [true, true]) := by decide +kernel
theorem test_decode_pad : decodeToken .pad [false, false, false] = .ok (.pad [false, false, false], []) := by decide +kernel

/-- The illegal words of V48-1 that are illegal in every phase (R94). -/
theorem test_reserved_words_are_refused :
    decodeCommand 0x00000006 = .error .opcodeReserved ∧ decodeCommand 0x000000FF = .error .opcodeReserved ∧
    decodeCommand 0x00010001 = .error .zeroField ∧ decodeCommand 0x00000101 = .error .argNotZero ∧
    decodeCommand 0x00000304 = .error .stopReasonReserved := by decide +kernel

/-- The table's numbering: bit 0 is the least significant bit of the first word (log 10). -/
theorem test_table_words : decodeTableWord 32 5 = some .clear ∧ decodeTableWord 16 0x4648 = some (.magic 0x4846) ∧
    decodeTableWord 8 0 = some .extTerm ∧ decodeTableWord 10 0b1001000001 = some (.slotLeaf 65) ∧
    decodeTableWord 1 0 = some .slotInternal ∧ decodeTableWord 32 0xFF = none := by decide +kernel

theorem test_fetched_clear_runs_first_after_reset :
    see (fun t => (t.phase, t.cmderr)) (step (State.reset.withFetchWord 32 5)) = some (.idle, false) := by decide +kernel

theorem test_fetched_magic_runs_first_after_reset :
    see (fun t => (t.phase, t.dec.magAcc)) (step (State.reset.withFetchWord 16 0x4648)) = some (.decExt, 0x4846) := by
  decide +kernel

/-! ### Commands -/

/-- V48-1: in IDLE after the rejections, NOP changes nothing. -/
theorem test_nop : see (fun t => (t.statusWord, t.badCmd)) (cmd { blank with cmderr := true, badCmd := 0x104 } 0) =
    some (0x0200, 0x104) := by decide +kernel

/-- V46-1, first row. -/
theorem test_encStart : see (fun t => (t.statusWord, t.inCnt, t.pct)) (cmd { blank with totalLen := 4, force := true } 1) =
    some (0x0011, 0, 0) := by decide +kernel

/-- V46-6, first row: E_EMPTY wins over E_BADEXT. -/
theorem test_encStart_empty : see (fun t => (t.errWord, t.err.info, t.statusWord, t.irqPend))
    (cmd { blank with extLen := 1 } 1) = some (0x131, 0, 0x0519, 0x02) := by decide +kernel

/-- V47-1, first row. -/
theorem test_decStart : see (fun t => (t.statusWord, t.pct)) (cmd { blank with totalLen := 76 } 2) = some (0x0023, 0) := by
  decide +kernel

/-- V47-4, first row. -/
theorem test_decStart_empty : see (fun t => (t.errWord, t.err.info, t.pct, t.irqPend)) (cmd blank 2) =
    some (0x310, 0, 0, 0x02) := by decide +kernel

def waiting : State :=
  { blank with phase := .decWait, op := .decompress, totalLen := 76, inCnt := 7, extLen := 4, pct := 9, irqPend := 0x0C }

/-- V47-1. -/
theorem test_sinkOk : see (fun t => (t.statusWord, t.inCnt)) (cmd waiting 3) = some (0x0026, 7) := by decide +kernel

/-- V47-4, TOTAL_LEN = 7. -/
theorem test_sinkOk_at_the_end : see (fun t => (t.errWord, t.err.info)) (cmd { waiting with totalLen := 7 } 3) =
    some (0x610, 7) := by decide +kernel

/-- V47-7. -/
theorem test_stop_conflict : see (fun t => (t.errWord, t.err.info, t.pct, t.irqPend)) (cmd waiting 0x104) =
    some (0x520, 7, 9, 0x0E) := by decide +kernel

/-- V48-1: STOP in IDLE is rejected. -/
theorem test_stop_in_idle : see (fun t => (t.statusWord, t.badCmd, t.irqPend)) (cmd blank 4) = some (0x0200, 4, 0x10) := by
  decide +kernel

/-- V48-2: CLEAR in DONE keeps the valid flags. -/
theorem test_clear : see (fun t => (t.statusWord, t.inCnt, t.pct, t.irqPend))
    (cmd { blank with phase := .done, op := .compress, freqValid := true, codeValid := true, cmderr := true, inCnt := 4
                      pct := 100, irqPend := 0x19 } 5) = some (0x1800, 0, 0, 0) := by decide +kernel

/-! ### Tokens -/

/-- V47-3: a wrong second byte. -/
theorem test_magic_mismatch : see (fun t => (t.errWord, t.err.info, t.statusWord))
    (exec (.magic 0x4847) { blank with phase := .decMagic, op := .decompress, totalLen := 76, inCnt := 2 }) =
    some (0x301, 2, 0x0529) := by decide +kernel

/-- V47-6: the 256th extension byte. -/
theorem test_extension_too_long : see (fun t => (t.errWord, t.err.info, t.extLen))
    (exec (.extByte 0x61) { blank with phase := .decExt, op := .decompress, totalLen := 400, inCnt := 258, extLen := 255 }) =
    some (0x403, 258, 255) := by decide +kernel

/-- V47-1: the terminator. -/
theorem test_extTerm : see (fun t => (t.statusWord, t.extLen, t.irqPend))
    (exec .extTerm { blank with phase := .decExt, op := .decompress, totalLen := 76, inCnt := 7, extLen := 4 }) =
    some (0x2025, 4, 0x04) := by decide +kernel

/-- R200: one slot each. -/
theorem test_slotInternal : see (fun t => (t.stack.psn, t.dec.slot, t.stack.ps[2]?)) (exec .slotInternal (slots [none] 2)) =
    some (3, 3, some { weight := 1, sym := none }) := by decide +kernel

theorem test_slotLeaf : see (fun t => (t.stack.psn, t.dec.slot, t.stack.ps[1]?)) (exec (.slotLeaf 65) (slots [none] 1)) =
    some (2, 2, some { weight := 1, sym := some 65 }) := by decide +kernel

/-- V47-1: code `0` is 65. -/
theorem test_code : see (fun t => (t.out.seq, t.dec.cur, t.phase)) (exec (.code [false]) paying) =
    some ([65], 0, .decPayload) := by decide +kernel

/-- V47-1, last row: the sentinel's code `11`. -/
theorem test_code_sentinel : see (fun t => (t.out.seq, t.statusWord, t.pct)) (exec (.code [true, true]) paying) =
    some ([], 0x10A8, 100) := by decide +kernel

/-- V47-5: pad bits that are not zero. -/
theorem test_pad : see (fun t => (t.phase, t.out.seq)) (exec (.pad [true, true, true]) { paying with phase := .done }) =
    some (.done, []) := by decide +kernel

/-! ### Other host events -/

/-- V46-1, second row: the first byte of pass 1. -/
theorem test_first_byte : see (fun t => (t.freq[65]?, t.inCnt, t.pct, t.irqPend))
    (on { blank with phase := .encCount, op := .compress, totalLen := 4 } (.inByte 65)) = some (some 1, 1, 12, 0x08) := by
  decide +kernel

/-- V46-7: a byte that pass 1 has not seen. -/
theorem test_mismatch : see (fun t => (t.errWord, t.err.info, t.inCnt, t.statusWord))
    (on { paying with phase := .encCode, op := .compress, totalLen := 2, inCnt := 0, freqValid := true } (.inByte 67)) =
    some (0x212, 1, 1, 0x1D19) := by decide +kernel

/-- V47-1, last row but for one bit: 0x60 = `01100000` from CUR = 2 after `0 0 0 1`. -/
theorem test_last_byte : see (fun t => (t.out.seq, t.statusWord, t.inCnt, t.pct))
    (on { paying with dec := { paying.dec with cur := 2 } } (.inByte 0x60)) = some ([66], 0x10A8, 76, 100) := by decide +kernel

/-- V48-3: a byte offered in ERROR is held. -/
theorem test_held_byte : see (fun t => (t.events, t.inCnt)) (on { blank with phase := .error, op := .compress } (.inByte 1)) =
    some ([.inByte 1], 0) := by decide +kernel

/-- V20-1: refused accesses in ENC_COUNT, and one that succeeds in every phase. -/
theorem test_bus : see State.reply (on { blank with phase := .encCount } (.write 0x014 1)) = some .busError ∧
    see State.reply (on blank (.read 0xC04)) = some .busError ∧ see State.reply (on blank (.read 0x002)) = some .busError ∧
    see (fun t => (t.reply, t.irqEn)) (on { blank with phase := .encCount } (.write 0x018 0x1F)) = some (.ack, 0x1F) := by
  decide +kernel

/-- V44-1: addresses of the windows. -/
theorem test_windows : see State.reply (on paying (.read 0x1108)) = some (.data 2) ∧
    see State.reply (on paying (.read 0x2840)) = some (.data 0x80000000) ∧
    see State.reply (on paying (.read 0x4000)) = some (.data 0xC0000000) := by decide +kernel

/-- V60-1. -/
theorem test_irq : ({ blank with irqPend := 0x09, irqEn := 0x01 } : State).irq = true ∧
    see State.irq (on { blank with irqPend := 0x09, irqEn := 0x01 } (.write 0x01C 0x01)) = some false := by decide +kernel

/-! ### Units -/

/-- V40-3. -/
theorem test_packer : (bpFlush (putBits (256 : Sym) (putBit true blank.out))).seq = [0xC0, 0x00] := by decide +kernel

/-- V40-4. -/
theorem test_flush : (bpFlush { blank.out with acc := 3, nb := 3 }).seq = [0x60] := by decide +kernel

/-- V42-4: the right child only if strictly lighter. -/
theorem test_removeMin : (removeMin
    { heap := (((blank.queue.heap.setIfInBounds 0 { weight := 1, sym := some 10 }).setIfInBounds 1
        { weight := 3, sym := some 11 }).setIfInBounds 2 { weight := 2, sym := some 12 }).setIfInBounds 3
        { weight := 4, sym := some 13 }
      hn := 4 }).map (fun p => (p.1, p.2.heap.toList.take 3)) =
    some ({ weight := 1, sym := some 10 },
      [{ weight := 2, sym := some 12 }, { weight := 3, sym := some 11 }, { weight := 4, sym := some 13 }]) := by decide +kernel

/-- V43-1: the tree of the construction sequence. -/
theorem test_assemble : (assemble orderV431 blank.tree).1 = true ∧
    (assemble orderV431 blank.tree).2.node.toList.take 5 = [.pair 1 2, .leaf 65, .pair 3 4, .leaf 66, .leaf 256] := by
  decide +kernel

/-- V43-5: sequences that are no trees. -/
theorem test_malformed : (assemble [none, some 65, some 66, some 67, some 256] blank.tree).1 = false ∧
    (assemble [none, none, some 256] blank.tree).1 = false ∧ (assemble [some 256] blank.tree).1 = false ∧
    (assemble [none, some 65, some 66, some 256] blank.tree).1 = false ∧ (assemble [] blank.tree).1 = false := by decide +kernel

/-- R43: a pushed entry is popped first, and an empty stack has none. -/
theorem test_pop : ((push { weight := 3, sym := some 65 } blank.stack).bind pop).map (fun p => (p.1, p.2.psn)) =
    some ({ weight := 3, sym := some 65 }, 0) ∧ pop blank.stack = none := by decide +kernel

/-- V43-1: the stack of the scenario's counts, popped, is the construction sequence, and is exhausted. -/
theorem test_build_pops_the_stack :
    (match buildStack (((blank.freq.setIfInBounds 65 3).setIfInBounds 66 1).setIfInBounds 256 1) blank.queue blank.stack with
      | .ok q k => some (q.hn, k.psn, constructionOrder k, (consumed k).psn)
      | _ => none) = some (0, 5, orderV431, 0) := by decide +kernel

/-- V44-4: of two leaves with one symbol the later visited, here the one with the higher number, gives the code. -/
theorem test_duplicate_symbols : ∀ b, (deriveCodesBy b { treeV431 with node := treeV431.node.setIfInBounds 3 (.leaf 65) }
    blank.codes).map (fun c => codeOf c 65) = some (some [true, false]) := by decide +kernel

/-- R187 and D29 where they differ: the tree of none, none, 65, 65, 256. -/
theorem test_duplicate_readings : [true, false].map (fun b =>
    (deriveCodesBy b (assemble [none, none, some 65, some 65, some 256] blank.tree).2 blank.codes).map
      fun c => codeOf c 65) = [some (some [false, false]), some (some [true])] := by decide +kernel

/-- V44-1. -/
theorem test_codes : (deriveCodes treeV431 blank.codes).map (fun c => (codeOf c 65, codeOf c 66, codeOf c 256, codeOf c 67)) =
    some (some [false], some [true, false], some [true, true], none) := by decide +kernel


/-! ### Witnesses: each statement's hypotheses are met, every clause at a boundary -/

theorem witness_DecodingAnEncodingGivesItBack :
    ((Instr.stop 2).wellFormed 0 = true ∧ fits 0 .slot (.stop 2)) ∧
    ((Instr.extByte 0xFF).wellFormed 0 = true ∧ fits 0 (.ext 0) (.extByte 0xFF) ∧
      encode 0 (.extByte 0xFF) = .bits (bitsOf 0xFF)) ∧
    ((Instr.slotLeaf 511).wellFormed 0 = true ∧ fits 0 .slot (.slotLeaf 511)) ∧
    ((Instr.code [true, true]).wellFormed 0 = true ∧ fits 0 (.code treeV431.node) (.code [true, true])) ∧
    (Instr.pad (List.replicate 7 true)).wellFormed 0 = true ∧ fits 0 .pad (.pad (List.replicate 7 true)) :=
  ⟨⟨by decide +kernel, trivial⟩, ⟨by decide +kernel, rfl, rfl⟩, ⟨by decide +kernel, trivial⟩,
    ⟨by decide +kernel, (by decide +kernel : codeWidth treeV431.node 0 [true, true] = .ok 2)⟩, by decide +kernel, trivial⟩

theorem witness_WhatDecodesIsItsEncoding :
    decodeCommand 0x00000204 = .ok (.stop 2) ∧ decodeToken (.code treeV431.node) [true, true, false] =
      .ok (.code [true, true], [false]) ∧ decodeToken (.ext 7) [false, false, false, false, false, true, true, true] =
      .ok (.extTerm, []) ∧ decodeToken .pad (List.replicate 7 false) = .ok (.pad (List.replicate 7 false), []) := by
  decide +kernel

theorem witness_IllegalWordsAreRejected :
    illegalWord 0x00000001 .done = true ∧ encode 0 .encStart = .word 0x00000001 ∧ illegalWord 0x00000104 .decExt = true ∧
    encode 0 (.stop 1) = .word 0x00000104 ∧ illegalWord 0x00010000 .idle = true ∧ illegalWord 0x00000006 .idle = true ∧
    illegalWord 0x00000304 .decWait = true ∧ illegalWord 0x00000100 .idle = true := by decide +kernel

theorem witness_LegalWordsAreExecuted : illegalWord 0x00000104 .decWait = false ∧ illegalWord 0x00000005 .error = false ∧
    illegalWord 0x00000204 .encCount = false ∧ illegalWord 0 .decPayload = false := by decide +kernel

/-- A full extension field without a terminator, at the greatest length. -/
def ready : State := { blank with totalLen := 0xFFFFFFFE, extLen := 255, ext := Vector.replicate 255 1 }

theorem witness_EncStartBeginsPassOne : ready.phase = .idle ∧ ready.totalLen ≠ 0 ∧ ready.totalLen ≠ 0xFFFFFFFF#32 ∧
    ∀ i (h : i < 255), i < ready.extLen.toNat → ready.ext[i] ≠ ready.termReg := by
  refine ⟨rfl, by decide, by decide, fun i h _ => ?_⟩
  have e : ready.ext[i] = 1 := Vector.getElem_replicate h
  exact fun he => absurd (e.symm.trans he) (by decide)

theorem witness_EncStartChecksInOrder :
    blank.phase = .idle ∧ blank.totalLen = 0 ∧ ({ blank with totalLen := 0xFFFFFFFF } : State).totalLen = 0xFFFFFFFF#32 ∧
    (State.totalLen { blank with totalLen := 5, extLen := 1 } ≠ 0 ∧
      State.totalLen { blank with totalLen := 5, extLen := 1 } ≠ 0xFFFFFFFF#32 ∧
      ∃ i, ∃ h : i < 255, i < (State.extLen { blank with totalLen := 5, extLen := 1 }).toNat ∧
        (State.ext { blank with totalLen := 5, extLen := 1 })[i] = blank.termReg) :=
  ⟨rfl, rfl, rfl, by decide +kernel, by decide +kernel, 0, by decide, by decide +kernel, by decide +kernel⟩

theorem witness_DecStartBeginsTheMagic :
    ready.phase = .idle ∧ ready.totalLen ≠ 0 ∧ blank.phase = .idle ∧ blank.totalLen = 0 := by decide +kernel

theorem witness_SinkOkGoesOnToTheSkeleton : waiting.phase = .decWait ∧ waiting.inCnt ≠ waiting.totalLen ∧
    (State.phase { waiting with totalLen := 7 }) = .decWait ∧
    State.inCnt { waiting with totalLen := 7 } = State.totalLen { waiting with totalLen := 7 } ∧
    blank.phase ≠ .decWait := by decide +kernel

theorem witness_StopEntersTheError : phaseRunning .encCount = true ∧ phaseRunning .decPayload = true ∧
    phaseRunning waiting.phase = true ∧ waiting.phase = .decWait ∧ (2 : Byte).toNat ≤ 2 ∧ blank.phase = .idle ∧
    State.phase { blank with phase := .done } = .done ∧ State.phase { blank with phase := .error } = .error ∧
    State.phase { blank with phase := .encCount } ≠ .decWait := by decide +kernel

theorem witness_ClearReturnsToIdle : blank.phase = .idle ∧ State.phase { blank with phase := .done } = .done ∧
    State.phase { blank with phase := .error } = .error := by decide +kernel

/-- A decoder at the start of the stream. -/
def starting : State := { blank with phase := .decMagic, op := .decompress, totalLen := 76 }

theorem witness_MagicIsCompared : starting.phase = .decMagic ∧ starting.dec.magN = 0 ∧ starting.magicReg = 0x4846 ∧
    (0x4847 : BitVec 16) ≠ starting.magicReg := by decide +kernel

/-- A decoder in the extension, with `n` bytes of it in. -/
def extending (n : Byte) : State :=
  { blank with phase := .decExt, op := .decompress, totalLen := 400, inCnt := 257, pct := 64, extLen := n }

theorem witness_ExtensionTokensAreCollected : (extending 254).phase = .decExt ∧ (0x61 : Byte) ≠ (extending 254).termReg ∧
    (extending 254).extLen ≠ 255#8 ∧ (extending 255).extLen = 255#8 := by decide +kernel

theorem witness_SlotsPushTheirEntries : (slots [] 511).phase = .decDict ∧ (slots [] 511).dec.dstate = .mark ∧
    (slots [] 511).dec.slot.toNat < 512 ∧ (slots [] 511).stack.psn.toNat < 513 := by decide +kernel

/-- The 513 slots of `slots l 512` and one slot without a symbol. -/
def allSlots (l : List (Option Sym)) : List (Option Sym) :=
  (((slots l 512).stack.ps.toList.take 512).map Entry.sym) ++ [none]

theorem witness_last_slot (l : List (Option Sym)) : (slots l 512).phase = .decDict ∧ (slots l 512).dec.dstate = .mark ∧
    (slots l 512).dec.slot = 512 ∧ (slots l 512).stack.psn = 512 := ⟨rfl, rfl, rfl, rfl⟩

theorem padded (l : List (Option Sym)) (n : Nat) (h : l.length ≤ n) :
    ((List.range n).map fun i => l[i]?.join) = l ++ List.replicate (n - l.length) none := by
  apply List.ext_getElem
  · simp
    omega
  · intro i h1 h2
    have hi : i < n := by simpa using h1
    by_cases hl : i < l.length
    · rw [List.getElem_append_left hl]
      simp [hl]
    · rw [List.getElem_append_right (by omega)]
      simp [hl]

theorem allSlots_eq (l : List (Option Sym)) (h : l.length ≤ 512) :
    allSlots l = l ++ List.replicate (513 - l.length) none := by
  have e : ((slots l 512).stack.ps.toList.take 512).map Entry.sym = (List.range 512).map fun i => l[i]?.join := by
    unfold slots tabulate
    rw [Vector.toList_mk, List.toList_toArray, ← List.map_take, List.take_range, List.map_map]
    rfl
  obtain ⟨m, hm⟩ : ∃ m, m = 512 - l.length := ⟨_, rfl⟩
  have hm1 : 513 - l.length = m + 1 := by omega
  unfold allSlots
  rw [e, padded l 512 h, ← hm, hm1, List.replicate_succ', List.append_assoc]

/-- After the slots of `l` only slots without a symbol follow. -/
theorem allSlots_rest (l : List (Option Sym)) (h : l.length ≤ 512) : ∀ e ∈ (allSlots l).drop l.length, e = none := by
  rw [allSlots_eq l h]
  intro e he
  simp at he
  exact he.2

theorem allSlots_get (l : List (Option Sym)) (h : l.length ≤ 512) (i : Nat) (hi : i < l.length) :
    (allSlots l)[i]? = l[i]? := by
  rw [allSlots_eq l h, List.getElem?_append_left hi]

theorem allSlots_take (l : List (Option Sym)) (h : l.length ≤ 512) {n : Nat} (hn : n ≤ l.length) :
    (allSlots l).take n = l.take n := by
  rw [allSlots_eq l h, List.take_append_of_le_length hn]

/-- What `AMalformedSkeletonIsRefused` asks of the slots of `l`, all of them real, in its second case. -/
def wellEnded (l : List (Option Sym)) : Prop :=
  l.length ≤ 513 ∧ (allSlots l)[l.length - 1]? = some (some 256) ∧ (∀ e ∈ (allSlots l).drop l.length, e = none) ∧
    l.length % 2 = 1 ∧ (allSlots l)[0]? = some none ∧
    ∀ j (k : Sym), j < l.length - 1 → (allSlots l)[j]? = some (some k) → k.toNat < 256

theorem wellEnded_of {l : List (Option Sym)} (h : l.length ≤ 512) (h1 : l.length % 2 = 1) (h2 : l[0]? = some none)
    (h3 : l[l.length - 1]? = some (some 256)) (h4 : ∀ e ∈ l.dropLast, ∀ k : Sym, e = some k → k.toNat < 256) :
    wellEnded l := by
  refine ⟨by omega, ?_, allSlots_rest l h, h1, ?_, fun j k hj hk => ?_⟩
  · rw [allSlots_get l h _ (by omega), h3]
  · rw [allSlots_get l h _ (by omega), h2]
  · rw [allSlots_get l h _ (by omega)] at hk
    refine h4 (some k) ?_ k rfl
    rw [List.mem_iff_getElem?]
    exact ⟨j, by rw [List.getElem?_dropLast, if_pos hj, hk]⟩

/-- The skeletons of V45-4: conditions 1 to 5 of R203 (a, b, c, d, e and f), and condition 6 both ways (g: the pair of
nodes 3 and 4 finds no placeholder; h: one is left over). -/
theorem witness_AMalformedSkeletonIsRefused :
    (∀ e ∈ allSlots [], e = none) ∧
    ((∀ e ∈ (allSlots [none, some 65, some 66, some 256]).drop 4, e = none) ∧
      (allSlots [none, some 65, some 66, some 256])[3]? = some (some 256) ∧ 4 % 2 = 0) ∧
    ((∀ e ∈ (allSlots [some 256]).drop 1, e = none) ∧ (allSlots [some 256])[0]? = some (some 256)) ∧
    ((∀ e ∈ (allSlots [none, some 65, some 66]).drop 3, e = none) ∧
      (allSlots [none, some 65, some 66])[2]? = some (some 66)) ∧
    ((∀ e ∈ (allSlots [none, some 256, none, some 65, some 256]).drop 5, e = none) ∧
      (allSlots [none, some 256, none, some 65, some 256])[4]? = some (some 256) ∧
      (allSlots [none, some 256, none, some 65, some 256])[1]? = some (some 256) ∧ 256 ≤ (256 : Sym).toNat) ∧
    ((∀ e ∈ (allSlots [none, some 300, some 256]).drop 3, e = none) ∧
      (allSlots [none, some 300, some 256])[2]? = some (some 256) ∧
      (allSlots [none, some 300, some 256])[1]? = some (some 300) ∧ 256 ≤ (300 : Sym).toNat) ∧
    (wellEnded [none, some 65, some 66, some 67, some 256] ∧
      ((allSlots [none, some 65, some 66, some 67, some 256]).take (2 * 1 + 1)).countP Option.isNone ≤ 1) ∧
    (wellEnded [none, none, some 256] ∧ 3 < 2 * ((allSlots [none, none, some 256]).take 3).countP Option.isNone + 1) :=
  ⟨allSlots_rest [] (by decide),
    ⟨allSlots_rest [none, some 65, some 66, some 256] (by decide), allSlots_get _ (by decide) 3 (by decide), rfl⟩,
    ⟨allSlots_rest [some 256] (by decide), allSlots_get _ (by decide) 0 (by decide)⟩,
    ⟨allSlots_rest [none, some 65, some 66] (by decide), allSlots_get _ (by decide) 2 (by decide)⟩,
    ⟨allSlots_rest [none, some 256, none, some 65, some 256] (by decide), allSlots_get _ (by decide) 4 (by decide),
      allSlots_get _ (by decide) 1 (by decide), by decide⟩,
    ⟨allSlots_rest [none, some 300, some 256] (by decide), allSlots_get _ (by decide) 2 (by decide),
      allSlots_get _ (by decide) 1 (by decide), by decide⟩,
    ⟨wellEnded_of (by decide) rfl rfl rfl (by decide +kernel),
      by rw [allSlots_take [none, some 65, some 66, some 67, some 256] (by decide) (n := 2 * 1 + 1) (by decide)]; decide⟩,
    wellEnded_of (by decide) rfl rfl rfl (by decide +kernel),
    by rw [allSlots_take [none, none, some 256] (by decide) (n := 3) (by decide)]; decide⟩

theorem witness_AGoodSkeletonStartsThePayload :
    (allSlots orderV431)[4]? = some (some 256) ∧ (∀ e ∈ (allSlots orderV431).drop 5, e = none) ∧
    (allSlots orderV431)[0]? = some none ∧ (allSlots orderV431).take 5 = orderV431 ∧
    (∀ j, j < 4 → ∀ k : Sym, orderV431[j]? = some (some k) → k.toNat < 256) ∧
    (assemble orderV431 blank.tree).1 = true ∧
    (deriveCodes { (assemble orderV431 blank.tree).2 with sentNode := 4 } blank.codes).isSome = true ∧
    (slots orderV431 512).tree = blank.tree ∧ (slots orderV431 512).codes = blank.codes :=
  ⟨allSlots_get _ (by decide) 4 (by decide), allSlots_rest orderV431 (by decide), allSlots_get _ (by decide) 0 (by decide),
    by rw [allSlots_eq _ (by decide)]; rfl,
    fun j hj k hk => by
      match j, hj with
      | 0, _ => cases hk
      | 1, _ => cases hk; decide
      | 2, _ => cases hk
      | 3, _ => cases hk; decide,
    by decide +kernel, by decide +kernel, rfl, rfl⟩

theorem witness_CodeWordsAreDecoded : paying.phase = .decPayload ∧ paying.dec.cur = 0 ∧
    (walkTo paying.tree.node 0 [false] = some 1 ∧ paying.tree.node[1]? = some (.leaf 65) ∧ 1 ≠ paying.tree.sentNode) ∧
    (walkTo paying.tree.node 0 [true, true] = some 4 ∧ paying.tree.node[4]? = some (.leaf 256) ∧
      4 = paying.tree.sentNode) := by decide +kernel

theorem witness_PadBitsAreDropped : State.phase { paying with phase := .done } = .done := by decide +kernel

theorem witness_TokensWaitWhileInputIsClosed : blank.phase = .idle ∧ waiting.phase = .decWait ∧
    State.phase { blank with phase := .done } = .done ∧ State.phase { blank with phase := .error } = .error ∧
    Instr.pad [] ∈ [.magic 0, .extByte 0, .extTerm, .slotInternal, .slotLeaf 0, .code [], .pad []] := by decide +kernel

theorem witness_TokensHaveMeaningAtTheirPlaceOnly :
    (phaseAccepts (slots [] 0).phase = true ∧ (Instr.slotLeaf 5).wellFormed 0 = true ∧ placeOf (slots [] 0) = some .slot) ∧
    (phaseAccepts paying.phase = true ∧ (Instr.pad []).wellFormed 0 = true ∧
      placeOf paying = some (.code paying.tree.node)) ∧
    ∀ w, encode 0 (.slotLeaf 5) ≠ .word w ∧ encode 0 (.pad []) ≠ .word w :=
  ⟨⟨rfl, rfl, rfl⟩, ⟨rfl, rfl, rfl⟩, fun _ => ⟨nofun, nofun⟩⟩

theorem witness_PutBitPacksMsbFirst : packerOk { blank.out with acc := 63, nb := 6 } ∧
    packerOk { blank.out with acc := 127, nb := 7 } := by unfold packerOk; decide +kernel

theorem witness_TheBitCountLaw : blank.out.acc = 0 ∧ blank.out.nb = 0 ∧ blank.out.seq = [] := by decide +kernel

theorem witness_FlushPadsWithZeros : packerOk blank.out ∧ blank.out.nb = 0 ∧ packerOk { blank.out with acc := 1, nb := 1 } ∧
    Output.nb { blank.out with acc := 1, nb := 1 } ≠ 0 := by unfold packerOk; decide +kernel

theorem witness_TiesAreNeverLess : Entry.weight { weight := 1, sym := some 256 } = Entry.weight { weight := 1, sym := some 66 } :=
  rfl

/-- A heap of equal weights, `n` entries. -/
def level (n : BitVec 9) : Queue := { heap := Vector.replicate 257 { weight := 1, sym := none }, hn := n }

theorem level_ordered (n : BitVec 9) (h : n.toNat ≤ 257) : heapOrdered (level n) := by
  intro i _ hi
  have h1 : i / 2 - 1 < 257 := by have : i ≤ n.toNat := hi; omega
  have h2 : i - 1 < 257 := by have : i ≤ n.toNat := hi; omega
  simp [heapAt, level, h1, h2]

/-- An entry that stays on a full heap's last place, one that rises, and the first of all. -/
theorem witness_InsertKeepsTheHeapOrder : heapOrdered (level 256) ∧ (level 256).hn.toNat < 257 ∧
    ¬ 1#32 < (heapAt (level 256).heap (257 / 2)).weight ∧ 0#32 < (heapAt (level 256).heap (257 / 2)).weight ∧
    heapOrdered (level 0) ∧ (level 0).hn = 0 :=
  ⟨level_ordered _ (by decide), by decide +kernel, by decide +kernel, by decide +kernel, level_ordered _ (by decide), rfl⟩

/-- A full heap whose last entry stays at the root, one of a single entry; of two children the left one on a tie or
alone, the right one where strictly lighter (V42-3, V42-4). -/
theorem witness_RemoveMinReturnsTheLeast : heapOrdered (level 257) ∧ 1 ≤ (level 257).hn.toNat ∧ (level 257).hn.toNat ≤ 257 ∧
    (¬ (heapAt (level 257).heap (siftChild (level 257).heap 256 1)).weight < (heapAt (level 257).heap 257).weight) ∧
    heapOrdered (level 1) ∧ 1 ≤ (level 1).hn.toNat ∧ (level 1).hn.toNat - 1 < 2 ∧
    (heapAt (level 257).heap (2 * 128)).weight ≤ (heapAt (level 257).heap (2 * 128 + 1)).weight ∧
    (heapAt ((level 257).heap.setIfInBounds 256 { weight := 0, sym := none }) (2 * 128 + 1)).weight <
      (heapAt ((level 257).heap.setIfInBounds 256 { weight := 0, sym := none }) (2 * 128)).weight :=
  ⟨level_ordered _ (by decide), by decide +kernel, by decide +kernel, by decide +kernel, level_ordered _ (by decide),
    by decide +kernel, by decide +kernel, by decide +kernel, by decide +kernel⟩

/-- The last byte value counted, once and as often as may be. -/
theorem witness_TheBuildAlwaysSucceeds : (blank.freq.setIfInBounds 255 1)[255]? = some 1 ∧
    (blank.freq.setIfInBounds 255 0xFFFFFFFE)[255]? = some 0xFFFFFFFE ∧
    byteCount (blank.freq.setIfInBounds 255 0xFFFFFFFE) = 2 ^ 32 - 2 := by decide +kernel

theorem witness_AssemblyMakesAFinishedTree : orderV431.length ≤ 513 ∧ (assemble orderV431 blank.tree).1 = true := by
  decide +kernel

theorem treeV431_nodes : treeV431.node[0]? = some (.pair 1 2) ∧ treeV431.node[1]? = some (.leaf 65) ∧
    treeV431.node[2]? = some (.pair 3 4) ∧ treeV431.node[3]? = some (.leaf 66) ∧ treeV431.node[4]? = some (.leaf 256) := by
  decide +kernel

theorem treeV431_finished : treeFinished treeV431 := by
  obtain ⟨h0, h1, h2, h3, h4⟩ := treeV431_nodes
  refine ⟨by decide, ⟨by decide, 1, 2, h0⟩, fun k hk => ?_⟩
  have hk : k < 5 := hk
  match k, hk with
  | 0, _ => rw [h0]; decide
  | 1, _ => rw [h1]; trivial
  | 2, _ => rw [h2]; decide
  | 3, _ => rw [h3]; trivial
  | 4, _ => rw [h4]; trivial

theorem witness_DerivationEndsOnAFinishedTree : treeFinished treeV431 ∧
    (∀ k : Nat, k < treeV431.nn.toNat → ∀ sym, treeV431.node[k]? = some (.leaf sym) → sym.toNat < 257) ∧
    2 * leafCount treeV431.node treeV431.nn.toNat = treeV431.nn.toNat + 1 := by
  refine ⟨treeV431_finished, ?_, by decide +kernel⟩
  have h : ∀ k, k < treeV431.nn.toNat →
      (match treeV431.node[k]? with | some (.leaf sym) => decide (sym.toNat < 257) | _ => true) = true := by decide +kernel
  intro k hk sym hs
  have := h k hk
  rw [hs] at this
  simpa using this

theorem witness_codes_by : ∀ b, (deriveCodesBy b treeV431 blank.codes).map (fun c => (c.len[66]?, c.len[256]?)) =
    some (some 2, some 2) := by decide +kernel

theorem witness_codes : (deriveCodes treeV431 blank.codes).map (fun c => (c.len[66]?, c.len[256]?)) = some (some 2, some 2) :=
  witness_codes_by _

/-- V44-1 meets the hypotheses: symbols with codes in a derived table, a walk to a leaf, an assembled tree, no symbol
repeated. -/
theorem witness_CodesArePathsToTheirLeaves :
    (∀ b, ∃ d, deriveCodesBy b treeV431 blank.codes = some d ∧ d.len[256] ≠ 0) ∧
    (∀ i, i < treeV431.nn.toNat → ∀ j, j < treeV431.nn.toNat → treeV431.node[i]? = treeV431.node[j]? → i = j) ∧
    walkTo treeV431.node 0 [true, true] = some 4 ∧ treeV431.node[4]? = some (.leaf 256) ∧
    (orderV431.length ≤ 513 ∧ (assemble orderV431 blank.tree).1 = true ∧
      (∀ x : Sym, some x ∈ orderV431 → x.toNat < 257) ∧ some 256 ∈ orderV431 ∧ some 0 ∉ orderV431) := by
  refine ⟨?_, by decide +kernel, by decide +kernel, by decide +kernel, by decide +kernel, by decide +kernel, ?_,
    by decide, by decide⟩
  swap
  · intro x hx
    simp only [orderV431, List.mem_cons, Option.some.injEq, reduceCtorEq, List.not_mem_nil, false_or, or_false] at hx
    rcases hx with rfl | rfl | rfl <;> decide
  intro b
  have h := witness_codes_by b
  cases hd : deriveCodesBy b treeV431 blank.codes with
  | none => rw [hd] at h; cases h
  | some d =>
    refine ⟨d, rfl, fun e => ?_⟩
    rw [hd] at h
    simp [e] at h

theorem witness_TheCodeTableIsPrefixFree : ∃ d, deriveCodes treeV431 blank.codes = some d ∧ d.len[66] ≠ 0 ∧ d.len[256] ≠ 0 := by
  have h := witness_codes
  cases hd : deriveCodes treeV431 blank.codes with
  | none => rw [hd] at h; cases h
  | some d =>
    refine ⟨d, rfl, fun e => ?_, fun e => ?_⟩
    · rw [hd] at h
      simp [e] at h
    · rw [hd] at h
      simp [e] at h

theorem witness_TheSkeletonSizeLaw : Tree.nn { blank.tree with nn := 513 } ≤ 513 := by decide +kernel

theorem witness_TheSkeletonRoundTrip : orderV431.length ≤ 513 ∧ (assemble orderV431 blank.tree).1 = true ∧
    orderV431.getLast? = some (some 256) ∧ (∀ e ∈ orderV431.dropLast, ∀ k : Sym, e = some k → k.toNat < 256) ∧
    (slots [] 0).phase = .decDict ∧ (slots [] 0).dec.dstate = .mark ∧ (slots [] 0).dec.slot = 0 ∧
    (slots [] 0).stack.psn = 0 := by decide +kernel

/-! ### Witnesses of the statements about steps -/

theorem witness_AStepRunsTheCommandWritten :
    takeEvent { blank with events := [.inByte 3, .write 0x004 0x204, .outByte] } [.inByte 3, .write 0x004 0x204, .outByte] =
      some (.write 0x004 0x204, [.inByte 3, .outByte]) ∧ decodeCommand 0x204 = .ok (.stop 2) ∧
    takeEvent { blank with events := [.write 0x7FFF 6] } [.write 0x7FFF 6] = some (.write 0x7FFF 6, []) ∧
    takeEvent { blank with events := [.write 0x004 0x10000] } [.write 0x004 0x10000] = some (.write 0x004 0x10000, []) ∧
    illegalWord 0x10000 blank.phase = true := by decide +kernel

/-- The decoder with one byte offered. -/
def offered (s : State) (b : Byte) : State := { s with events := [.inByte b] }

theorem witness_AStepRunsTheExtensionToken :
    (offered (extending 254) 0x61).phase = .decExt ∧
    takeEvent (offered (extending 254) 0x61) (offered (extending 254) 0x61).events = some (.inByte 0x61, []) ∧
    decodeToken (.ext 0) (bitsOf 0x61) = .ok (.extByte 0x61, []) ∧
    (see State.extLen (exec (.extByte 0x61)
      (State.updatePct { offered (extending 254) 0x61 with events := [], inCnt := 258 }))) = some 255 ∧
    decodeToken (.ext 0) (bitsOf 0) = .ok (.extTerm, []) ∧
    (see State.phase (exec .extTerm
      (State.updatePct { offered (extending 255) 0 with events := [], inCnt := 258 }))) = some .decWait := by decide +kernel

/-- A slot token, a code token, and a slot where the pair stack is full: each clause. -/
theorem witness_TheBitsOfATokenRunIt :
    ((slots [] 511).phase = .decDict ∧ (slots [] 511).dec.slot.toNat < 513 ∧ placeOf (slots [] 511) = some .slot ∧
      decodeToken .slot [false, true] = .ok (.slotInternal, [true]) ∧
      see State.phase (exec .slotInternal (slots [] 511)) = some .decDict) ∧
    (paying.phase = .decPayload ∧ decodeToken (.code paying.tree.node) [true, true] = .ok (.code [true, true], []) ∧
      see State.phase (exec (.code [true, true]) paying) = some .done) ∧
    (exec .slotInternal { slots [] 0 with stack := { (slots [] 0).stack with psn := 513 } } matches .fault .arrayBound) = true ∧
    placeOf { slots [] 0 with stack := { (slots [] 0).stack with psn := 513 } } = some .slot := by
  refine ⟨⟨rfl, by decide +kernel, rfl, by decide +kernel, by decide +kernel⟩, ⟨rfl, by decide +kernel, by decide +kernel⟩,
    by decide +kernel, rfl⟩

theorem witness_AStepFeedsTheBitsOfAByte :
    (offered (slots [] 0) 0x48).phase = .decDict ∧ (offered paying 0x60).phase = .decPayload ∧
    takeEvent (offered (slots [] 0) 0x48) [.inByte 0x48] = some (.inByte 0x48, []) ∧
    takeEvent (offered paying 0x60) [.inByte 0x60] = some (.inByte 0x60, []) := by decide +kernel

/-- A decoder at the start of a stream of `n` bytes, the first byte of the magic in or not, `b` offered. -/
def magicAt (n : Word) (first : Bool) (b : Byte) : State :=
  { starting with
    totalLen := n, inCnt := if first then 1 else 0, events := [.inByte b]
    dec := if first then { starting.dec with magAcc := 0x48, magN := 1 } else starting.dec }

/-- The first byte; the second, right and wrong; and each where it is the stream's last (V47-3, V47-4). -/
theorem witness_TwoBytesAreTheMagic : (starting.phase = .decMagic ∧ starting.dec.magN = 0) ∧
    ((magicAt 76 false 0x48).phase = .decMagic ∧ (magicAt 76 false 0x48).dec.magN = 0 ∧
      takeEvent (magicAt 76 false 0x48) [.inByte 0x48] = some (.inByte 0x48, []) ∧
      see State.errWord (step (magicAt 1 false 0x48)) = some 0x310) ∧
    ((magicAt 76 true 0x46).dec.magN = 1 ∧ (magicAt 76 true 0x46).dec.magAcc.extractLsb' 0 8 ++ (0x46 : Byte) = (magicAt 76 true 0x46).magicReg ∧
      see State.errWord (step (magicAt 2 true 0x46)) = some 0x410) ∧
    (magicAt 76 true 0x47).dec.magAcc.extractLsb' 0 8 ++ (0x47 : Byte) ≠ (magicAt 76 true 0x47).magicReg ∧
      see State.errWord (step (magicAt 76 true 0x47)) = some 0x301 := by decide +kernel

/-- An encoder in pass 1 with `k` of `n` bytes in, all of them 65. -/
def counting (k n : Word) : State :=
  { blank with
    phase := .encCount, op := .compress, totalLen := n, inCnt := k, events := [.inByte 65]
    freq := (blank.freq.setIfInBounds 65 k).setIfInBounds 256 1 }

theorem witness_PassOneCountsEveryByte : (counting 2 4).phase = .encCount ∧ (counting 2 4).op = .compress ∧
    takeEvent (counting 2 4) (counting 2 4).events = some (.inByte 65, []) ∧
    (counting 2 4).inCnt.toNat + 1 < (counting 2 4).totalLen.toNat := by decide +kernel

theorem counting_ok (k n : Word) (h : k.toNat < n.toNat) (hn : n.toNat < 2 ^ 32 - 1)
    (hb : byteCount (counting k n).freq = k.toNat) (h1 : (counting k n).freq[256] = 1) :
    countersOk (counting k n) ∧ countsOk (counting k n) :=
  ⟨⟨fun _ => h, fun _ => Nat.le_of_lt h, nofun⟩, fun _ => h1, fun _ => ⟨hb, hn⟩, nofun⟩

/-- The last of `n` bytes 65, with an extension of four bytes. -/
def lastOf (n : Word) (force : Bool) : State :=
  { counting (n - 1) n with extLen := 4, ext := Vector.replicate 255 0x74, force := force }

/-- V46-5: of 85 bytes the estimate is 85, E_POLICY; of 86 it is 85 and passes; a single byte passes with FORCE. -/
theorem test_size_guard :
    see (fun t => (t.errWord, t.estBytes, t.stack.psn, t.tree.sentNode)) (step (lastOf 85 false)) = some (0x130, 85, 0, 2) ∧
    see (fun t => (t.phase, t.estBytes, t.out.cnt, t.out.nb)) (step (lastOf 86 false)) = some (.encCode, 85, 73, 3) ∧
    see State.phase (step (lastOf 1 true)) = some .encCode := by decide +kernel

theorem lastOf_meets (n : Word) (f : Bool) (h : (n - 1).toNat + 1 = n.toNat) (hn : n.toNat < 2 ^ 32 - 1)
    (hb : byteCount (counting (n - 1) n).freq = (n - 1).toNat) (h1 : (counting (n - 1) n).freq[256] = 1) :
    (lastOf n f).phase = .encCount ∧ countersOk (lastOf n f) ∧ countsOk (lastOf n f) ∧ (lastOf n f).out.acc = 0 ∧
      (lastOf n f).out.nb = 0 ∧ (lastOf n f).out.seq = [] ∧
      takeEvent (lastOf n f) (lastOf n f).events = some (.inByte 65, []) ∧
      (lastOf n f).inCnt.toNat + 1 = (lastOf n f).totalLen.toNat :=
  have ok := counting_ok (n - 1) n (by omega) hn hb h1
  ⟨rfl, ok.1, ok.2, rfl, rfl, rfl, rfl, h⟩

/-- The last of 85 and of 86 bytes, on both sides of the size guard, and of one byte with FORCE = 1 (`test_size_guard`
has the outcomes). -/
theorem witness_TheEndOfPassOne :
    ((lastOf 85 false).phase = .encCount ∧ countersOk (lastOf 85 false) ∧ countsOk (lastOf 85 false) ∧
      (lastOf 85 false).inCnt.toNat + 1 = (lastOf 85 false).totalLen.toNat ∧ (lastOf 85 false).force = false) ∧
    ((lastOf 86 false).phase = .encCount ∧ countersOk (lastOf 86 false) ∧ countsOk (lastOf 86 false) ∧
      (lastOf 86 false).inCnt.toNat + 1 = (lastOf 86 false).totalLen.toNat ∧ (lastOf 86 false).force = false) ∧
    ((lastOf 1 true).phase = .encCount ∧ countersOk (lastOf 1 true) ∧ countsOk (lastOf 1 true) ∧
      (lastOf 1 true).inCnt.toNat + 1 = (lastOf 1 true).totalLen.toNat ∧ (lastOf 1 true).force = true) ∧
    (lastOf 85 false).out.acc = 0 ∧ (lastOf 85 false).out.nb = 0 ∧ (lastOf 85 false).out.seq = [] ∧
    takeEvent (lastOf 85 false) (lastOf 85 false).events = some (.inByte 65, []) := by
  obtain ⟨a1, a2, a3, a4, a5, a6, a7, a8⟩ :=
    lastOf_meets 85 false (by decide) (by decide) (by decide +kernel) (by decide +kernel)
  obtain ⟨b1, b2, b3, _, _, _, _, b8⟩ :=
    lastOf_meets 86 false (by decide) (by decide) (by decide +kernel) (by decide +kernel)
  obtain ⟨c1, c2, c3, _, _, _, _, c8⟩ :=
    lastOf_meets 1 true (by decide) (by decide) (by decide +kernel) (by decide +kernel)
  exact ⟨⟨a1, a2, a3, a8, rfl⟩, ⟨b1, b2, b3, b8, rfl⟩, ⟨c1, c2, c3, c8, rfl⟩, a4, a5, a6, a7⟩

/-- An encoder in pass 2 with the code table of V44-1, `k` of 4 bytes in, the byte `b` offered. -/
def coding (k : Word) (b : Byte) : State :=
  { blank with
    phase := .encCode, op := .compress, totalLen := 4, inCnt := k, pct := 50, tree := treeV431, codes := codesV441
    events := [.inByte b] }

theorem witness_PassTwoWritesTheCodes :
    (coding 0 67).phase = .encCode ∧ (coding 0 67).op = .compress ∧
    takeEvent (coding 0 67) (coding 0 67).events = some (.inByte 67, []) ∧
    (coding 0 67).codes.len[(67 : Byte).toNat]? = some 0#9 ∧
    (takeEvent (coding 2 65) (coding 2 65).events = some (.inByte 65, []) ∧
      (coding 2 65).codes.len[(65 : Byte).toNat]? = some 1#9 ∧ (coding 2 65).codes.bits[(65 : Byte).toNat]? = some 0 ∧
      (coding 2 65).inCnt.toNat + 1 < (coding 2 65).totalLen.toNat) ∧
    (coding 3 65).inCnt.toNat + 1 = (coding 3 65).totalLen.toNat ∧ (coding 3 65).codes.len[256]? ≠ some 0#9 := by
  decide +kernel

/-- Addresses at the ends of the unmapped ranges, a misaligned one, and reads whose value is given. -/
theorem witness_ReadsHaveNoSideEffect :
    takeEvent { paying with events := [.read 0x904] } [.read 0x904] = some (.read 0x904, []) ∧
    (State.freqValid { paying with freqValid := true } = true ∧ paying.codeValid = true) ∧
    (0x403 : BitVec 15).toNat % 4 ≠ 0 ∧ (0x400 : BitVec 15).toNat = 0x400 + 4 * 0 ∧ 0 < waiting.extLen.toNat ∧
    (see State.reply (on paying (.read 0x050)) = some (.data 0) ∧ see State.reply (on paying (.read 0x054)) = some .busError ∧
      see State.reply (on paying (.read 0x3FC)) = some .busError ∧ see State.reply (on paying (.read 0x7FC)) = some .busError ∧
      see State.reply (on paying (.read 0xC04)) = some .busError ∧ see State.reply (on paying (.read 0xFFC)) = some .busError ∧
      see State.reply (on paying (.read 0x1404)) = some .busError ∧ see State.reply (on paying (.read 0x1FFC)) = some .busError ∧
      see State.reply (on paying (.read 0x401C)) = some (.data 0) ∧ see State.reply (on paying (.read 0x4020)) = some .busError) := by
  decide +kernel

/-- The ends of each window, with the flags that give them values (V44-1 and V46-5 for the values). -/
theorem witness_RegistersReadTheirFields :
    ((0 : Nat) < 255 ∧ 0 < waiting.extLen.toNat ∧ see State.reply (on waiting (.read 0x40C)) = some (.data 0)) ∧
    (State.freqValid { blank with freqValid := true } = true ∧
      see State.reply (on { counting 84 85 with freqValid := true, events := [] } (.read 0x904)) = some (.data 84) ∧
      see State.reply (on { counting 84 85 with freqValid := true, events := [] } (.read 0xC00)) = some (.data 1)) ∧
    (paying.codeValid = true ∧ see State.reply (on paying (.read 0x1400)) = some (.data 2) ∧
      see State.reply (on paying (.read 0x4000)) = some (.data 0xC0000000)) ∧
    (blank.err.code, (0x00 : Byte)) ∈ [(.none, 0x00), (.magic, 0x01)] ∧
    see State.reply (on blank (.read 0x04C)) = some (.data 0x2019FF00) ∧
    see State.reply (on { blank with estBytes := 0x500000007 } (.read 0x038)) = some (.data 5) := by decide +kernel

/-- Addresses at the ends of the ranges the statement names, and a phase other than IDLE. -/
theorem witness_RefusedWritesChangeNothing :
    takeEvent { paying with events := [.narrow 0x008] } [.narrow 0x008] = some (.narrow 0x008, []) ∧ (0x7FFF : BitVec 15).toNat % 4 ≠ 0 ∧
    (0x050 : BitVec 15).toNat ∈ [0x000, 0x008, 0x00C, 0x010, 0x028, 0x02C, 0x030, 0x034, 0x038, 0x03C, 0x040, 0x044, 0x048,
      0x04C, 0x050] ∧
    (0x054 ≤ (0x054 : BitVec 15).toNat ∧ (0x3FC : BitVec 15).toNat < 0x400) ∧ 0x7FC ≤ (0x7FC : BitVec 15).toNat ∧
    waiting.phase ≠ .idle ∧ (0x7F8 : BitVec 15).toNat < 0x7FC ∧ (0x024 : BitVec 15).toNat ∈ [0x014, 0x020, 0x024] := by
  decide +kernel

theorem witness_RegisterWritesStoreTheirBits : blank.phase = .idle ∧ (254 : Nat) < 255 ∧
    see State.reply (on blank (.write 0x7F8 1)) = some .ack := by decide +kernel

theorem witness_AHeldByteWaits : phaseAccepts (offered waiting 7).phase = false ∧
    (offered waiting 7).events = [7].map HostEvent.inByte := by decide +kernel

theorem witness_ResetValues : takeEvent { paying with events := [.outByte, .reset, .inByte 1] } [.outByte, .reset, .inByte 1] =
    some (.reset, [.outByte, .inByte 1]) := by decide +kernel

/-- One step of each kind of event. -/
theorem witness_PhaseChangesAsListed :
    (takeEvent (offered paying 0x60) [.inByte 0x60] = some (.inByte 0x60, []) ∧
      see State.phase (step (offered paying 0x60)) = some .done) ∧
    (takeEvent { waiting with events := [.write 0x004 3] } [.write 0x004 3] = some (.write 0x004 3, []) ∧
      see State.phase (step { waiting with events := [.write 0x004 3] }) = some .decDict) := by decide +kernel

/-- A byte of the payload, the last byte of pass 1 (a compress reads the extension), and one that DEC_EXT reads. -/
theorem witness_SettingsStayWhileRunning :
    ((offered paying 0x60).phase ≠ .idle ∧ HostEvent.inByte 0x60 ≠ .reset ∧ (∀ v, HostEvent.inByte 0x60 ≠ .write 0x018 v) ∧
      see State.totalLen (step (offered paying 0x60)) = some 76) ∧
    ((lastOf 85 false).phase ≠ .idle ∧ (lastOf 85 false).phase ≠ .decExt ∧
      takeEvent (lastOf 85 false) (lastOf 85 false).events = some (.inByte 65, [])) ∧
    (∀ b, HostEvent.write 0x018 3 = .inByte b → (extending 3).phase ≠ .decExt) ∧
    see State.extLen (step (offered (extending 3) 0x61)) = some 4 :=
  ⟨⟨by decide +kernel, nofun, fun _ => nofun, by decide +kernel⟩, ⟨nofun, nofun, rfl⟩, nofun, by decide +kernel⟩

/-- A rejected word, and CLEAR after it (V48-1). -/
theorem witness_OnlyRejectionWritesBadCmd :
    takeEvent { blank with events := [.write 0x004 6] } [.write 0x004 6] = some (.write 0x004 6, []) ∧
    see (fun t => (t.badCmd, t.cmderr)) (cmd blank 6) = some (6, true) ∧ blank.badCmd = 0 ∧ blank.cmderr = false ∧
    see State.cmderr (cmd { blank with cmderr := true } 5) = some false := by decide +kernel

theorem witness_OutputOnlyGrows :
    see (fun t => t.out.seq) (on { blank with totalLen := 4, out := { blank.out with seq := [1, 2] } } (.write 0x004 1)) =
      some [] ∧
    see (fun t => t.out.seq) (on { paying with dec := { paying.dec with cur := 2 } } (.inByte 0x60)) = some [66] ∧
    (takeEvent { blank with out := { blank.out with seq := [1, 2], taken := 1 }, events := [.outByte] } [.outByte] =
        some (.outByte, []) ∧
      State.outData { blank with out := { blank.out with seq := [1, 2], taken := 1 } } = some 2) ∧
    ([] : List Byte).length ≤ blank.out.taken ∧ State.events { blank with events := [.outByte] } = List.replicate 1 .outByte := by
  decide +kernel

/-- DEC_WAIT with the magic and the extension in (V47-1) meets the whole invariant. -/
def waitingOk : State :=
  { waiting with freq := blank.freq.setIfInBounds 256 1, events := [.write 0x004 3] }

theorem waitingOk_inv : waitingOk.inv := by
  refine ⟨⟨nofun, fun _ => by decide +kernel, nofun⟩, rfl, ⟨rfl, rfl⟩, ?_, ⟨fun _ => rfl, Nat.le_refl _⟩, fun _ => rfl,
    ⟨fun _ => by decide +kernel, nofun, nofun⟩, ⟨nofun, fun _ => ⟨rfl, rfl, rfl⟩, nofun⟩, nofun, nofun, rfl⟩
  unfold packerOk
  decide +kernel

theorem witness_StepsKeepTheInvariant : waitingOk.inv ∧ ∃ t, step waitingOk = .next t :=
  ⟨waitingOk_inv, _, rfl⟩

theorem witness_NoStepEverStops : waitingOk.inv := waitingOk_inv

theorem witness_StepsKeepTheOutputDiscipline : packerOk waitingOk.out ∧ outputOk waitingOk ∧ silenceOk waitingOk ∧
    ∃ t, step waitingOk = .next t := by
  obtain ⟨_, _, _, h1, h2, h3, _⟩ := waitingOk_inv
  exact ⟨h1, h2, h3, _, rfl⟩

theorem witness_ProgressNeverGoesBack : countersOk waitingOk ∧ opOk waitingOk ∧ progressOk waitingOk ∧
    ∃ t, step waitingOk = .next t := by
  obtain ⟨h1, h2, _⟩ := waitingOk_inv
  exact ⟨h1, h2, fun _ => by decide +kernel, _, rfl⟩

theorem witness_StepsKeepTheCounts : countersOk waitingOk ∧ countsOk waitingOk ∧ ∃ t, step waitingOk = .next t := by
  obtain ⟨h1, _, _, _, _, _, h2, _⟩ := waitingOk_inv
  exact ⟨h1, h2, _, rfl⟩

end Sys2Proof.Tests
end

section
/-!
PROOFS. What every step keeps. Each part of the invariant goes over the cases of `Reaction` and `Commanded`, which say what
a step can do, and of `InStep`, which says what an input byte can do; no meaning of an instruction is unfolded.
-/

namespace Sys2Proof.Machine

/-! ### Steps and invariants -/

/-- A step on the event taken is a reaction to it, in the state without the event. -/
theorem reaction_of_step {s t : State} {e : HostEvent} {rest : List HostEvent}
    (h : takeEvent s s.events = some (e, rest)) (ht : step s = .next t) : Reaction { s with events := rest } e t := by
  rcases step_reaction ht with ⟨e', rest', h', hr⟩ | ⟨h', _⟩
  · rw [h] at h'
    cases h'
    exact hr
  · rw [h] at h'
    cases h'

/-- What does not rest on the list of events and is kept by every reaction is kept by every step. -/
theorem kept_by_step {P : State → Prop} (hev : ∀ s l, P s → P { s with events := l })
    (hr : ∀ s e t, P s → Reaction s e t → P t) {s t : State} (hs : P s) (ht : step s = .next t) : P t := by
  rcases step_reaction ht with ⟨e, rest, _, h⟩ | ⟨_, rfl⟩
  · exact hr _ e t (hev s rest hs) h
  · exact hs

/-- The state after any reset meets the invariant, whatever the arrays hold (R55). -/
theorem afterReset_inv (m : BitVec 16) (b : Byte) (n : Nat) : (State.afterReset m b n).inv := by
  refine ⟨⟨nofun, nofun, fun _ => rfl⟩, rfl, ⟨rfl, rfl⟩, ?_, ⟨nofun, Nat.le_refl _⟩, nofun, ⟨nofun, nofun, nofun⟩,
    ⟨nofun, ?_, nofun⟩, nofun, nofun, rfl⟩
  · show (0 : Byte).toNat < 2 ^ (0 : BitVec 3).toNat
    decide
  · rintro (h | h | h) <;> cases h

theorem hardReset_inv (s : State) : (hardReset s).inv := afterReset_inv s.magicReg s.termReg s.draws

/-! ### Where an input byte can lead -/

theorem idle_mem_inputMoves {p : Phase} : .idle ∈ inputMoves p ↔ p = .idle := by cases p <;> decide

theorem encCount_mem_inputMoves {p : Phase} : .encCount ∈ inputMoves p ↔ p = .encCount := by cases p <;> decide

theorem encCode_mem_inputMoves {p : Phase} : .encCode ∈ inputMoves p ↔ p = .encCount ∨ p = .encCode := by
  cases p <;> decide

/-- Once output may have been emitted, no input byte leads back to a phase without output. -/
theorem phaseSilent_of_inputMoves {p q : Phase} (hq : q ∈ inputMoves p) (hs : phaseSilent q = true) (hi : p ≠ .idle) :
    phaseSilent p = true := by
  revert hq hs hi
  cases p <;> cases q <;> decide

theorem ne_idle_of_accepts {p : Phase} (h : phaseAccepts p = true) : p ≠ .idle := by
  rintro rfl
  cases h

theorem ne_idle_of_running {p : Phase} (h : phaseRunning p = true) : p ≠ .idle := by
  rintro rfl
  cases h

/-! ### The counters and the counts -/

/-- A count that is below another one does not wrap when it is raised. -/
theorem toNat_succ_of_lt {x y : Word} (h : x.toNat < y.toNat) : (x + 1).toNat = x.toNat + 1 := by
  have := y.isLt
  rw [BitVec.toNat_add, show (1 : Word).toNat = 1 from rfl, Nat.mod_eq_of_lt (by omega)]

theorem ftClear_sentinel : ftClear[256] = 1 := by simp [ftClear, Config.sentWeight]

theorem byteCount_ftClear : byteCount ftClear = 0 := by decide +kernel

/-- IN_CNT and the counts together: what one input byte does to the counts rests on both. -/
def tallyOk (s : State) : Prop := countersOk s ∧ countsOk s

theorem Commanded.keeps_tally {s t : State} {w : Word} (h : Commanded s w t) (hs : tallyOk s) : tallyOk t := by
  obtain ⟨⟨hlt, hle, hidle⟩, hsent, hcount, hcode⟩ := hs
  cases h with
  | rejected _ => exact ⟨⟨hlt, hle, hidle⟩, hsent, hcount, hcode⟩
  | nop => exact ⟨⟨hlt, hle, hidle⟩, hsent, hcount, hcode⟩
  | encStart hp h0 h1 =>
    have hmax : s.totalLen.toNat < 2 ^ 32 - 1 := by
      have : s.totalLen.toNat ≠ 2 ^ 32 - 1 := fun e => h1 (BitVec.eq_of_toNat_eq e)
      have := s.totalLen.isLt
      omega
    exact ⟨⟨fun _ => BitVec.toNat_pos_of_ne_zero h0, fun _ => Nat.zero_le _, nofun⟩, fun _ => ftClear_sentinel,
      fun _ => ⟨byteCount_ftClear, hmax⟩, nofun⟩
  | encFail hp hc => exact ⟨⟨nofun, fun _ => Nat.zero_le _, nofun⟩, fun _ => ftClear_sentinel, nofun, nofun⟩
  | decStart hp h0 =>
    exact ⟨⟨fun _ => BitVec.toNat_pos_of_ne_zero h0, fun _ => Nat.zero_le _, nofun⟩, fun _ => ftClear_sentinel, nofun, nofun⟩
  | decFail hp => exact ⟨⟨nofun, fun _ => Nat.zero_le _, nofun⟩, fun _ => ftClear_sentinel, nofun, nofun⟩
  | sinkOk hp h0 =>
    have hne : s.inCnt.toNat ≠ s.totalLen.toNat := fun e => h0 (BitVec.eq_of_toNat_eq e)
    have hle := hle (by simp [hp])
    exact ⟨⟨fun _ => by show s.inCnt.toNat < s.totalLen.toNat; omega, fun _ => hle, nofun⟩,
      fun _ => hsent (by simp [hp]), nofun, nofun⟩
  | sinkFail hp => exact ⟨⟨nofun, fun _ => hle (by simp [hp]), nofun⟩, fun _ => hsent (by simp [hp]), nofun, nofun⟩
  | stop hr hc =>
    have hp := ne_idle_of_running hr
    exact ⟨⟨nofun, fun _ => hle hp, nofun⟩, fun _ => hsent hp, nofun, nofun⟩
  | clear hr => exact ⟨⟨nofun, nofun, fun _ => rfl⟩, nofun, nofun, nofun⟩

theorem InStep.keeps_counters {b : Byte} {s t : State} (h : InStep b s t) (ha : phaseAccepts s.phase = true)
    (hs : countersOk s) : countersOk t := by
  have hlt := hs.1 ha
  have hsucc := toNat_succ_of_lt hlt
  have htotal : t.totalLen = s.totalLen := hostSide_totalLen h.keep
  have hle : t.inCnt.toNat ≤ s.totalLen.toNat := by
    rcases h.inCnt with e | ⟨_, _, e, _⟩
    · rw [e, hsucc]
      exact hlt
    · rw [e]
      exact Nat.zero_le _
  refine ⟨fun hat => ?_, fun _ => by rwa [htotal], fun hi => ?_⟩
  · rw [htotal]
    rcases h.full hat with hne | ⟨h1, h2⟩
    · have : t.inCnt.toNat ≠ s.totalLen.toNat := fun e => hne (BitVec.eq_of_toNat_eq (by rwa [htotal]))
      omega
    · rw [(h.turn h1 h2).1]
      exact Nat.lt_of_le_of_lt (Nat.zero_le _) hlt
  · have hm := h.phase
    rw [hi, idle_mem_inputMoves] at hm
    exact absurd hm (ne_idle_of_accepts ha)

theorem InStep.keeps_counts {b : Byte} {s t : State} (h : InStep b s t) (ha : phaseAccepts s.phase = true)
    (hs : tallyOk s) : countsOk t := by
  obtain ⟨⟨hlt, _, _⟩, hsent, hcount, hcode⟩ := hs
  have hlt := hlt ha
  have hsucc := toNat_succ_of_lt hlt
  have htotal : t.totalLen = s.totalLen := hostSide_totalLen h.keep
  -- In pass 1 the byte is counted, and no count wraps.
  have counted_one (hp : s.phase = .encCount) : byteCount t.freq = s.inCnt.toNat + 1 ∧ s.totalLen.toNat < 2 ^ 32 - 1 := by
    obtain ⟨hsum, hmax⟩ := hcount hp
    rw [h.freqCount hp, (byteCount_succ b s.freq (by omega)).1, hsum]
    exact ⟨rfl, hmax⟩
  refine ⟨fun _ => ?_, fun hp => ?_, fun hp => ?_⟩
  · by_cases hp : s.phase = .encCount
    · rw [h.freqCount hp, ftAdd_sentinel]
      exact hsent (ne_idle_of_accepts ha)
    · rw [h.freqRest hp]
      exact hsent (ne_idle_of_accepts ha)
  · obtain ⟨hsum, hmax⟩ := counted_one (encCount_mem_inputMoves.1 (hp ▸ h.phase))
    rcases h.inCnt with e | ⟨_, he, _⟩
    · rw [e, hsucc, htotal]
      exact ⟨hsum, hmax⟩
    · rw [hp] at he
      cases he
  · rw [htotal]
    rcases encCode_mem_inputMoves.1 (hp ▸ h.phase) with hq | hq
    · obtain ⟨hsum, hmax⟩ := counted_one hq
      rw [hsum, ← (h.turn hq hp).2, hsucc]
      exact ⟨rfl, by rwa [← hsucc, (h.turn hq hp).2]⟩
    · rw [h.freqRest (by simp [hq])]
      exact hcode hq

theorem Reaction.keeps_tally {s t : State} {e : HostEvent} (h : Reaction s e t) (hs : tallyOk s) : tallyOk t := by
  cases h with
  | read | narrow | port | irqEn | irqPend | out => exact hs
  | config _ hp =>
    obtain ⟨⟨_, _, hidle⟩, hsent, _, _⟩ := hs
    have no {q : Phase} (hq : s.phase = q) (hne : q ≠ .idle) : False := hne (hq ▸ hp)
    exact ⟨⟨fun ha => absurd hp (ne_idle_of_accepts ha), fun hn => absurd hp hn, hidle⟩, hsent,
      fun hq => (no hq nofun).elim, fun hq => (no hq nofun).elim⟩
  | command hc => exact hc.keeps_tally hs
  | byte ha hb => exact ⟨hb.keeps_counters ha hs.1, hb.keeps_counts ha hs⟩
  | reset =>
    obtain ⟨hcounters, _, _, _, _, _, hcounts, _⟩ := hardReset_inv s
    exact ⟨hcounters, hcounts⟩

theorem tallyOk_step {s t : State} (hs : tallyOk s) (ht : step s = .next t) : tallyOk t :=
  kept_by_step (fun _ _ h => h) (fun _ _ _ h hr => hr.keeps_tally h) hs ht

/-- Settles O58: `tallyOk` is kept by every reaction. -/
theorem stepsKeepTheCounts : Obligations.StepsKeepTheCounts :=
  fun _ _ hcounters hcounts ht => tallyOk_step ⟨hcounters, hcounts⟩ ht

/-! ### The output -/

/-- The packer, the count of the output and the silence before it. -/
def emissionOk (s : State) : Prop := packerOk s.out ∧ outputOk s ∧ silenceOk s

/-- An output that is empty and counted as empty is in order in every phase: what the start commands leave. -/
theorem emissionOk_of_empty {s : State} (hp : packerOk s.out) (hseq : s.out.seq = []) (hcnt : s.out.cnt = 0)
    (htaken : s.out.taken = 0) : emissionOk s :=
  ⟨hp, ⟨fun _ => by rw [hseq, hcnt]; rfl, by rw [htaken]; exact Nat.zero_le _⟩, fun _ => hseq⟩

theorem packerOk_encStarted (s : State) : packerOk (encStarted s).out := by
  show (0 : Byte).toNat < 2 ^ (0 : BitVec 3).toNat
  decide

theorem Commanded.keeps_emission {s t : State} {w : Word} (h : Commanded s w t) (hs : emissionOk s) : emissionOk t := by
  obtain ⟨hpack, ⟨hcnt, htaken⟩, hsilent⟩ := hs
  cases h with
  | rejected _ => exact ⟨hpack, ⟨hcnt, htaken⟩, hsilent⟩
  | nop => exact ⟨hpack, ⟨hcnt, htaken⟩, hsilent⟩
  | encStart => exact emissionOk_of_empty (packerOk_encStarted s) rfl rfl rfl
  | encFail => exact emissionOk_of_empty (packerOk_encStarted s) rfl rfl rfl
  | decStart => exact emissionOk_of_empty hpack rfl rfl rfl
  | decFail => exact emissionOk_of_empty hpack rfl rfl rfl
  | sinkOk hp =>
    have hseq : s.out.seq = [] := hsilent (by rw [hp]; rfl)
    exact ⟨hpack, ⟨fun _ => hcnt (by simp [hp]), htaken⟩, fun _ => hseq⟩
  | sinkFail hp => exact ⟨hpack, ⟨fun _ => hcnt (by simp [hp]), htaken⟩, nofun⟩
  | stop hr => exact ⟨hpack, ⟨fun _ => hcnt (ne_idle_of_running hr), htaken⟩, nofun⟩
  | clear => exact ⟨hpack, ⟨fun hn => absurd rfl hn, htaken⟩, nofun⟩

theorem InStep.keeps_emission {b : Byte} {s t : State} (h : InStep b s t) (ha : phaseAccepts s.phase = true)
    (hs : emissionOk s) : emissionOk t := by
  obtain ⟨hpack, ⟨hcnt, htaken⟩, hsilent⟩ := hs
  have hi := ne_idle_of_accepts ha
  obtain ⟨l, hl⟩ := h.seq
  refine ⟨h.packer hpack, ⟨fun _ => h.cnt (hcnt hi), ?_⟩, fun hq => ?_⟩
  · rw [h.taken, hl, List.length_append]
    omega
  · rw [h.silent hq]
    exact hsilent (phaseSilent_of_inputMoves h.phase hq hi)

theorem Reaction.keeps_emission {s t : State} {e : HostEvent} (h : Reaction s e t) (hs : emissionOk s) :
    emissionOk t := by
  cases h with
  | read | narrow | port | config | irqEn | irqPend => exact hs
  | command hc => exact hc.keeps_emission hs
  | byte ha hb => exact hb.keeps_emission ha hs
  | out hlt =>
    obtain ⟨hpack, ⟨hcnt, _⟩, hsilent⟩ := hs
    exact ⟨hpack, ⟨hcnt, hlt⟩, hsilent⟩
  | reset =>
    obtain ⟨_, _, _, hpack, hout, hsilent, _⟩ := hardReset_inv s
    exact ⟨hpack, hout, hsilent⟩

theorem emissionOk_step {s t : State} (hs : emissionOk s) (ht : step s = .next t) : emissionOk t :=
  kept_by_step (fun _ _ h => h) (fun _ _ _ h hr => hr.keeps_emission h) hs ht

/-- Settles O56: `emissionOk` is kept by every reaction. -/
theorem stepsKeepTheOutputDiscipline : Obligations.StepsKeepTheOutputDiscipline :=
  fun _ _ hpack hout hsilent ht => emissionOk_step ⟨hpack, hout, hsilent⟩ ht

/-! ### OP and the error registers -/

/-- In a phase that is not IDLE an operation is current. -/
theorem opOk.ne_none {s : State} (h : opOk s) (hp : s.phase ≠ .idle) : s.op ≠ .none := by
  unfold opOk at h
  split at h <;> simp_all

theorem Commanded.keeps_opOk {s t : State} {w : Word} (h : Commanded s w t) (hs : opOk s) : opOk t := by
  cases h with
  | rejected | nop => exact hs
  | encStart | decStart | clear => exact rfl
  | encFail | decFail => nofun
  | sinkOk hp =>
    unfold opOk at hs
    rw [hp] at hs
    exact hs
  | sinkFail hp => exact hs.ne_none (by simp [hp])
  | stop hr => exact hs.ne_none (ne_idle_of_running hr)

/-- An input byte keeps OP, and leads only to phases that OP agrees with. -/
theorem InStep.keeps_opOk {b : Byte} {s t : State} (h : InStep b s t) (hs : opOk s) : opOk t := by
  have hop : t.op = s.op := hostSide_op h.keep
  have hm := h.phase
  unfold opOk at hs ⊢
  rw [hop]
  revert hs hm
  cases s.phase <;> cases t.phase <;> simp +contextual [inputMoves]

theorem Reaction.keeps_opOk {s t : State} {e : HostEvent} (h : Reaction s e t) (hs : opOk s) : opOk t := by
  cases h with
  | read | narrow | port | config | irqEn | irqPend | out => exact hs
  | command hc => exact hc.keeps_opOk hs
  | byte _ hb => exact hb.keeps_opOk hs
  | reset => exact rfl

theorem Commanded.keeps_errorOk {s t : State} {w : Word} (h : Commanded s w t) (hs : errorOk s) : errorOk t := by
  cases h with
  | rejected | nop => exact hs
  | encStart | decStart | clear => exact ⟨rfl, rfl⟩
  | encFail _ hc => exact ⟨hc, rfl⟩
  | decFail => exact ⟨nofun, rfl⟩
  | sinkOk hp =>
    unfold errorOk at hs
    rw [hp] at hs
    exact hs
  | sinkFail => exact ⟨nofun, rfl⟩
  | stop _ hc => exact ⟨hc, rfl⟩

theorem InStep.keeps_errorOk {b : Byte} {s t : State} (h : InStep b s t) (ha : phaseAccepts s.phase = true)
    (hs : errorOk s) : errorOk t := by
  have hne : s.phase ≠ .error := fun e => by rw [e] at ha; cases ha
  unfold errorOk at hs ⊢
  rw [if_neg hne] at hs
  obtain ⟨herr, hdiscard⟩ := hs
  have := h.err
  rwa [herr, hdiscard] at this

theorem Reaction.keeps_errorOk {s t : State} {e : HostEvent} (h : Reaction s e t) (hs : errorOk s) : errorOk t := by
  cases h with
  | read | narrow | port | config | irqEn | irqPend | out => exact hs
  | command hc => exact hc.keeps_errorOk hs
  | byte ha hb => exact hb.keeps_errorOk ha hs
  | reset => exact ⟨rfl, rfl⟩

/-! ### The decoder, the code table and the path buffer -/

theorem Commanded.keeps_units {s t : State} {w : Word} (h : Commanded s w t) (hs : unitsOk s) : unitsOk t := by
  have hpath : s.codes.pathLen = 0 := hs.2.2.2
  cases h with
  | rejected | nop => exact hs
  | encStart => exact unitsOk_of_closed (.inr (.inr (.inr rfl))) hpath
  | encFail | decFail | sinkFail | stop => exact unitsOk_of_closed (.inl rfl) hpath
  | decStart =>
    exact ⟨⟨fun _ => Nat.zero_lt_two, fun _ => ⟨rfl, rfl, rfl⟩, nofun⟩, nofun, nofun, hpath⟩
  | sinkOk hp =>
    obtain ⟨⟨_, hstart, _⟩, _⟩ := hs
    obtain ⟨hpsn, hslot, hmark⟩ := hstart (.inr (.inr hp))
    refine unitsOk_of_decoding (.inl rfl) ⟨fun _ => ⟨hpsn.trans hslot.symm, ?_, fun hsym => ?_⟩, nofun, hpath⟩
    · show s.dec.slot.toNat < 513
      rw [hslot]
      decide
    · cases hmark.symm.trans hsym
  | clear => exact unitsOk_of_closed (.inr (.inr (.inl rfl))) hpath

/-- An input byte is checked against the counts too: the build at the end of pass 1 rests on them. -/
theorem Reaction.keeps_units {s t : State} {e : HostEvent} (h : Reaction s e t) (ht : react e s = .next t)
    (htally : tallyOk s) (hs : unitsOk s) : unitsOk t := by
  cases h with
  | read | narrow | port | config | irqEn | irqPend | out => exact hs
  | command hc => exact hc.keeps_units hs
  | byte ha _ => exact Flow.next_of_post (Flow.runs_post (inByte_runs _ _ htally.2 htally.1 hs ha)) ht
  | reset => exact unitsOk_of_closed (.inr (.inr (.inl rfl))) rfl

theorem unitsOk_step {s t : State} (htally : tallyOk s) (hs : unitsOk s) (ht : step s = .next t) : unitsOk t := by
  rcases step_reaction ht with ⟨e, rest, he, hr⟩ | ⟨_, rfl⟩
  · exact hr.keeps_units ((step_of_takeEvent he).symm.trans ht) htally hs
  · exact hs

/-! ### The whole machine -/

/-- Settles O59: each part of the invariant is kept, the decoder's and the encoder's with the help of the counts. -/
theorem stepsKeepTheInvariant : Obligations.StepsKeepTheInvariant := by
  intro s t hs ht
  obtain ⟨hcounters, hop, herror, hpack, hout, hsilent, hcounts, hdecoder, hpayload, hcodes, hpath⟩ := hs
  obtain ⟨hcounters', hcounts'⟩ := tallyOk_step ⟨hcounters, hcounts⟩ ht
  obtain ⟨hpack', hout', hsilent'⟩ := emissionOk_step ⟨hpack, hout, hsilent⟩ ht
  obtain ⟨hdecoder', hpayload', hcodes', hpath'⟩ :=
    unitsOk_step ⟨hcounters, hcounts⟩ ⟨hdecoder, hpayload, hcodes, hpath⟩ ht
  have hop' := kept_by_step (fun _ _ h => h) (fun _ _ _ h hr => hr.keeps_opOk h) hop ht
  have herror' := kept_by_step (fun _ _ h => h) (fun _ _ _ h hr => hr.keeps_errorOk h) herror ht
  exact ⟨hcounters', hop', herror', hpack', hout', hsilent', hcounts', hdecoder', hpayload', hcodes', hpath'⟩

/-- Settles O55: the state after any reset meets the invariant. -/
theorem resetMeetsTheInvariant : Obligations.ResetMeetsTheInvariant := afterReset_inv _ _ _

end Sys2Proof.Machine
end

section
/-!
PROOFS. What a step leaves unchanged: the settings, BADCMD and CMDERR, and the bytes already emitted; and the event OUT.
-/

namespace Sys2Proof.Machine

/-! ### The settings -/

/-- The copies of the parameters, IRQ_EN, FORCE and TOTAL_LEN (10_state.md R30 to R32, R37): what no command and no input
byte changes. -/
structure SettingsKept (s t : State) : Prop where
  magicReg : t.magicReg = s.magicReg
  termReg : t.termReg = s.termReg
  irqEn : t.irqEn = s.irqEn
  force : t.force = s.force
  totalLen : t.totalLen = s.totalLen

theorem Commanded.settingsKept {s t : State} {w : Word} (h : Commanded s w t) : SettingsKept s t := by
  cases h <;> exact ⟨rfl, rfl, rfl, rfl, rfl⟩

theorem InStep.settingsKept {b : Byte} {s t : State} (h : InStep b s t) : SettingsKept s t where
  magicReg := (congrArg State.magicReg h.keep :)
  termReg := (congrArg State.termReg h.keep :)
  irqEn := (congrArg State.irqEn h.keep :)
  force := (congrArg State.force h.keep :)
  totalLen := hostSide_totalLen h.keep

/-- Of the commands only DEC_START, in IDLE, changes the extension (47_decoder.md R230). -/
theorem Commanded.ext_kept {s t : State} {w : Word} (h : Commanded s w t) (hp : s.phase ≠ .idle) :
    t.ext = s.ext ∧ t.extLen = s.extLen := by
  cases h with
  | decStart hi | decFail hi => exact absurd hi hp
  | rejected | nop | encStart | encFail | sinkOk | sinkFail | stop | clear => exact ⟨rfl, rfl⟩

section
variable {s t : State} {e : HostEvent}

theorem Reaction.parameters_kept (h : Reaction s e t) : t.magicReg = s.magicReg ∧ t.termReg = s.termReg := by
  cases h with
  | read | narrow | port | config | irqEn | irqPend | out | reset => exact ⟨rfl, rfl⟩
  | command hc => exact ⟨hc.settingsKept.magicReg, hc.settingsKept.termReg⟩
  | byte _ hb => exact ⟨hb.settingsKept.magicReg, hb.settingsKept.termReg⟩

theorem Reaction.irqEn_kept (h : Reaction s e t) (he : e ≠ .reset) (hw : ∀ v, e ≠ .write 0x018 v) :
    t.irqEn = s.irqEn := by
  cases h with
  | read | narrow | port | config | irqPend | out => rfl
  | irqEn => exact absurd rfl (hw _)
  | command hc => exact hc.settingsKept.irqEn
  | byte _ hb => exact hb.settingsKept.irqEn
  | reset => exact absurd rfl he

theorem Reaction.force_totalLen_kept (h : Reaction s e t) (he : e ≠ .reset) (hp : s.phase ≠ .idle) :
    t.force = s.force ∧ t.totalLen = s.totalLen := by
  cases h with
  | read | narrow | port | irqEn | irqPend | out => exact ⟨rfl, rfl⟩
  | config _ hi => exact absurd hi hp
  | command hc => exact ⟨hc.settingsKept.force, hc.settingsKept.totalLen⟩
  | byte _ hb => exact ⟨hb.settingsKept.force, hb.settingsKept.totalLen⟩
  | reset => exact absurd rfl he

theorem Reaction.ext_kept (h : Reaction s e t) (he : e ≠ .reset) (hp : s.phase ≠ .idle)
    (hx : ∀ b, e = .inByte b → s.phase ≠ .decExt) : t.ext = s.ext ∧ t.extLen = s.extLen := by
  cases h with
  | read | narrow | port | irqEn | irqPend | out => exact ⟨rfl, rfl⟩
  | config _ hi => exact absurd hi hp
  | command hc => exact hc.ext_kept hp
  | byte _ hb => exact hb.ext (hx _ rfl)
  | reset => exact absurd rfl he

end

/-- Settles O52: one frame lemma for each group of settings. -/
theorem settingsStayWhileRunning : Obligations.SettingsStayWhileRunning := by
  intro s t e rest h ht
  have hr := reaction_of_step h ht
  obtain ⟨hmagic, hterm⟩ := hr.parameters_kept
  refine ⟨hmagic, hterm, fun he => ⟨hr.irqEn_kept he, fun hp => ?_⟩⟩
  obtain ⟨hforce, htotal⟩ := hr.force_totalLen_kept he hp
  exact ⟨hforce, htotal, hr.ext_kept he hp⟩

/-! ### BADCMD and CMDERR -/

/-- Of the commands only a rejected one changes BADCMD, and only a rejected one or CLEAR CMDERR (48_host_commands.md R261,
R265). -/
theorem Commanded.badCmd_cmderr {s t : State} {w : Word} (h : Commanded s w t) :
    (t.badCmd ≠ s.badCmd → illegalWord w s.phase = true ∧ t.badCmd = w) ∧
    (t.cmderr ≠ s.cmderr → illegalWord w s.phase = true ∨ w = 5) := by
  cases h with
  | rejected hw => exact ⟨fun _ => ⟨hw, rfl⟩, fun _ => .inl hw⟩
  | clear => exact ⟨fun hn => absurd rfl hn, fun _ => .inr rfl⟩
  | nop | encStart | encFail | decStart | decFail | sinkOk | sinkFail | stop =>
    exact ⟨fun hn => absurd rfl hn, fun hn => absurd rfl hn⟩

theorem Reaction.badCmd_cmderr {s t : State} {e : HostEvent} (h : Reaction s e t) (he : e ≠ .reset) :
    (t.badCmd = s.badCmd ∧ t.cmderr = s.cmderr) ∨ ∃ w, e = .write 0x004 w ∧ Commanded { s with reply := .ack } w t := by
  cases h with
  | read | narrow | port | config | irqEn | irqPend | out => exact .inl ⟨rfl, rfl⟩
  | command hc => exact .inr ⟨_, rfl, hc⟩
  | byte _ hb => exact .inl ⟨(congrArg State.badCmd hb.keep :), (congrArg State.cmderr hb.keep :)⟩
  | reset => exact absurd rfl he

/-- Settles O53: only a written command reaches the two registers, and `Commanded` says which one. -/
theorem onlyRejectionWritesBadCmd : Obligations.OnlyRejectionWritesBadCmd := by
  intro s t e rest h he ht
  rcases (reaction_of_step h ht).badCmd_cmderr he with ⟨hbad, herr⟩ | ⟨w, rfl, hc⟩
  · exact ⟨fun hn => absurd hbad hn, fun hn => absurd herr hn⟩
  · obtain ⟨hbad, herr⟩ := hc.badCmd_cmderr
    exact ⟨fun hn => ⟨w, rfl, hbad hn⟩, fun hn => ⟨w, rfl, herr hn⟩⟩

/-! ### The output port -/

/-- A command leaves OUTSEQ as it is, or it is a start command, which empties it (10_state.md R50). -/
theorem Commanded.seq_kept {s t : State} {w : Word} (h : Commanded s w t) :
    t.out.seq = s.out.seq ∨ t.out.seq = [] ∧ s.phase = .idle ∧ (w = 1 ∨ w = 2) := by
  cases h with
  | rejected | nop | sinkOk | sinkFail | stop | clear => exact .inl rfl
  | encStart hp | encFail hp => exact .inr ⟨rfl, hp, .inl rfl⟩
  | decStart hp | decFail hp => exact .inr ⟨rfl, hp, .inr rfl⟩

theorem Reaction.seq_grows {s t : State} {e : HostEvent} (h : Reaction s e t) (he : e ≠ .reset) :
    s.out.seq <+: t.out.seq ∨
      t.out.seq = [] ∧ s.phase = .idle ∧ (e = .write 0x004 0x00000001#32 ∨ e = .write 0x004 0x00000002#32) := by
  cases h with
  | read | narrow | port | config | irqEn | irqPend | out => exact .inl ⟨[], List.append_nil _⟩
  | command hc =>
    rcases hc.seq_kept with hseq | ⟨hseq, hp, hw⟩
    · exact .inl ⟨[], by rw [hseq, List.append_nil]⟩
    · exact .inr ⟨hseq, hp, hw.imp (congrArg _) (congrArg _)⟩
  | byte _ hb =>
    obtain ⟨l, hl⟩ := hb.seq
    exact .inl ⟨l, hl.symm⟩
  | reset => exact absurd rfl he

/-- No byte is offered exactly where all of OUTSEQ has been taken (20_memory.md R61). -/
theorem outData_eq_none_iff {s : State} : s.outData = none ↔ s.out.seq.length ≤ s.out.taken := List.getElem?_eq_none_iff

theorem step_outByte {s : State} {rest : List HostEvent} (h : takeEvent s s.events = some (.outByte, rest)) :
    ∃ b older newer, s.outData = some b ∧ s.out.seq = older ++ b :: newer ∧ older.length = s.out.taken ∧
      ∃ t, step s = .next t ∧ t = { s with events := rest, out := { s.out with taken := s.out.taken + 1 } } ∧
        t.outData = newer.head? := by
  obtain ⟨b, hb⟩ := Option.isSome_iff_exists.1 (takeEvent_some h).1
  obtain ⟨hlt, hget⟩ := List.getElem?_eq_some_iff.1 hb
  refine ⟨b, s.out.seq.take s.out.taken, s.out.seq.drop (s.out.taken + 1), hb, ?_, ?_, _, step_of_takeEvent h, rfl, ?_⟩
  · rw [← hget, List.getElem_cons_drop, List.take_append_drop]
  · rw [List.length_take, Nat.min_eq_left hlt.le]
  · rw [List.head?_drop]
    rfl

theorem step_of_only_outByte {s : State} {n : Nat} (hn : s.outData = none) (he : s.events = List.replicate n .outByte) :
    step s = .next s := by
  refine step_of_none (takeEvent_none.2 fun e hm => ?_)
  rw [he] at hm
  rw [List.eq_of_mem_replicate hm]
  exact Option.isSome_eq_false_iff.2 (Option.isNone_iff_eq_none.2 hn)

/-- Settles O54: the growth of OUTSEQ, the transfer of one byte and the wait are three lemmas. -/
theorem outputOnlyGrows : Obligations.OutputOnlyGrows :=
  ⟨fun _ _ _ _ h he ht => (reaction_of_step h ht).seq_grows he, fun _ _ h => step_outByte h,
    fun _ _ hlen he => ⟨outData_eq_none_iff.2 hlen, step_of_only_outByte (outData_eq_none_iff.2 hlen) he⟩⟩

/-! ### The hardware reset -/

/-- Settles O50: the reset state is written out in `State.afterReset`. -/
theorem resetValues : Obligations.ResetValues := by
  intro s rest h
  refine ⟨_, step_of_takeEvent h, ?_⟩
  and_intros <;> rfl

end Sys2Proof.Machine
end

section
/-!
PROOFS. What the host reads: the fields of STATUS, ERR and PARAM, the halves of the 64-bit registers, and the windows.
-/

namespace Sys2Proof.Machine

/-! ### Fields of a word -/

/-- A field within the low part of an append is a field of that part. -/
theorem extractLsb'_append_low {n m i k : Nat} (x : BitVec n) (y : BitVec m) (h : i + k ≤ m) :
    (x ++ y).extractLsb' i k = y.extractLsb' i k := by
  apply BitVec.eq_of_getLsbD_eq
  intro j hj
  simp only [BitVec.getLsbD_extractLsb', BitVec.getLsbD_append]
  rw [if_pos (by omega)]

/-- A field above the low part of an append is a field of the high part. -/
theorem extractLsb'_append_high {n m i k : Nat} (x : BitVec n) (y : BitVec m) (h : m ≤ i) :
    (x ++ y).extractLsb' i k = x.extractLsb' (i - m) k := by
  apply BitVec.eq_of_getLsbD_eq
  intro j hj
  simp only [BitVec.getLsbD_extractLsb', BitVec.getLsbD_append]
  rw [if_neg (by omega), Nat.sub_add_comm h]

theorem statusWord_fields (s : State) :
    s.statusWord.extractLsb' 0 4 = phaseBits s.phase ∧ s.statusWord.extractLsb' 4 2 = opBits s.op ∧
    s.statusWord.extractLsb' 14 18 = 0#18 := by
  unfold State.statusWord
  refine ⟨?_, ?_, ?_⟩
  · rw [extractLsb'_append_low, BitVec.extractLsb'_eq_self]
    decide
  · rw [extractLsb'_append_high, extractLsb'_append_low, BitVec.extractLsb'_eq_self] <;> decide
  · iterate 10 rw [extractLsb'_append_high]
    · exact BitVec.extractLsb'_eq_self
    all_goals decide

theorem statusWord_flags (s : State) :
    s.statusWord.getLsbD 6 = false ∧
    s.statusWord.getLsbD 7 = s.doneFlag ∧ s.statusWord.getLsbD 8 = s.errFlag ∧ s.statusWord.getLsbD 9 = s.cmderr ∧
    s.statusWord.getLsbD 10 = s.discard ∧ s.statusWord.getLsbD 11 = s.freqValid ∧
    s.statusWord.getLsbD 12 = s.codeValid ∧ s.statusWord.getLsbD 13 = s.waitFlag := by
  unfold State.statusWord
  and_intros <;> (repeat rw [BitVec.getLsbD_append]) <;> simp [bit1]

theorem errWord_fields (s : State) :
    s.errWord.extractLsb' 0 8 = errBits s.err.code ∧ s.errWord.extractLsb' 8 4 = phaseBits s.err.phase ∧
    s.errWord.extractLsb' 12 20 = 0#20 := by
  unfold State.errWord
  refine ⟨?_, ?_, ?_⟩
  · rw [extractLsb'_append_low, BitVec.extractLsb'_eq_self]
    decide
  · rw [extractLsb'_append_high, extractLsb'_append_low, BitVec.extractLsb'_eq_self] <;> decide
  · rw [extractLsb'_append_high, extractLsb'_append_high]
    · exact BitVec.extractLsb'_eq_self
    all_goals decide

theorem paramWord_fields (s : State) :
    s.paramWord.extractLsb' 0 8 = s.termReg ∧ s.paramWord.extractLsb' 8 8 = 255#8 ∧
    s.paramWord.extractLsb' 16 4 = 9#4 ∧ s.paramWord.extractLsb' 20 10 = 513#10 ∧
    s.paramWord.extractLsb' 30 2 = 0#2 := by
  unfold State.paramWord
  refine ⟨?_, ?_, ?_, ?_, ?_⟩
  · rw [extractLsb'_append_low, BitVec.extractLsb'_eq_self]
    decide
  all_goals rw [extractLsb'_append_high] <;> decide

/-- The two words a 64-bit register is read in. -/
theorem halves_toNat (x : BitVec 64) : (x.extractLsb' 32 32).toNat * 2 ^ 32 + (x.extractLsb' 0 32).toNat = x.toNat := by
  have := x.isLt
  simp only [BitVec.extractLsb'_toNat, Nat.shiftRight_eq_div_pow]
  omega

/-! ### Reads -/

/-- A read of a register whose value is given answers it and changes nothing else (20_memory.md R66). -/
theorem hostRead_of_regAt {a : BitVec 15} {r : Reg} {s : State} (h : regAt a = some r) (hf : readsFree r s = false) :
    hostRead a s = { s with reply := .data (regValue r s) } := by
  simp [hostRead, h, hf]

/-- Settles O44: STATUS is the concatenation of its fields. -/
theorem statusReadsItsFields : Obligations.StatusReadsItsFields := by
  intro s
  have hread : hostRead 0x008 s = { s with reply := .data s.statusWord } := hostRead_of_regAt (r := .status) rfl rfl
  obtain ⟨hphase, hop, hzero⟩ := statusWord_fields s
  obtain ⟨hbusy, hdone, herr, hcmderr, hdiscard, hfreq, hcode, hwait⟩ := statusWord_flags s
  refine ⟨s.statusWord, hread, hphase, hop, hbusy, ?_, ?_, hcmderr, hdiscard, hfreq, hcode, ?_, hzero⟩
  · rw [hdone, State.doneFlag, decide_eq_true_iff]
  · rw [herr, State.errFlag, decide_eq_true_iff]
  · rw [hwait, State.waitFlag, decide_eq_true_iff]

theorem bit1_setWidth (b : Bool) : (bit1 b).setWidth 32 = if b then 1 else 0 := by cases b <;> rfl

theorem hostRead_ctrl (s : State) :
    hostRead 0x014 s = { s with reply := .data (if s.force then 1 else 0) } := by
  rw [← bit1_setWidth]
  rfl

/-- The registers whose value is one field, zeros above it (10_state.md R26). -/
theorem hostRead_control (s : State) (a : BitVec 15) (v : Word)
    (h : (a, v) ∈ [(0x000, 0x48550700), (0x004, 0), (0x010, s.err.info),
        (0x014, if s.force then 1 else 0), (0x018, s.irqEn.setWidth 32), (0x01C, s.irqPend.setWidth 32),
        (0x020, s.totalLen), (0x024, s.extLen.setWidth 32), (0x028, s.inCnt), (0x03C, s.nleaf.setWidth 32),
        (0x040, s.nnode.setWidth 32), (0x044, s.pct.setWidth 32), (0x048, s.magicReg.setWidth 32), (0x050, s.badCmd)]) :
    hostRead a s = { s with reply := .data v } := by
  simp only [List.mem_cons, Prod.mk.injEq, List.not_mem_nil, or_false] at h
  rcases h with h | h | h | h | h | h | h | h | h | h | h | h | h | h <;> obtain ⟨rfl, rfl⟩ := h
  case inr.inr.inr.inl => exact hostRead_ctrl s
  all_goals rfl

theorem errBits_of_mem {c : ErrCode} {n : BitVec 8}
    (h : (c, n) ∈ [(.none, 0x00), (.magic, 0x01), (.skel, 0x02), (.extLong, 0x03), (.eof, 0x10), (.io, 0x11),
      (.mismatch, 0x12), (.conflict, 0x20), (.policy, 0x30), (.empty, 0x31), (.cancel, 0x40), (.badExt, 0x50),
      (.range, 0x51)]) : errBits c = n := by
  simp only [List.mem_cons, Prod.mk.injEq, List.not_mem_nil, or_false] at h
  rcases h with h | h | h | h | h | h | h | h | h | h | h | h | h <;> (obtain ⟨rfl, rfl⟩ := h; rfl)

section
variable {s : State}

theorem hostRead_extWindow {i : Nat} (h : i < 255) (hi : i < s.extLen.toNat) :
    hostRead (BitVec.ofNat 15 (0x400 + 4 * i)) s = { s with reply := .data (s.ext[i].setWidth 32) } := by
  rw [hostRead_of_regAt (regAt_ext i h) (by simpa [readsFree] using hi)]
  simp [regValue, hi, h]

theorem hostRead_freqWindow (hv : s.freqValid = true) {k : Nat} (h : k < 257) :
    hostRead (BitVec.ofNat 15 (0x800 + 4 * k)) s = { s with reply := .data s.freq[k] } := by
  rw [hostRead_of_regAt (regAt_freq k h) (by simp [readsFree, hv])]
  simp [regValue, hv, h]

theorem hostRead_codeLenWindow (hv : s.codeValid = true) {k : Nat} (h : k < 257) :
    hostRead (BitVec.ofNat 15 (0x1000 + 4 * k)) s = { s with reply := .data (s.codes.len[k].setWidth 32) } := by
  rw [hostRead_of_regAt (regAt_codeLen k h) (by simp [readsFree, hv])]
  simp [regValue, hv, h]

theorem hostRead_codeBitsWindow (hv : s.codeValid = true) {k w : Nat} (h : k < 257) (hw : w < 8) :
    hostRead (BitVec.ofNat 15 (0x2000 + 32 * k + 4 * w)) s =
      { s with reply := .data (codeWord s.codes.bits[k] w) } := by
  rw [hostRead_of_regAt (regAt_codeBits k w h hw) (by simp [readsFree, hv])]
  simp [regValue, hv, h]

end

/-- Settles O45: one lemma for each kind of register and window. -/
theorem registersReadTheirFields : Obligations.RegistersReadTheirFields := by
  intro s
  obtain ⟨hcode, hphase, hzero⟩ := errWord_fields s
  refine ⟨hostRead_control s, ?err, ?outCnt, ?estBytes, ?param, fun i h hi => hostRead_extWindow h hi,
    fun hv k h => hostRead_freqWindow hv h, fun hv k h => ⟨hostRead_codeLenWindow hv h, fun w hw => ?codeBits⟩⟩
  case err => exact ⟨s.errWord, rfl, fun n hn => hcode.trans (errBits_of_mem hn), hphase, hzero⟩
  case outCnt => exact ⟨_, _, rfl, rfl, halves_toNat s.out.cnt⟩
  case estBytes => exact ⟨_, _, rfl, rfl, halves_toNat s.estBytes⟩
  case param => exact ⟨s.paramWord, rfl, paramWord_fields s⟩
  case codeBits => exact ⟨_, hostRead_codeBitsWindow hv h hw, fun j hj => codeWord_getMsbD _ w j hw hj⟩

end Sys2Proof.Machine
end

section
/-!
PROOFS. The host's accesses (20_memory.md R66 to R69): a read changes no register, a write of a writable register stores its
listed bits, and every other access is refused.
-/

namespace Sys2Proof.Machine

/-! ### Reads -/

/-- Of the registers only a window entry the spec gives no value for draws a free one (93_implementation_defined.md U2,
U3). -/
theorem readsFree_eq_false {r : Reg} {s : State} (hf : s.freqValid = true) (hc : s.codeValid = true)
    (he : ∀ i, r = .ext i → i < s.extLen.toNat) : readsFree r s = false := by
  cases r with
  | ext i => simpa [readsFree] using he i rfl
  | freq k => simp [readsFree, hf]
  | codeLen k => simp [readsFree, hc]
  | codeBits k w => simp [readsFree, hc]
  | _ => rfl

/-- A read is answered with a bus error where no register is mapped, and with data everywhere else. -/
theorem hostRead_answer (a : BitVec 15) (s : State) :
    ∃ (r : Reply) (d : Nat), hostRead a s = { s with reply := r, draws := d } ∧ (r = .busError ↔ regAt a = none) ∧
      (r ≠ .busError → ∃ v, r = .data v) ∧
      (s.freqValid = true → s.codeValid = true → (∀ i, regAt a = some (.ext i) → i < s.extLen.toNat) → d = s.draws) := by
  cases h : regAt a with
  | none =>
    have hread : hostRead a s = { s with reply := .busError } := by simp [hostRead, h]
    exact ⟨.busError, s.draws, hread, by simp, fun hn => absurd rfl hn, fun _ _ _ => rfl⟩
  | some r =>
    have hread : hostRead a s =
        { s with reply := .data (regValue r s), draws := if readsFree r s then s.draws + 1 else s.draws } := by
      simp [hostRead, h]
    refine ⟨_, _, hread, by simp, fun _ => ⟨_, rfl⟩, fun hf hc he => ?_⟩
    rw [readsFree_eq_false hf hc fun i hi => he i (congrArg some hi)]
    rfl

/-- Settles O43: a step on a read is `hostRead`, and `regAt_none` and `ext_of_regAt` say which addresses it distinguishes. -/
theorem readsHaveNoSideEffect : Obligations.ReadsHaveNoSideEffect := by
  intro s a rest h
  have hstep : step s = .next (hostRead a { s with events := rest }) := step_of_takeEvent h
  obtain ⟨r, d, hread, herr, hdata, hdraws⟩ := hostRead_answer a { s with events := rest }
  refine ⟨hstep, r, d, by rw [hstep, hread], herr.trans (regAt_none a), hdata, fun hf hc hext => hdraws hf hc fun i hi => ?_⟩
  obtain ⟨hlt, ha⟩ := ext_of_regAt hi
  exact hext i hlt ha

/-! ### Writes -/

section
variable {a : BitVec 15} {r : Reg} {s : State}

theorem hostWrite_of_regAt_none (h : regAt a = none) (v : Word) : hostWrite a v s = .next (refuseAccess s) := by
  simp [hostWrite, h]

theorem hostWrite_of_regAt (h : regAt a = some r) (hc : r ≠ .cmd) (v : Word) :
    hostWrite a v s = .next (writeReg r v s) := by
  unfold hostWrite
  rw [h]
  cases r with
  | cmd => exact absurd rfl hc
  | _ => rfl

theorem writeConfig_idle (h : s.phase = .idle) (t : State) : writeConfig s t = { t with reply := .ack } := if_pos h

theorem writeConfig_not_idle (h : s.phase ≠ .idle) (t : State) : writeConfig s t = refuseAccess s := if_neg h

theorem hostWrite_extWindow (hp : s.phase = .idle) {i : Nat} (h : i < 255) (v : Word) :
    hostWrite (BitVec.ofNat 15 (0x400 + 4 * i)) v s =
      .next { s with ext := s.ext.setIfInBounds i (v.extractLsb' 0 8), reply := .ack } := by
  rw [hostWrite_of_regAt (regAt_ext i h) nofun, writeReg, writeConfig_idle hp]

/-- IRQ_PEND is write 1 to clear (60_exceptions.md R301). -/
theorem getLsbD_clearPending (p : BitVec 5) (v : Word) {j : Nat} (h : j < 5) :
    (p &&& ~~~(v.extractLsb' 0 5)).getLsbD j = (p.getLsbD j && !v.getLsbD j) := by
  simp [h]

end

/-- Settles O47: each address names its register, and `writeReg` says what that register stores. -/
theorem registerWritesStoreTheirBits : Obligations.RegisterWritesStoreTheirBits := by
  intro s v
  refine ⟨fun hp => ⟨?ctrl, ?totalLen, ?extLen, fun i h => ⟨_, fun j hj => ?ext, hostWrite_extWindow hp h v⟩⟩, ?irqEn,
    _, fun j h => getLsbD_clearPending s.irqPend v h, ?irqPend⟩
  case ctrl => rw [hostWrite_of_regAt (r := .ctrl) rfl nofun, writeReg, writeConfig_idle hp]
  case totalLen => rw [hostWrite_of_regAt (r := .totalLen) rfl nofun, writeReg, writeConfig_idle hp]
  case extLen => rw [hostWrite_of_regAt (r := .extLen) rfl nofun, writeReg, writeConfig_idle hp]
  case ext => simp only [Vector.getElem_setIfInBounds, eq_comm]
  case irqEn => exact hostWrite_of_regAt (r := .irqEn) rfl nofun v
  case irqPend => exact hostWrite_of_regAt (r := .irqPend) rfl nofun v

/-! ### Refused writes -/

section
variable {a : BitVec 15} {r : Reg}

/-- A control register is at four times its place in the list of R26. -/
theorem address_of_control (h : regAt a = some r) (hr : r ∈ controlRegs) : a.toNat = 4 * controlRegs.idxOf r := by
  have nodup : controlRegs.Nodup := by decide
  unfold regAt at h
  dsimp only at h
  split at h
  · cases h
  · split at h
    · obtain ⟨hlt, rfl⟩ := List.getElem?_eq_some_iff.1 h
      rw [nodup.idxOf_getElem]
      omega
    · -- No window register stands in the list.
      repeat' split at h
      all_goals cases h <;> simp [controlRegs] at hr

theorem address_mem_of_control {l : List Reg} (h : regAt a = some r) (hl : l ⊆ controlRegs) (hr : r ∈ l) :
    a.toNat ∈ l.map (4 * controlRegs.idxOf ·) :=
  address_of_control h (hl hr) ▸ List.mem_map_of_mem hr

/-- The registers whose writes are not refused: CMD and the interrupt registers, and the configuration in IDLE
(20_memory.md R67, R69). -/
theorem hostWrite_refused_or_writable (h : regAt a = some r) (v : Word) (s : State) :
    hostWrite a v s = .next (refuseAccess s) ∨ r ∈ [.cmd, .irqEn, .irqPend] ∨
      s.phase = .idle ∧ (r ∈ [.ctrl, .totalLen, .extLen] ∨ ∃ i, r = .ext i) := by
  cases r with
  | cmd | irqEn | irqPend => exact .inr (.inl (by simp))
  | ctrl | totalLen | extLen | ext _ =>
    by_cases hp : s.phase = .idle
    · exact .inr (.inr ⟨hp, by simp⟩)
    · rw [hostWrite_of_regAt h nofun, writeReg, writeConfig_not_idle hp]
      exact .inl rfl
  | _ => exact .inl (hostWrite_of_regAt h nofun v)

end

/-- The addresses of the writes that are not refused. -/
theorem hostWrite_refused_or (a : BitVec 15) (v : Word) (s : State) :
    hostWrite a v s = .next (refuseAccess s) ∨ a.toNat ∈ [0x004, 0x018, 0x01C] ∨
      s.phase = .idle ∧ (a.toNat ∈ [0x014, 0x020, 0x024] ∨ ∃ i, i < 255 ∧ a.toNat = 0x400 + 4 * i) := by
  cases h : regAt a with
  | none => exact .inl (hostWrite_of_regAt_none h v)
  | some r =>
    rcases hostWrite_refused_or_writable h v s with hw | hr | ⟨hp, hr | ⟨i, rfl⟩⟩
    · exact .inl hw
    · exact .inr (.inl (address_mem_of_control h (by decide) hr))
    · exact .inr (.inr ⟨hp, .inl (address_mem_of_control h (by decide) hr)⟩)
    · exact .inr (.inr ⟨hp, .inr ⟨i, ext_of_regAt h⟩⟩)

/-- Settles O46: the addresses listed are none of those where a write is not refused. -/
theorem refusedWritesChangeNothing : Obligations.RefusedWritesChangeNothing := by
  refine ⟨fun s a rest h => step_of_takeEvent h, fun s a v ha => (hostWrite_refused_or a v s).resolve_right ?_⟩
  simp only [List.mem_cons, List.not_mem_nil, or_false] at ha ⊢
  rintro (hw | ⟨hp, hw⟩)
  · omega
  · simp only [hp, ne_eq, not_true_eq_false, false_and, or_false] at ha
    rcases hw with hw | ⟨i, hi, hw⟩ <;> omega

end Sys2Proof.Machine
end

section
/-!
PROOFS. Encoding and decoding undo each other (30_encoding.md): a command through its OPCODE and ARG, a token through
the place it fits, which is one place for each kind of token.
-/

namespace Sys2Proof.Machine

/-! ### Command words -/

/-- A word is given by its OPCODE and ARG, or it has a bit in [31:16] (30_encoding.md R91, R94). -/
theorem word_cases (w : Word) : (∃ op arg, w = commandWord op arg) ∨ w.extractLsb' 16 16 ≠ 0#16 := by
  by_cases h16 : w.extractLsb' 16 16 = 0#16
  · exact .inl ⟨_, _, eq_commandWord w h16⟩
  · exact .inr h16

/-- `decodeCommand` tells the command words apart (30_encoding.md R92). -/
theorem decodeCommand_encode {term : Byte} {i : Instr} {w : Word} (hw : i.wellFormed term = true)
    (he : encode term i = .word w) : decodeCommand w = .ok i := by
  cases i with
  | nop | encStart | decStart | sinkOk | clear => cases he; rfl
  | stop arg =>
    cases he
    rw [decodeCommand_commandWord, if_pos rfl, if_pos (of_decide_eq_true hw)]
  | magic | extByte | extTerm | slotInternal | slotLeaf | code | pad => cases he

/-- The decoder keeps every bit of a command word (30_encoding.md R91). -/
theorem encode_of_decodeCommand {w : Word} {i : Instr} (term : Byte) (h : decodeCommand w = .ok i) :
    i.wellFormed term = true ∧ encode term i = .word w := by
  obtain ⟨op, arg, rfl⟩ | h16 := word_cases w
  · rw [decodeCommand_commandWord] at h
    split_ifs at h with h4 hr h5 ha h0 h1 h2 h3 <;> cases h
    · exact ⟨decide_eq_true hr, by rw [h4]; rfl⟩
    all_goals rw [not_not] at ha
    · exact ⟨rfl, by rw [h0, ha]; rfl⟩
    · exact ⟨rfl, by rw [h1, ha]; rfl⟩
    · exact ⟨rfl, by rw [h2, ha]; rfl⟩
    · exact ⟨rfl, by rw [h3, ha]; rfl⟩
    · have hop : op = 5#8 := (opcode_cases op).resolve_left h0 |>.resolve_left h1 |>.resolve_left h2
        |>.resolve_left h3 |>.resolve_left h4 |>.resolve_right h5
      exact ⟨rfl, by rw [hop, ha]; rfl⟩
  · simp [decodeCommand, h16] at h

/-! ### The place of each token -/

section
variable {term : Byte} {p : Place}

theorem fits_magic {v : BitVec 16} : fits term p (.magic v) ↔ p = .magic := by cases p <;> simp [fits]

theorem fits_extByte {b : Byte} : fits term p (.extByte b) ↔ p = .ext term := by cases p <;> simp [fits]

theorem fits_extTerm : fits term p .extTerm ↔ p = .ext term := by cases p <;> simp [fits]

theorem fits_slotInternal : fits term p .slotInternal ↔ p = .slot := by cases p <;> simp [fits]

theorem fits_slotLeaf {sym : Sym} : fits term p (.slotLeaf sym) ↔ p = .slot := by cases p <;> simp [fits]

theorem fits_code {bits : List Bool} :
    fits term p (.code bits) ↔ ∃ nodes, p = .code nodes ∧ codeWidth nodes 0 bits = .ok bits.length := by
  cases p <;> simp [fits]

theorem fits_pad {bits : List Bool} : fits term p (.pad bits) ↔ p = .pad := by cases p <;> simp [fits]

end

/-! ### The decoder on an encoding -/

/-- A field in front of other bits is read back whole. -/
theorem ofBits_take_bitsMsb_append {n : Nat} (v : BitVec n) (rest : List Bool) :
    ofBits n ((bitsMsb v ++ rest).take n) = v := by
  rw [List.take_left' (bitsMsb_length v), ofBits_bitsMsb]

theorem drop_bitsMsb_append {n : Nat} (v : BitVec n) (rest : List Bool) : (bitsMsb v ++ rest).drop n = rest :=
  List.drop_left' (bitsMsb_length v)

theorem le_length_bitsMsb_append {n : Nat} (v : BitVec n) (rest : List Bool) : n ≤ (bitsMsb v ++ rest).length := by
  simp [bitsMsb_length]

theorem decodeToken_magic (v : BitVec 16) (rest : List Bool) :
    decodeToken .magic (bitsMsb v ++ rest) = .ok (.magic v, rest) := by
  rw [decodeToken, if_pos (le_length_bitsMsb_append v rest), ofBits_take_bitsMsb_append, drop_bitsMsb_append]

theorem decodeToken_ext (term b : Byte) (rest : List Bool) :
    decodeToken (.ext term) (bitsMsb b ++ rest) = .ok (if b = term then .extTerm else .extByte b, rest) := by
  rw [decodeToken, if_pos (le_length_bitsMsb_append b rest), ofBits_take_bitsMsb_append, drop_bitsMsb_append]

theorem decodeToken_slotLeaf (sym : Sym) (rest : List Bool) :
    decodeToken .slot (true :: (bitsMsb sym ++ rest)) = .ok (.slotLeaf sym, rest) := by
  rw [decodeToken, if_pos (le_length_bitsMsb_append sym rest), ofBits_take_bitsMsb_append, drop_bitsMsb_append]

/-- A code word is found among more bits, since the walk ends at its leaf (30_encoding.md R102, R106). -/
theorem decodeToken_code {nodes : Vector Node 513} {bits : List Bool} (hc : codeWidth nodes 0 bits = .ok bits.length)
    (hl : bits.length ≤ 256) (rest : List Bool) :
    decodeToken (.code nodes) (bits ++ rest) = .ok (.code bits, rest) := by
  have hw : codeWidth nodes 0 ((bits ++ rest).take 256) = .ok bits.length := by
    rw [List.take_append, List.take_of_length_le hl]
    exact codeWidth_append nodes _ 0 bits _ hc
  rw [decodeToken, hw]
  simp

theorem decodeToken_encode {term : Byte} {p : Place} {i : Instr} {bits : List Bool} (hw : i.wellFormed term = true)
    (hf : fits term p i) (he : encode term i = .bits bits) (hp : ∀ l, i ≠ .pad l) (rest : List Bool) :
    decodeToken p (bits ++ rest) = .ok (i, rest) := by
  cases i with
  | nop | encStart | decStart | sinkOk | stop | clear => cases he
  | magic v =>
    cases he
    rw [fits_magic.1 hf, decodeToken_magic]
  | extByte b =>
    cases he
    rw [fits_extByte.1 hf, decodeToken_ext, if_neg (of_decide_eq_true hw)]
  | extTerm =>
    cases he
    rw [fits_extTerm.1 hf, decodeToken_ext, if_pos rfl]
  | slotInternal =>
    cases he
    rw [fits_slotInternal.1 hf]
    rfl
  | slotLeaf sym =>
    cases he
    rw [fits_slotLeaf.1 hf]
    exact decodeToken_slotLeaf sym rest
  | code l =>
    cases he
    obtain ⟨nodes, rfl, hc⟩ := fits_code.1 hf
    obtain ⟨_, hl⟩ := of_decide_eq_true hw
    exact decodeToken_code hc hl rest
  | pad l => exact absurd rfl (hp l)

theorem decode_encode {term : Byte} {p : Place} {i : Instr} (hw : i.wellFormed term = true) (hf : fits term p i) :
    decode p (encode term i) = .ok (i, []) := by
  cases he : encode term i with
  | word w => rw [decode, decodeCommand_encode hw he]
  | bits l =>
    by_cases hp : ∃ l, i = .pad l
    · -- PAD is the one token that takes all bits left (R103).
      obtain ⟨l', rfl⟩ := hp
      cases he
      rw [fits_pad.1 hf, decode, decodeToken, if_pos (of_decide_eq_true hw)]
    · have h := decodeToken_encode hw hf he (fun l e => hp ⟨l, e⟩) []
      rwa [List.append_nil] at h

/-- Settles O2: the whole encoding by `decode_encode`, a token among more bits by `decodeToken_encode`. -/
theorem decodingAnEncodingGivesItBack : Obligations.DecodingAnEncodingGivesItBack :=
  fun _ _ _ hw hf => ⟨decode_encode hw hf, fun _ rest he hp => decodeToken_encode hw hf he hp rest⟩

/-! ### The encoding of what is decoded -/

/-- The bits taken for a field are the field's, and the others are the rest. -/
theorem bitsMsb_ofBits_append_drop {n : Nat} {l : List Bool} (h : n ≤ l.length) :
    bitsMsb (ofBits n (l.take n)) ++ l.drop n = l := by
  rw [bitsMsb_ofBits _ (List.length_take_of_le h), List.take_append_drop]

/-- What a run of bits is decoded to is well-formed, and its encoding is the bits taken. -/
theorem encode_of_decodeToken {term : Byte} {p : Place} {bits rest : List Bool} {i : Instr}
    (ht : ∀ t, p = .ext t → t = term) (h : decodeToken p bits = .ok (i, rest)) :
    i.wellFormed term = true ∧ ∃ enc, encode term i = .bits enc ∧ enc ++ rest = bits := by
  cases p with
  | magic =>
    rw [decodeToken] at h
    split at h <;> cases h
    next hl => exact ⟨rfl, _, rfl, bitsMsb_ofBits_append_drop hl⟩
  | ext t =>
    obtain rfl := ht t rfl
    rw [decodeToken] at h
    split at h <;> cases h
    next hl =>
      split
      next hb => exact ⟨rfl, _, rfl, hb ▸ bitsMsb_ofBits_append_drop hl⟩
      next hb => exact ⟨decide_eq_true hb, _, rfl, bitsMsb_ofBits_append_drop hl⟩
  | slot =>
    match bits with
    | [] => cases h
    | false :: tail =>
      cases h
      exact ⟨rfl, _, rfl, rfl⟩
    | true :: tail =>
      rw [decodeToken] at h
      split at h <;> cases h
      next hl => exact ⟨rfl, _, rfl, congrArg (true :: ·) (bitsMsb_ofBits_append_drop hl)⟩
  | code nodes =>
    rw [decodeToken] at h
    split at h <;> cases h
    next n hn =>
      obtain ⟨h1, h2, _⟩ := codeWidth_ok nodes 0 _ n hn
      rw [List.length_take] at h2
      have hlen : (bits.take n).length = n := List.length_take_of_le (by omega)
      exact ⟨decide_eq_true ⟨by omega, by omega⟩, _, rfl, List.take_append_drop n bits⟩
  | pad =>
    rw [decodeToken] at h
    split at h <;> cases h
    next hl => exact ⟨decide_eq_true hl, _, rfl, List.append_nil bits⟩

/-- Settles O3: a command by `encode_of_decodeCommand`, a token by `encode_of_decodeToken`. -/
theorem whatDecodesIsItsEncoding : Obligations.WhatDecodesIsItsEncoding :=
  ⟨fun term _ _ h => encode_of_decodeCommand term h, fun _ _ _ _ _ ht h => encode_of_decodeToken ht h⟩

/-! ### Encodings written out -/

/-- Settles O1, by running the decoder. -/
theorem writtenOutWordsDecode : Obligations.WrittenOutWordsDecode := by
  unfold Obligations.WrittenOutWordsDecode
  decide

end Sys2Proof.Machine
end

section
/-!
PROOFS. Legal and illegal command words (30_encoding.md R92, R94): the rejection of a command that is not legal in the
current PHASE, and the execution of one that is.
-/

namespace Sys2Proof.Machine

/-! ### Legality by instruction -/

/-- CLEAR is legal in the phases that are not running (30_encoding.md R92). -/
theorem legalCommand_clear (p : Phase) : legalCommand 5 0 p = !phaseRunning p := by cases p <;> rfl

theorem illegalWord_clear (p : Phase) : illegalWord (commandWord 5 0) p = phaseRunning p := by
  rw [illegalWord_commandWord]
  exact (congrArg (!·) (legalCommand_clear p)).trans (Bool.not_not _)

/-- A command whose word is illegal in the current PHASE rejects that word (30_encoding.md R94). -/
theorem exec_of_illegalWord {term : Byte} {i : Instr} {w : Word} {s : State} (hw : illegalWord w s.phase = true)
    (he : encode term i = .word w) : exec i s = .next (reject w s) := by
  cases i with
  | magic | extByte | extTerm | slotInternal | slotLeaf | code | pad => cases he
  | nop =>
    cases he
    rw [illegalWord_commandWord] at hw
    cases hw
  | encStart | decStart | sinkOk =>
    cases he
    rw [illegalWord_commandWord] at hw
    exact if_neg (by simpa [legalCommand] using hw)
  | stop arg =>
    cases he
    rw [illegalWord_commandWord, Bool.not_eq_true'] at hw
    rw [exec, execStop, (stopCause_none arg s.phase).2 hw, rejectCommand]
  | clear =>
    cases he
    exact if_pos (illegalWord_clear s.phase ▸ hw)

/-- A word that is no instruction is illegal in every phase (30_encoding.md R94). -/
theorem illegalWord_of_decodeCommand_error {w : Word} {e : DecodeError} (h : decodeCommand w = .error e) (p : Phase) :
    illegalWord w p = true := by
  obtain ⟨op, arg, rfl⟩ | h16 := word_cases w
  · rw [decodeCommand_commandWord] at h
    rw [illegalWord_commandWord, Bool.not_eq_true']
    split_ifs at h with h4 hr h5 ha
    · subst h4
      have hn : arg.toNat ≠ 0 ∧ arg.toNat ≠ 1 ∧ arg.toNat ≠ 2 := by omega
      simp [legalCommand, hn]
    · exact legalCommand_reserved h5
    · have hn : arg.toNat ≠ 0 := fun h0 => ha (BitVec.eq_of_toNat_eq h0)
      rcases opcode_cases op with rfl | rfl | rfl | rfl | rfl | rfl | h
      · simp [legalCommand, hn]
      · simp [legalCommand, hn]
      · simp [legalCommand, hn]
      · simp [legalCommand, hn]
      · exact absurd rfl h4
      · simp [legalCommand, hn]
      · exact absurd h h5
  · simp [illegalWord, big_of_zeroField w h16]

theorem commandWrite_of_illegalWord {w : Word} {s : State} (hw : illegalWord w s.phase = true) :
    commandWrite w s = .next (reject w s) := by
  cases hd : decodeCommand w with
  | ok i =>
    obtain ⟨_, he⟩ := encode_of_decodeCommand 0 hd
    rw [commandWrite, hd]
    exact exec_of_illegalWord hw he
  | error e => rw [commandWrite, hd]

/-- Settles O4: the written word and the instruction itself both lead to `reject`. -/
theorem illegalWordsAreRejected : Obligations.IllegalWordsAreRejected :=
  fun _ _ hw => ⟨commandWrite_of_illegalWord hw, fun _ _ he => exec_of_illegalWord hw he⟩

/-! ### Legal words -/

/-- CLEAR where it is legal (48_host_commands.md R265). -/
theorem exec_clear_of_legal {w : Word} {s : State} (hw : illegalWord w s.phase = false)
    (hd : decodeCommand w = .ok .clear) : exec .clear s = .next (returnToIdle s) := by
  obtain ⟨_, he⟩ := encode_of_decodeCommand 0 hd
  cases he
  rw [illegalWord_clear] at hw
  rw [exec, execClear, hw]
  rfl

/-- Settles O5: what a written word may change is said by `Commanded`. -/
theorem legalWordsAreExecuted : Obligations.LegalWordsAreExecuted := by
  intro w s hw
  have legal : ¬ illegalWord w s.phase = true := Bool.eq_false_iff.1 hw
  cases hd : decodeCommand w with
  | error e => exact absurd (illegalWord_of_decodeCommand_error hd s.phase) legal
  | ok i =>
    have hx : commandWrite w s = exec i s := by rw [commandWrite, hd]
    obtain ⟨t, ht, hc⟩ := commandWrite_commanded w s
    obtain ⟨hbad, herr⟩ := hc.badCmd_cmderr
    rw [hx] at ht
    refine ⟨i, t, rfl, hx, ht, ?badCmd, ?other, ?clear⟩
    case badCmd => exact by_contra fun hn => legal (hbad hn).1
    case other =>
      refine fun hi => by_contra fun hn => (herr hn).elim legal fun h5 => hi ?_
      subst h5
      cases hd
      rfl
    case clear =>
      rintro rfl
      rw [exec_clear_of_legal hw hd] at ht
      cases ht
      rfl

end Sys2Proof.Machine
end

section
/-!
PROOFS. Where a token has a meaning (30_encoding.md R96, R106): the places of the decoder by its registers, and that no
token's own action refuses, so that a refusal is only for the place.
-/

namespace Sys2Proof.Machine

/-! ### Where the decoder stands -/

section
variable {s : State}

theorem placeOf_eq_magic : placeOf s = some .magic ↔ s.phase = .decMagic ∧ s.dec.magN = 0 := by
  unfold placeOf
  cases s.phase <;> simp

theorem placeOf_eq_ext : placeOf s = some (.ext s.termReg) ↔ s.phase = .decExt := by
  unfold placeOf
  cases s.phase <;> simp

theorem placeOf_eq_slot : placeOf s = some .slot ↔ s.phase = .decDict ∧ s.dec.dstate = .mark := by
  unfold placeOf
  cases s.phase <;> simp

theorem placeOf_eq_code {nodes : Vector Node 513} :
    placeOf s = some (.code nodes) ↔ s.phase = .decPayload ∧ s.dec.cur = 0 ∧ s.tree.node = nodes := by
  unfold placeOf
  cases s.phase <;> simp

/-- The rest of a byte is dropped in DONE, where no input is accepted (47_decoder.md R244). -/
theorem placeOf_ne_pad (ha : phaseAccepts s.phase = true) : placeOf s ≠ some .pad := by
  unfold placeOf
  cases hp : s.phase with
  | done => simp [hp, phaseAccepts] at ha
  | _ => simp

end

/-- A code word is a run of bits as wide as the walk down to its leaf. -/
theorem isCode_iff {nodes : Vector Node 513} {bits : List Bool} :
    isCode nodes bits = true ↔ codeWidth nodes 0 bits = .ok bits.length := by
  unfold isCode
  cases codeWidth nodes 0 bits <;> simp

/-! ### The tokens' own actions do not refuse -/

theorem Flow.bind_ne_refuse {m : Flow} {f : State → Flow} {r : Refusal} (hm : m ≠ .refuse r)
    (hf : ∀ s, f s ≠ .refuse r) : m.bind f ≠ .refuse r := by
  cases m with
  | go s => exact hf s
  | ended | stop => exact nofun
  | refuse => exact hm

theorem Flow.ne_refuse_of_runs {m : Flow} {G E : State → Prop} (h : m.runs G E) (r : Refusal) : m ≠ .refuse r := by
  rintro rfl
  exact h

section
variable (s : State) (r : Refusal)

theorem takeMagic_ne_refuse (v : BitVec 16) : takeMagic v s ≠ .refuse r := by
  unfold takeMagic
  dsimp only
  split <;> exact nofun

theorem extAppend_ne_refuse (b : Byte) : extAppend b s ≠ .refuse r := by
  unfold extAppend
  split <;> exact nofun

theorem pushSlot_ne_refuse (sym : Option Sym) : pushSlot sym s ≠ .refuse r := by
  unfold pushSlot
  split <;> exact nofun

theorem deriveStep_ne_refuse : deriveStep s ≠ .refuse r := by
  unfold deriveStep
  split <;> exact nofun

theorem slotCheck_ne_refuse : slotCheck s ≠ .refuse r := by
  unfold slotCheck
  split
  · exact Flow.bind_ne_refuse (Flow.ne_refuse_of_runs (rebuild_runs s) r) fun t =>
      Flow.bind_ne_refuse (deriveStep_ne_refuse t r) fun _ => nofun
  · exact nofun

theorem takeSlot_ne_refuse (sym : Option Sym) : takeSlot sym s ≠ .refuse r :=
  Flow.bind_ne_refuse (pushSlot_ne_refuse s r sym) fun t => slotCheck_ne_refuse t r

theorem leafReached_ne_refuse (sym : Sym) : leafReached sym s ≠ .refuse r := by
  unfold leafReached
  split <;> exact nofun

theorem takeCode_ne_refuse (bits : List Bool) : takeCode bits s ≠ .refuse r := by
  unfold takeCode
  split
  · exact nofun
  · split
    · exact leafReached_ne_refuse _ r _
    all_goals exact nofun

end

/-! ### The refusal out of place -/

/-- While input is accepted, a token whose own action does not refuse is refused exactly where its condition fails. -/
theorem tokenAt_refused_iff {s : State} {c P : Prop} [Decidable c] {act : State → Flow}
    (ha : phaseAccepts s.phase = true) (hact : act s ≠ .refuse .tokenOutOfPlace) (hc : c ↔ P) :
    tokenAt (decide c) act s = .refused .tokenOutOfPlace ↔ ¬ P := by
  rw [tokenAt, if_neg (by rw [ha]; exact nofun), ← hc]
  by_cases h : c
  · rw [if_pos (decide_eq_true h)]
    refine iff_of_false ?_ (not_not_intro h)
    cases hm : act s with
    | go | ended | stop => exact nofun
    | refuse r =>
      rintro ⟨⟩
      exact hact hm
  · rw [if_neg (by simpa using h)]
    exact iff_of_true rfl h

/-- Settles O21: each token goes by `tokenAt`, and its condition says that the decoder stands at the token's place. -/
theorem tokensHaveMeaningAtTheirPlaceOnly : Obligations.TokensHaveMeaningAtTheirPlaceOnly := by
  intro s i ha hw hi
  cases i with
  | nop | encStart | decStart | sinkOk | stop | clear => exact absurd rfl (hi _)
  | magic v =>
    refine tokenAt_refused_iff ha (takeMagic_ne_refuse s _ v) ?_
    simp only [fits_magic, exists_eq_right, placeOf_eq_magic]
  | extByte b =>
    refine tokenAt_refused_iff ha (extAppend_ne_refuse s _ b) ?_
    simp only [fits_extByte, exists_eq_right, placeOf_eq_ext]
    exact and_iff_left (of_decide_eq_true hw)
  | extTerm =>
    refine tokenAt_refused_iff (act := fun t => .go (extEnd t)) ha nofun ?_
    simp only [fits_extTerm, exists_eq_right, placeOf_eq_ext]
  | slotInternal =>
    refine tokenAt_refused_iff ha (takeSlot_ne_refuse s _ none) ?_
    simp only [fits_slotInternal, exists_eq_right, placeOf_eq_slot]
  | slotLeaf sym =>
    refine tokenAt_refused_iff ha (takeSlot_ne_refuse _ _ (some sym)) ?_
    simp only [fits_slotLeaf, exists_eq_right, placeOf_eq_slot]
  | code bits =>
    refine tokenAt_refused_iff ha (takeCode_ne_refuse s _ bits) ?_
    rw [isCode_iff]
    constructor
    · rintro ⟨hp, hcur, hc⟩
      exact ⟨_, placeOf_eq_code.2 ⟨hp, hcur, rfl⟩, fits_code.2 ⟨_, rfl, hc⟩⟩
    · rintro ⟨_, hplace, hf⟩
      obtain ⟨nodes, rfl, hc⟩ := fits_code.1 hf
      obtain ⟨hp, hcur, rfl⟩ := placeOf_eq_code.1 hplace
      exact ⟨hp, hcur, hc⟩
  | pad bits =>
    refine tokenAt_refused_iff (c := False) ha nofun ?_
    simp only [fits_pad, exists_eq_right, placeOf_ne_pad ha]

end Sys2Proof.Machine
end

section
/-!
PROOFS. The BitPacker (40_bitpacker.md R120 to R126): what one put_bit does, the count of the bits, the pad of the flush.
-/

namespace Sys2Proof.Machine

/-! ### One bit -/

section
variable {o : Output} (b : Bool)

theorem putBit_of_not_full (h : o.nb ≠ 7) :
    putBit b o = { o with acc := o.acc.shiftConcat b, nb := o.nb + 1 } := if_neg h

theorem putBit_of_full (h : o.nb = 7) :
    putBit b o = { o with acc := 0, nb := 0, seq := o.seq ++ [o.acc.shiftConcat b], cnt := o.cnt + 1 } := if_pos h

end

/-- Settles O22: the accumulator has room for the bit since it holds at most seven. -/
theorem putBitPacksMsbFirst : Obligations.PutBitPacksMsbFirst := by
  intro b o h
  have hval := shiftConcat_toNat b (packerOk_acc h)
  refine ⟨(putBit_spec b h).1, fun hlt => ?_, fun hfull => ?_⟩
  · have hnb : o.nb ≠ 7 := fun e => Nat.ne_of_lt hlt (congrArg BitVec.toNat e)
    rw [putBit_of_not_full b hnb]
    exact ⟨hval, rfl⟩
  · exact ⟨o.acc.shiftConcat b, hval, putBit_of_full b (BitVec.eq_of_toNat_eq hfull)⟩

/-! ### The flush -/

section
variable {o : Output}

theorem bpFlush_of_empty (h : o.nb = 0) : bpFlush o = o := if_pos h

theorem bpFlush_of_pending (h : o.nb ≠ 0) :
    bpFlush o = { o with acc := 0, nb := 0, seq := o.seq ++ [o.acc <<< (8 - o.nb.toNat)], cnt := o.cnt + 1 } := if_neg h

theorem pendingBits_getElem {i : Nat} (h : i < (pendingBits o).length) :
    (pendingBits o)[i] = o.acc.getLsbD (o.nb.toNat - 1 - i) := by simp [pendingBits]

end

/-- Shifted up by the bits that are missing, the accumulator has its pending bits on top and zeros below them. -/
theorem getMsbD_padded (o : Output) (i : Nat) :
    (o.acc <<< (8 - o.nb.toNat)).getMsbD i = (decide (i < o.nb.toNat) && o.acc.getLsbD (o.nb.toNat - 1 - i)) := by
  have hn := o.nb.isLt
  have hlt : i + (8 - o.nb.toNat) < 8 ↔ i < o.nb.toNat := by omega
  have hidx : 8 - 1 - (i + (8 - o.nb.toNat)) = o.nb.toNat - 1 - i := by omega
  rw [BitVec.getMsbD_shiftLeft, BitVec.getMsbD, hidx, decide_eq_decide.2 hlt]

theorem bitsOf_padded (o : Output) :
    bitsOf (o.acc <<< (8 - o.nb.toNat)) = pendingBits o ++ List.replicate (8 - o.nb.toNat) false := by
  have hn := o.nb.isLt
  apply List.ext_getElem
  · rw [bitsOf_length, List.length_append, pendingBits_length, List.length_replicate]
    omega
  · intro i _ _
    rw [bitsOf_getElem, getMsbD_padded, List.getElem_append]
    split
    · next hp =>
      rw [pendingBits_length] at hp
      rw [pendingBits_getElem, decide_eq_true hp, Bool.true_and]
    · next hp =>
      rw [pendingBits_length] at hp
      rw [List.getElem_replicate, decide_eq_false hp, Bool.false_and]

/-- Settles O24: the byte is the accumulator shifted up by the missing bits. -/
theorem flushPadsWithZeros : Obligations.FlushPadsWithZeros :=
  fun o _ => ⟨bpFlush_of_empty, fun h => ⟨_, bitsOf_padded o, bpFlush_of_pending h⟩⟩

/-! ### The count of the bits -/

theorem packerOk_of_empty {o : Output} (ha : o.acc = 0) (hn : o.nb = 0) : packerOk o := by
  simp [packerOk, ha, hn]

theorem writtenBits_of_empty {o : Output} (hn : o.nb = 0) (hs : o.seq = []) : writtenBits o = [] := by
  simp [writtenBits, pendingBits_empty hn, hs]

/-- Settles O23: the bits written are eight for each byte and NB more, and NB is below 8. -/
theorem theBitCountLaw : Obligations.TheBitCountLaw := by
  intro bits o ha hn hs
  obtain ⟨hok, hbits⟩ := putAll_spec bits (packerOk_of_empty ha hn)
  rw [writtenBits_of_empty hn hs, List.nil_append] at hbits
  have hlen := writtenBits_length (putAll bits o)
  rw [hbits] at hlen
  have hlt := (putAll bits o).nb.isLt
  refine ⟨by omega, by omega, hbits, ?_⟩
  obtain ⟨-, -, -, -, -, hflush⟩ := bpFlush_spec (putAll bits o) hok
  rw [hflush]
  split
  · next h0 =>
    have hzero : (putAll bits o).nb.toNat = 0 := congrArg BitVec.toNat h0
    omega
  · next h0 =>
    have hpos := BitVec.toNat_pos_of_ne_zero h0
    omega

end Sys2Proof.Machine
end

section
/-!
PROOFS. The priority queue (42_priority_queue.md R147 to R149, R152): `less` compares weights, an insertion is one
sift-up and a removal one sift-down. The order is kept because an ordered heap with a new entry at its end, or with another entry at
its root, is what the two sifts put in order again.
-/

namespace Sys2Proof.Machine

theorem less_iff_lt (x y : Entry) : less x y = true ↔ x.weight < y.weight := decide_eq_true_iff

/-- Settles O25: `less` is the strict order of the weights, and that order is irreflexive. -/
theorem tiesAreNeverLess : Obligations.TiesAreNeverLess := by
  intro x y
  refine ⟨less_iff x y, fun hw => ?_⟩
  simp only [Bool.eq_false_iff, ne_eq, less_iff, hw, lt_irrefl, not_false_eq_true, and_self]

theorem heapWeight_set (h : Vector Entry 257) (i k : Nat) (e : Entry) (hi : 1 ≤ i) (hi' : i ≤ 257) (hk : 1 ≤ k) :
    heapWeight (h.setIfInBounds (i - 1) e) k = if k = i then e.weight.toNat else heapWeight h k := by
  rw [heapWeight, heapAt_set h i k e hi hi' hk, apply_ite Entry.weight, apply_ite BitVec.toNat, heapWeight]

/-! ### insert -/

/-- What an insertion that succeeds has done to HEAP (R148). -/
theorem pqInsert_inv {e : Entry} {q p : Queue} (hp : pqInsert e q = some p) :
    q.hn.toNat < 257 ∧
      p.heap = siftUp (q.hn.toNat + 1) (q.heap.setIfInBounds q.hn.toNat e) (q.hn.toNat + 1) := by
  rw [pqInsert] at hp
  split at hp
  · next hroom =>
    cases hp
    exact ⟨hroom, rfl⟩
  · cases hp

/-- An entry put at the end of an ordered heap is the only one that may be lighter than its parent. -/
theorem upOk_of_append {h : Vector Entry 257} {n : Nat} (e : Entry) (hn : n < 257) (ho : orderedUpTo h n) :
    upOk (h.setIfInBounds n e) (n + 1) (n + 1) := by
  have hset := fun k hk => heapWeight_set h (n + 1) k e (by omega) (by omega) hk
  simp only [Nat.add_sub_cancel] at hset
  constructor
  · intro k hk hkn hne
    rw [hset k (by omega), hset (k / 2) (by omega), if_neg hne, if_neg (by omega)]
    exact ho k hk (by omega)
  · intro k _ hkn hpar
    omega

theorem pqInsert_ordered {e : Entry} {q p : Queue} (hp : pqInsert e q = some p)
    (hn : p.hn.toNat = q.hn.toNat + 1) (ho : heapOrdered q) : heapOrdered p := by
  obtain ⟨hroom, hheap⟩ := pqInsert_inv hp
  rw [heapOrdered_iff] at ho ⊢
  rw [hn, hheap]
  exact (siftUp_spec _ hroom _ _ _ (by omega) (Nat.le_refl _) (Nat.le_refl _)).2 (upOk_of_append e hroom ho)

theorem siftUp_of_not_lighter {h : Vector Entry 257} {i : Nat} (fuel : Nat)
    (hs : i ≤ 1 ∨ ¬ (heapAt h i).weight < (heapAt h (i / 2)).weight) : siftUp fuel h i = h := by
  cases fuel with
  | zero => rfl
  | succ fuel =>
    rw [siftUp, if_neg]
    rintro ⟨hi, hl⟩
    rw [less_iff_lt] at hl
    rcases hs with hs | hs
    · omega
    · exact hs hl

theorem pqInsert_heap_of_not_lighter {e : Entry} {q p : Queue} (hp : pqInsert e q = some p)
    (hs : q.hn = 0 ∨ ¬ e.weight < (heapAt q.heap ((q.hn.toNat + 1) / 2)).weight) :
    p.heap = q.heap.setIfInBounds q.hn.toNat e := by
  obtain ⟨hroom, hheap⟩ := pqInsert_inv hp
  have hset := fun k hk => heapAt_set q.heap (q.hn.toNat + 1) k e (by omega) (by omega) hk
  simp only [Nat.add_sub_cancel] at hset
  rw [hheap]
  apply siftUp_of_not_lighter
  by_cases h0 : q.hn.toNat = 0
  · exact .inl (by omega)
  · have hne : ¬ q.hn = 0 := fun h => h0 (congrArg BitVec.toNat h)
    rw [hset _ (by omega), if_pos rfl, hset _ (by omega), if_neg (by omega)]
    exact .inr (hs.resolve_left hne)

/-- Settles O26: an insertion appends the entry and sifts it up. -/
theorem insertKeepsTheHeapOrder : Obligations.InsertKeepsTheHeapOrder := by
  intro q e hroom
  obtain ⟨p, hp, hn, hperm, -⟩ := pqInsert_entries e q hroom
  obtain ⟨p', hp', hpath⟩ := pqInsert_path e q hroom
  obtain rfl : p = p' := Option.some.inj (hp.symm.trans hp')
  rw [heapEntries_eq_take _ (by omega), heapEntries_eq_take _ (by omega)] at hperm
  refine ⟨p, hp, hn, pqInsert_ordered hp hn, hperm, ?_, ?_⟩
  · rwa [hn]
  · rw [hn]
    exact pqInsert_heap_of_not_lighter hp

/-! ### removeMin -/

/-- What a removal that succeeds has done to HEAP (R149). -/
theorem removeMin_inv {q p : Queue} {e : Entry} (hp : removeMin q = some (e, p)) :
    1 ≤ q.hn.toNat ∧ q.hn.toNat ≤ 257 ∧
      p.heap = siftDown q.hn.toNat (q.heap.setIfInBounds 0 (heapAt q.heap q.hn.toNat)) (q.hn.toNat - 1) 1 := by
  simp only [removeMin] at hp
  split at hp
  · next hsize =>
    obtain ⟨h1, h2⟩ := hsize
    cases hp
    exact ⟨h1, h2, rfl⟩
  · cases hp

theorem heapAt_setRoot (h : Vector Entry 257) (k : Nat) (e : Entry) (hk : 1 ≤ k) :
    heapAt (h.setIfInBounds 0 e) k = if k = 1 then e else heapAt h k :=
  heapAt_set h 1 k e (by omega) (by omega) hk

/-- Another entry at the root of an ordered heap is the only one that may be heavier than its children. -/
theorem downOk_of_setRoot {h : Vector Entry 257} {n : Nat} (e : Entry) (ho : orderedUpTo h n) :
    downOk (h.setIfInBounds 0 e) (n - 1) 1 := by
  have hset := fun k hk => heapWeight_set h 1 k e (by omega) (by omega) hk
  rw [Nat.sub_self] at hset
  constructor
  · intro k hk hkn hpar
    rw [hset k (by omega), hset (k / 2) (by omega), if_neg (by omega), if_neg (by omega)]
    exact ho k hk (by omega)
  · intro k _ _ _ h2
    omega

theorem removeMin_ordered {q p : Queue} {e : Entry} (hp : removeMin q = some (e, p))
    (hn : p.hn.toNat = q.hn.toNat - 1) (ho : heapOrdered q) : heapOrdered p := by
  obtain ⟨h1, h2, hheap⟩ := removeMin_inv hp
  rw [heapOrdered_iff] at ho ⊢
  rw [hn, hheap]
  exact (siftDown_spec _ (by omega) _ _ _ (Nat.le_refl _) (by omega)).2 (downOk_of_setRoot _ ho)

/-- The root of an ordered heap is the least: the weights do not rise on the way from an index up to it. -/
theorem root_le_of_ordered {h : Vector Entry 257} {n : Nat} (ho : orderedUpTo h n) (i : Nat) (h1 : 1 ≤ i)
    (hi : i ≤ n) : heapWeight h 1 ≤ heapWeight h i := by
  induction i using Nat.strongRecOn with
  | ind i ih =>
    by_cases hroot : i = 1
    · rw [hroot]
    · exact (ih (i / 2) (by omega) (by omega) (by omega)).trans (ho i (by omega) hi)

theorem siftDown_of_not_heavier {h : Vector Entry 257} {n i : Nat} (fuel : Nat)
    (hs : n < 2 * i ∨ ¬ (heapAt h (siftChild h n i)).weight < (heapAt h i).weight) : siftDown fuel h n i = h := by
  cases fuel with
  | zero => rfl
  | succ fuel =>
    rw [siftDown]
    split
    · rfl
    · next hchild => exact if_neg fun hl => hs.resolve_left hchild ((less_iff_lt _ _).1 hl)

theorem removeMin_heap_of_not_heavier {q p : Queue} {e : Entry} (hp : removeMin q = some (e, p))
    (hs : q.hn.toNat - 1 < 2 ∨
      ¬ (heapAt q.heap (siftChild q.heap (q.hn.toNat - 1) 1)).weight < (heapAt q.heap q.hn.toNat).weight) :
    p.heap = q.heap.setIfInBounds 0 (heapAt q.heap q.hn.toNat) := by
  obtain ⟨-, -, hheap⟩ := removeMin_inv hp
  rw [hheap]
  apply siftDown_of_not_heavier
  have hset := fun k hk => heapAt_setRoot q.heap k (heapAt q.heap q.hn.toNat) hk
  have hchild : siftChild (q.heap.setIfInBounds 0 (heapAt q.heap q.hn.toNat)) (q.hn.toNat - 1) 1 =
      siftChild q.heap (q.hn.toNat - 1) 1 :=
    siftPath_congr _ (fun x hx => by rw [hset x (by omega), if_neg (by omega)]) 1
  have hge := siftChild_ge q.heap (q.hn.toNat - 1) 1
  rw [hchild, hset _ (by omega), if_neg (by omega), hset 1 (by omega), if_pos rfl]
  exact hs

theorem siftChild_of_right_lighter {h : Vector Entry 257} {n i : Nat} (hn : 2 * i + 1 ≤ n)
    (hl : (heapAt h (2 * i + 1)).weight < (heapAt h (2 * i)).weight) : siftChild h n i = 2 * i + 1 :=
  if_pos ⟨hn, (less_iff_lt _ _).2 hl⟩

theorem siftChild_of_right_not_lighter {h : Vector Entry 257} {n i : Nat}
    (hl : 2 * i = n ∨ (heapAt h (2 * i)).weight ≤ (heapAt h (2 * i + 1)).weight) : siftChild h n i = 2 * i := by
  refine if_neg ?_
  rintro ⟨hn, hr⟩
  rcases hl with hl | hl
  · omega
  · exact BitVec.not_lt.2 hl ((less_iff_lt _ _).1 hr)

/-- Settles O27: a removal puts the last entry at the root and sifts it down. -/
theorem removeMinReturnsTheLeast : Obligations.RemoveMinReturnsTheLeast := by
  refine ⟨fun q h1 h2 => ?_, fun h n i _ _ => ⟨siftChild_of_right_lighter, siftChild_of_right_not_lighter⟩⟩
  obtain ⟨p, hp, hn, hperm⟩ := removeMin_entries q h1 h2
  obtain ⟨p', hp', hpath⟩ := removeMin_path q h1 h2
  obtain rfl : p = p' := congrArg Prod.snd (Option.some.inj (hp.symm.trans hp'))
  rw [heapEntries_eq_take _ (by omega), heapEntries_eq_take _ h2] at hperm
  refine ⟨p, hp, hn, fun ho => ⟨removeMin_ordered hp hn ho, fun i hi hin => ?_⟩, hperm, ?_, ?_⟩
  · exact root_le_of_ordered ((heapOrdered_iff q).1 ho) i hi hin
  · rwa [hn]
  · rw [hn]
    exact removeMin_heap_of_not_heavier hp

end Sys2Proof.Machine
end

section
/-!
PROOFS. The tree builder (43_tree_builder.md R160 to R172) and what rests on it: an assembled sequence is a finished tree,
a build with a byte counted always gives a sequence that assembles, and so no step stops. Only an input byte could stop:
every other event is answered whatever the state.
-/

namespace Sys2Proof.Machine

/-! ### No step stops -/

/-- A write is answered whatever is written, a word to CMD too (R260). -/
theorem hostWrite_next (a : BitVec 15) (v : Word) (s : State) : ∃ t, hostWrite a v s = .next t := by
  unfold hostWrite
  split
  · exact ⟨_, rfl⟩
  · obtain ⟨t, ht, -⟩ := commandWrite_commanded v { s with reply := .ack }
    exact ⟨t, ht⟩
  · exact ⟨_, rfl⟩

theorem react_next {s : State} {e : HostEvent} (hc : s.canTake e = true) (htally : tallyOk s) (hunits : unitsOk s) :
    ∃ t, react e s = .next t := by
  cases e with
  | read | narrow | outByte | reset => exact ⟨_, rfl⟩
  | write a v => exact hostWrite_next a v s
  | inByte b =>
    obtain ⟨hcounters, hcounts⟩ := htally
    obtain ⟨t, ht, -⟩ := Flow.next_of_runs (inByte_runs b s hcounts hcounters hunits hc)
    exact ⟨t, ht⟩

/-- Settles O60: a step waits or is the reaction to an event that can be taken, and no reaction stops. -/
theorem noStepEverStops : Obligations.NoStepEverStops := by
  intro s hs
  obtain ⟨hcounters, -, -, -, -, -, hcounts, hdecoder, hpayload, hcodes, hpath⟩ := hs
  cases htake : takeEvent s s.events with
  | none => exact ⟨s, step_of_none htake⟩
  | some p =>
    obtain ⟨e, rest⟩ := p
    have hc : ({ s with events := rest } : State).canTake e = true := by
      have := (takeEvent_some htake).1
      cases e <;> exact this
    rw [step_of_takeEvent htake]
    exact react_next hc ⟨hcounters, hcounts⟩ ⟨hdecoder, hpayload, hcodes, hpath⟩

/-! ### The assembly -/

/-- Node k of an assembled sequence is a leaf of `sym` exactly where entry k is. -/
theorem Assembled.leaf_iff {q : List (Option Sym)} {u : Tree} (a : Assembled q u) (k : Nat) (sym : Sym) :
    q[k]? = some (some sym) ↔ k < q.length ∧ u.node[k]? = some (.leaf sym) := by
  constructor
  · intro h
    obtain ⟨hk, -⟩ := List.getElem?_eq_some_iff.1 h
    exact ⟨hk, a.leaf k sym h⟩
  · rintro ⟨hk, hleaf⟩
    rcases a.node_cases hk with ⟨s, hq, hnode⟩ | ⟨-, c, hnode, -⟩
    · rw [hleaf] at hnode
      cases hnode
      exact hq
    · rw [hleaf] at hnode
      cases hnode

/-- Settles O29: `Assembled` says what the nodes are and counts the leaves. -/
theorem assemblyMakesAFinishedTree : Obligations.AssemblyMakesAFinishedTree := by
  intro q t u hq h
  have a := assemble_true hq h
  have hleaves := a.leaves
  exact ⟨a.finished, a.size, by omega, a.leaf_iff⟩

/-! ### The build -/

theorem presentFrom_pos {freq : Vector Word 257} {s : Nat} (hs : s < 256) (h : freq[s] ≠ 0) :
    1 ≤ presentFrom freq 0 256 := by
  refine List.length_pos_of_mem (a := s) (List.mem_filter.2 ⟨List.mem_range.2 hs, ?_⟩)
  rw [Nat.zero_add, Vector.getElem?_eq_getElem (by omega)]
  exact decide_eq_true h

/-- Below its top the stack's entries are those of PS. -/
theorem stackEntries_getElem? (k : Stack) {i : Nat} (hi : i < k.psn.toNat) : (stackEntries k)[i]? = k.ps[i]? := by
  rw [stackEntries, List.getElem?_take, if_pos hi, Vector.getElem?_toList]

/-- The entries of the pairs below the top, read from PS. -/
theorem pairSums_stackEntries (k : Stack) {j : Nat} (hj : 2 * j ≤ k.psn.toNat) :
    pairSums (stackEntries k) j = (List.range j).map fun i =>
      { weight := (k.ps[2 * i]?.getD default).weight + (k.ps[2 * i + 1]?.getD default).weight, sym := none } := by
  refine List.map_congr_left fun i hi => ?_
  have hij := List.mem_range.1 hi
  rw [stackEntries_getElem? k (by omega), stackEntries_getElem? k (by omega)]

theorem leafEntries_zero (freq : Vector Word 257) :
    leafEntries freq 0 256 = ((List.range 256).filter fun s => freq[s]?.getD 0 ≠ 0).map fun s =>
      { weight := freq[s]?.getD 0, sym := some (BitVec.ofNat 9 s) } := by
  simp only [leafEntries, Nat.zero_add]

/-- The top of a built stack, read from PS: it has no symbol, and the total of the counts as its weight (R163). -/
theorem BuiltFrom.top_entry {freq : Vector Word 257} {k : Stack} (f : BuiltFrom freq k)
    (hn : k.psn.toNat = 2 * presentFrom freq 0 256 + 1) :
    ∃ e, k.ps[k.psn.toNat - 1]? = some e ∧ e.sym = none ∧ e.weight.toNat = (byteCount freq + 1) % 2 ^ 32 ∧
      (byteCount freq < 2 ^ 32 - 1 → e.weight.toNat = byteCount freq + 1) := by
  obtain ⟨w, htop, hw⟩ := f.top
  rw [stackEntries_getElem? k (by omega)] at htop
  refine ⟨_, by rw [hn, Nat.add_sub_cancel]; exact htop, rfl, hw, fun hlt => ?_⟩
  rw [hw, Nat.mod_eq_of_lt (by omega)]

/-- Settles O28: `buildStack_spec` says what the stack holds, and a stack of that shape assembles. -/
theorem theBuildAlwaysSucceeds : Obligations.TheBuildAlwaysSucceeds := by
  rintro freq q k t ⟨s, hs, hcounted⟩
  obtain ⟨p, m, hbuild, hempty, b, f⟩ := buildStack_spec freq q k (presentFrom_pos hs hcounted)
  have hle := presentFrom_le freq 0 256
  have hn : m.psn.toNat = 2 * presentFrom freq 0 256 + 1 := by
    have := b.size
    omega
  have hfits : m.psn.toNat ≤ 513 := by omega
  have hleaves := f.leaves
  have hsums := f.sums
  rw [leafEntries_zero] at hleaves
  rw [pairSums_stackEntries m (by omega), show presentFrom freq 0 256 = m.psn.toNat / 2 by omega] at hsums
  refine ⟨p, m, hbuild, hempty, by rw [hn, presentFrom_all], ?_, hleaves, hsums, f.top_entry hn,
    constructionOrder_eq m hfits, consumed_eq m hfits, b.assembles t, (assembled_built b t).finished⟩
  exact (Vector.getElem?_eq_some_iff.1 b.bottom).2

end Sys2Proof.Machine
end

section
/-!
PROOFS. The code table (44_code_table.md R181 to R187): that a derivation ends, that each code is the walk to a leaf of its
symbol, and that no code begins another one. `visit_spec` and `visit_latest` say what the traversal records; here
they are read at the root, by either reading of R187.
-/

namespace Sys2Proof.Machine

/-! ### The end of the derivation -/

/-- Settles O30: the hypotheses make the tree a `GoodTree`, on which a derivation ends. -/
theorem derivationEndsOnAFinishedTree : Obligations.DerivationEndsOnAFinishedTree := by
  intro t c hfinished hsymbols hleaves
  obtain ⟨d, h⟩ := deriveCodes_good c ⟨hfinished, hsymbols, hleaves⟩
  exact ⟨d, h, deriveCodes_pathLen h⟩

/-- `deriveCodes_good` by either reading of R187. -/
theorem deriveCodesBy_good (byNumber : Bool) {t : Tree} (c : Codes) (g : GoodTree t) :
    ∃ d, deriveCodesBy byNumber t c = some d := by
  obtain ⟨hle, ⟨hroot, -⟩, -⟩ := g.finished
  have hsplit := internalFrom_leaves t hle
  have hleaves := g.leaves
  have hinternal : internalFrom t 0 ≤ 256 := by omega
  refine visit_ends _ t g.finished g.symbols 257 0 _ hroot ?_ ?_
  · exact Nat.lt_succ_of_le hinternal
  · simpa using hinternal

/-! ### What a derived table holds -/

section
variable {byNumber : Bool} {t : Tree} {c d : Codes} {s : Nat}

/-- A symbol of a derived table has no code, or one recorded on a path from the root. -/
theorem deriveCodesBy_recorded (h : deriveCodesBy byNumber t c = some d) (hs : s < 257) :
    d.len[s] = 0 ∨ recorded (fun k sym => higherLeaf t k sym && byNumber) t.node 0 [] d s := by
  obtain ⟨-, -, hcodes⟩ := visit_spec _ t.node 257 0 _ d (by simp) h
  refine (hcodes s hs).imp (fun ⟨hlen, _⟩ => ?_) id
  simpa [hs] using hlen

/-- A code of a derived table is a walk to a leaf of its symbol that does not give way, with zeros after it (R45, R182). -/
theorem deriveCodesBy_code (h : deriveCodesBy byNumber t c = some d) (hs : s < 257) (hlen : d.len[s] ≠ 0) :
    ∃ k, walkTo t.node 0 (codeBitList d.len[s] d.bits[s]) = some k ∧
      t.node[k.toNat]? = some (.leaf (BitVec.ofNat 9 s)) ∧
      (higherLeaf t k (BitVec.ofNat 9 s) && byNumber) = false ∧
      d.len[s].toNat ≤ 256 ∧ ∀ j, d.len[s].toNat ≤ j → d.bits[s].getMsbD j = false := by
  obtain ⟨w, k, n, x, hn, hx, hw, -, hwalk, hleaf, hstays, hle, hzeros⟩ :=
    (deriveCodesBy_recorded h hs).resolve_left hlen
  obtain ⟨_, rfl⟩ := Vector.getElem?_eq_some_iff.1 hn
  obtain ⟨_, rfl⟩ := Vector.getElem?_eq_some_iff.1 hx
  rw [List.nil_append] at hw
  exact ⟨k, hw ▸ hwalk, hleaf, hstays, hle, hzeros⟩

/-- The walk to a leaf that does not give way is its symbol's code or comes before it in the traversal (R187). -/
theorem deriveCodesBy_latest (h : deriveCodesBy byNumber t c = some d) (hs : s < 257) {w : List Bool} {k : NodeIx}
    (hwalk : walkTo t.node 0 w = some k) (hleaf : t.node[k.toNat]? = some (.leaf (BitVec.ofNat 9 s)))
    (hstays : (higherLeaf t k (BitVec.ofNat 9 s) && byNumber) = false) :
    w = codeBitList d.len[s] d.bits[s] ∨ goesBefore w (codeBitList d.len[s] d.bits[s]) := by
  obtain ⟨n, x, w', hn, hx, hw', hbefore⟩ := visit_latest _ t.node 257 0 _ d (by simp) h w k _ hwalk hleaf hstays
  have hsym : (BitVec.ofNat 9 s).toNat = s := by simp; omega
  rw [hsym] at hn hx
  obtain ⟨_, rfl⟩ := Vector.getElem?_eq_some_iff.1 hn
  obtain ⟨_, rfl⟩ := Vector.getElem?_eq_some_iff.1 hx
  have hcode : codeBitList d.len[s] d.bits[s] = w' := hw'
  rwa [hcode]

end

/-! ### The two readings of R187 -/

/-- Where no symbol is repeated no leaf gives way, so the readings agree. -/
theorem deriveCodesBy_of_distinct {t : Tree} (c : Codes)
    (hdistinct : ∀ (i j : Nat) (x : Sym), i < t.nn.toNat → j < t.nn.toNat →
      t.node[i]? = some (.leaf x) → t.node[j]? = some (.leaf x) → i = j) :
    deriveCodesBy true t c = deriveCodesBy false t c := by
  refine visit_congr t.node (fun k sym hk => ?_) 257 0 _
  have hnone : higherLeaf t k sym = false := higherLeaf_eq_false.2 fun i hki hi hsame => by
    have := hdistinct k.toNat i sym (by omega) hi hk hsame
    omega
  simp [hnone]

/-! ### The table of an assembled tree -/

theorem not_goesBefore_nil (w : List Bool) : ¬ goesBefore w [] := by
  rintro ⟨p, r, r', -, h⟩
  simp at h

section
variable {q : List (Option Sym)} {u : Tree} {byNumber : Bool} {c d : Codes} {s : Nat}

/-- The symbol of a leaf gets a code: its highest leaf does not give way by either reading, and is not the root (R183). -/
theorem Assembled.len_ne_zero (a : Assembled q u) (h : deriveCodesBy byNumber u c = some d) (hs : s < 257)
    (hmem : some (BitVec.ofNat 9 s) ∈ q) : d.len[s] ≠ 0 := by
  obtain ⟨i, hi, hhighest⟩ := a.highestLeaf hmem
  obtain ⟨hlt, hleaf⟩ := (a.leaf_iff i _).1 hi
  obtain ⟨w, hwalk, hne⟩ := a.reachable i hlt
  have hpos : 1 ≤ i := Nat.pos_of_ne_zero fun h0 => by
    subst h0
    rw [a.root] at hi
    cases hi
  have hix : (BitVec.ofNat 10 i).toNat = i := by
    have := a.fits
    simp
    omega
  have hlatest := deriveCodesBy_latest h hs hwalk (hix.symm ▸ hleaf) (by rw [hhighest, Bool.false_and])
  intro hzero
  have hempty : codeBitList d.len[s] d.bits[s] = [] := by simp [codeBitList, hzero]
  rw [hempty] at hlatest
  exact hne hpos (hlatest.resolve_right (not_goesBefore_nil w))

/-- A symbol with a code is that of a leaf (R183). -/
theorem Assembled.mem_of_len_ne_zero (a : Assembled q u) (h : deriveCodesBy byNumber u c = some d) (hs : s < 257)
    (hlen : d.len[s] ≠ 0) : some (BitVec.ofNat 9 s) ∈ q := by
  obtain ⟨k, hwalk, hleaf, -⟩ := deriveCodesBy_code h hs hlen
  exact List.mem_of_getElem? ((a.leaf_iff k.toNat _).2 ⟨a.walk_lt hwalk, hleaf⟩)

end

/-- Settles O31: a code is a walk by `deriveCodesBy_code`, the last one by `deriveCodesBy_latest`, and an assembled tree
meets `GoodTree`. -/
theorem codesArePathsToTheirLeaves : Obligations.CodesArePathsToTheirLeaves := by
  refine ⟨fun _ _ => rfl, fun byNumber t c d h s hs => ⟨fun hlen => ?_, ?_⟩,
    fun t c hdistinct => deriveCodesBy_of_distinct c hdistinct, fun byNumber q t u c hq h hsymbols => ?_⟩
  · obtain ⟨k, hwalk, hleaf, hstays, hle, hzeros⟩ := deriveCodesBy_code h hs hlen
    refine ⟨⟨k, hwalk, hleaf, ?_⟩, hle, hzeros⟩
    rintro rfl
    rw [Bool.and_true] at hstays
    exact higherLeaf_eq_false.1 hstays
  · rintro rfl w k hwalk hleaf
    exact deriveCodesBy_latest h hs hwalk hleaf (Bool.and_false _)
  · have a := assemble_true hq h
    obtain ⟨d, hd⟩ := deriveCodesBy_good byNumber c (a.goodTree hsymbols)
    refine ⟨d, hd, fun s hs => ⟨fun hmem => ?_, fun hnot => ?_⟩⟩
    · have hlen := a.len_ne_zero hd hs hmem
      obtain ⟨-, -, -, -, hle, -⟩ := deriveCodesBy_code hd hs hlen
      exact ⟨Nat.pos_of_ne_zero fun h0 => hlen (BitVec.eq_of_toNat_eq h0), hle⟩
    · by_contra hlen
      exact hnot (a.mem_of_len_ne_zero hd hs hlen)

/-! ### No code begins another one -/

/-- A walk stops at a leaf: no walk to a leaf goes through another one. -/
theorem eq_of_walkTo_prefix {v : Vector Node 513} {k m n : NodeIx} {w w' : List Bool} {sym : Sym}
    (hm : walkTo v k w = some m) (hn : walkTo v k w' = some n) (hleaf : v[m.toNat]? = some (.leaf sym))
    (hprefix : w <+: w') : m = n := by
  obtain ⟨rest, rfl⟩ := hprefix
  rw [walkTo_append v k m w rest hm] at hn
  cases rest with
  | nil => exact Option.some.inj hn
  | cons b rest =>
    rw [walkTo_leaf hleaf] at hn
    cases hn

/-- Settles O32: codes of which one begins the other lead to one leaf, which has one symbol. -/
theorem theCodeTableIsPrefixFree : Obligations.TheCodeTableIsPrefixFree := by
  intro t c d h a b ha hb hlena hlenb hne hprefix
  obtain ⟨m, hwalkm, hleafm, -⟩ := deriveCodesBy_code h ha hlena
  obtain ⟨n, hwalkn, hleafn, -⟩ := deriveCodesBy_code h hb hlenb
  obtain rfl := eq_of_walkTo_prefix hwalkm hwalkn hleafm hprefix
  have hsym : BitVec.ofNat 9 a = BitVec.ofNat 9 b := by simpa [hleafm] using hleafn
  have : a % 2 ^ 9 = b % 2 ^ 9 := by simpa using congrArg BitVec.toNat hsym
  omega

end Sys2Proof.Machine
end

section
/-!
PROOFS. The slots of the dictionary skeleton (45_skeleton.md R196 to R200): the entry of a slot, the bits it is written
as, how many they are, and what reading one slot does.
-/

namespace Sys2Proof.Machine

/-! ### The entry of a slot, its token and its bits -/

/-- The token of a slot that holds an entry (R99). -/
def slotToken : Option Sym → Instr
  | none => .slotInternal
  | some sym => .slotLeaf sym

/-- The bits of that token (R99). -/
def entryBits : Option Sym → List Bool
  | none => [false]
  | some sym => true :: bitsMsb sym

theorem encode_slotToken (term : Byte) (e : Option Sym) : encode term (slotToken e) = .bits (entryBits e) := by
  cases e <;> rfl

theorem entryBits_length (e : Option Sym) : (entryBits e).length = 1 + 9 * e.isSome.toNat := by
  cases e with
  | none => rfl
  | some sym => simp [entryBits, bitsMsb_length]

/-- The entry that stands for a node of the tree, or for none (R197). -/
def entryOf : Option Node → Option Sym
  | some (.leaf sym) => some sym
  | some .bare | some (.pair _ _) | none => none

/-- The entry of slot `k` (R197). -/
def slotEntry (t : Tree) (k : Nat) : Option Sym := if k < t.nn.toNat then entryOf t.node[k]? else none

/-- The entries of the 513 slots. -/
def slotEntries (t : Tree) : List (Option Sym) := (List.range Config.nslot).map (slotEntry t)

theorem slotBits_eq (t : Tree) (k : Nat) : slotBits t k = entryBits (slotEntry t k) := by
  unfold slotBits slotEntry
  split
  · cases t.node[k]? with
    | none => rfl
    | some n => cases n <;> rfl
  · rfl

theorem skeletonBits_eq (t : Tree) : skeletonBits t = (slotEntries t).flatMap entryBits := by
  rw [skeletonBits, slotEntries, List.flatMap_map, funext (slotBits_eq t)]

theorem slotEntries_length (t : Tree) : (slotEntries t).length = 513 := by
  rw [slotEntries, List.length_map, List.length_range]
  rfl

theorem slotEntries_getElem? (t : Tree) {k : Nat} (h : k < 513) : (slotEntries t)[k]? = some (slotEntry t k) := by
  rw [slotEntries, List.getElem?_map, Config.nslot, List.getElem?_range h, Option.map_some]

/-! ### The size of the skeleton (R198) -/

theorem flatMap_entryBits_length (l : List (Option Sym)) :
    (l.flatMap entryBits).length = l.length + 9 * l.countP Option.isSome := by
  induction l with
  | nil => rfl
  | cons e l ih =>
    rw [List.flatMap_cons, List.length_append, entryBits_length, ih, List.countP_cons, List.length_cons]
    cases e <;> simp <;> omega

theorem entryOf_isSome (n : Node) : (entryOf (some n)).isSome = n.isLeaf := by cases n <;> rfl

/-- The slots with a symbol are those of the tree's leaves. -/
theorem countP_slotEntries {t : Tree} (h : t.nn.toNat ≤ 513) :
    (slotEntries t).countP Option.isSome = leafCount t.node t.nn.toNat := by
  have hnodes : (List.range t.nn.toNat).map (fun k => (slotEntry t k).isSome) =
      (t.node.toList.take t.nn.toNat).map Node.isLeaf := by
    refine List.ext_getElem (by simp [h]) fun k hk _ => ?_
    have hk : k < t.nn.toNat := by simpa using hk
    simp [slotEntry, hk, Vector.getElem?_eq_getElem (show k < 513 by omega), entryOf_isSome]
  have hpadding : ((List.range (513 - t.nn.toNat)).map (t.nn.toNat + ·)).countP
      (Option.isSome ∘ slotEntry t) = 0 := by
    simp [slotEntry, List.countP_eq_zero]
  rw [slotEntries, List.countP_map, Config.nslot, show 513 = t.nn.toNat + (513 - t.nn.toNat) by omega, List.range_add,
    List.countP_append, hpadding, Nat.add_zero, leafCount, ← List.countP_eq_length_filter]
  have hcount := congrArg (List.countP id) hnodes
  rw [List.countP_map, List.countP_map] at hcount
  exact hcount

/-- Settles O33: each slot takes one bit, and nine more where it holds a leaf. -/
theorem theSkeletonSizeLaw : Obligations.TheSkeletonSizeLaw := by
  intro t h
  rw [skeletonBits_eq, flatMap_entryBits_length, slotEntries_length, countP_slotEntries h]

/-! ### Reading one slot (R200) -/

/-- The decoder's registers once the field of an entry has gone through SYMACC. -/
def fieldTaken : Option Sym → Dec → Dec
  | none, d => d
  | some sym, d => { d with symAcc := sym, symCnt := 9 }

@[simp] theorem fieldTaken_slot (e : Option Sym) (d : Dec) : (fieldTaken e d).slot = d.slot := by cases e <;> rfl
@[simp] theorem fieldTaken_dstate (e : Option Sym) (d : Dec) : (fieldTaken e d).dstate = d.dstate := by cases e <;> rfl
@[simp] theorem fieldTaken_cur (e : Option Sym) (d : Dec) : (fieldTaken e d).cur = d.cur := by cases e <;> rfl

/-- The whole slot of an entry, either form. -/
def readSlot (e : Option Sym) (s : State) : Flow := takeSlot e { s with dec := fieldTaken e s.dec }

/-- The state after a slot has been pushed and counted. -/
def slotTaken (e : Option Sym) (s : State) : State :=
  { s with
    stack := { ps := s.stack.ps.setIfInBounds s.stack.psn.toNat { weight := 1, sym := e }, psn := s.stack.psn + 1 }
    dec := { fieldTaken e s.dec with slot := s.dec.slot + 1 } }

section
variable {s : State} (e : Option Sym)

/-- Where the decoder stands at a slot, a slot's token acts (30_encoding.md R96). -/
theorem tokenAt_slot (act : State → Flow) (hp : s.phase = .decDict) (hd : s.dec.dstate = .mark) :
    tokenAt (decide (s.phase = .decDict ∧ s.dec.dstate = .mark)) act s = (act s).outcome := by
  rw [tokenAt, if_neg (by rw [hp]; decide), if_pos (decide_eq_true ⟨hp, hd⟩)]

theorem exec_slotToken (hp : s.phase = .decDict) (hd : s.dec.dstate = .mark) :
    exec (slotToken e) s = (readSlot e s).outcome := by
  cases e with
  | none => exact tokenAt_slot (takeSlot none) hp hd
  | some sym => exact tokenAt_slot (takeLeafSlot sym) hp hd

/-- Where the pair stack has room a slot is pushed and counted, and then its number is checked. -/
theorem readSlot_eq (h : s.stack.psn.toNat < 513) : readSlot e s = slotCheck (slotTaken e s) := by
  obtain ⟨k, hk, -, -, rfl⟩ := push_spec { weight := 1, sym := e } s.stack h
  rw [readSlot, takeSlot, pushSlot, hk]
  simp only [Flow.bind_go, fieldTaken_slot, slotTaken]

theorem slotCheck_of_ne (h : s.dec.slot ≠ 513) : slotCheck s = .go s := if_neg h

end

theorem slot_succ_ne {s : State} (h : s.dec.slot.toNat < 512) : s.dec.slot + 1 ≠ 513 := by bv_omega

/-- A slot before the 513th. -/
theorem readSlot_go {s : State} (e : Option Sym) (hn : s.dec.slot.toNat < 512) (h : s.stack.psn.toNat < 513) :
    readSlot e s = .go (slotTaken e s) := by
  rw [readSlot_eq e h, slotCheck_of_ne (slot_succ_ne hn)]

theorem slotTaken_ps (e : Option Sym) (s : State) (j : Nat) (h : j < 513) :
    (slotTaken e s).stack.ps[j] = if j = s.stack.psn.toNat then { weight := 1, sym := e } else s.stack.ps[j] := by
  simp [slotTaken, Vector.getElem_setIfInBounds, eq_comm]

/-- Settles O15: the state after the slot is `slotTaken`. -/
theorem slotsPushTheirEntries : Obligations.SlotsPushTheirEntries := by
  intro s hp hd hn hroom
  have hexec (e : Option Sym) : exec (slotToken e) s = .next (slotTaken e s) := by
    rw [exec_slotToken e hp hd, readSlot_go e hn hroom, Flow.outcome_go]
  exact ⟨⟨_, slotTaken_ps none s, hexec none⟩, fun sym => ⟨_, slotTaken_ps (some sym) s, hexec (some sym)⟩⟩

end Sys2Proof.Machine
end

section
/-!
PROOFS. The end of the skeleton (45_skeleton.md R202, R203; 47_decoder.md R238): `SlotsTaken l s` says that the slots `l`
have been read, the 513th leads to `rebuild`, and each outcome of `rebuild` has its lemma.
-/

namespace Sys2Proof.Machine

/-! ### Reading slots in a row -/

/-- The decoder stands between two slots of the skeleton and has read those of `l` (R200). -/
structure SlotsTaken (l : List (Option Sym)) (s : State) : Prop where
  phase : s.phase = .decDict
  mark : s.dec.dstate = .mark
  slot : s.dec.slot.toNat = l.length
  psn : s.stack.psn = s.dec.slot
  entries : (stackEntries s.stack).map Entry.sym = l

section
variable {l : List (Option Sym)} {s : State}

theorem SlotsTaken.next (h : SlotsTaken l s) (hl : l.length < 513) (e : Option Sym) :
    SlotsTaken (l ++ [e]) (slotTaken e s) := by
  have hroom : s.stack.psn.toNat < 513 := by rw [h.psn, h.slot]; exact hl
  obtain ⟨k, -, hpsn, hentries, rfl⟩ := push_spec { weight := 1, sym := e } s.stack hroom
  refine ⟨h.phase, (fieldTaken_dstate e s.dec).trans h.mark, ?_, ?_, ?_⟩
  · rw [List.length_append, List.length_singleton, ← h.slot, ← h.psn]
    exact (congrArg (BitVec.toNat <| · + 1) h.psn.symm).trans hpsn
  · exact congrArg (· + 1) h.psn
  · rw [← h.entries]
    exact (congrArg (List.map Entry.sym) hentries).trans (List.map_append ..)

theorem SlotsTaken.readSlot_eq (h : SlotsTaken l s) (hl : l.length < 513) (e : Option Sym) :
    readSlot e s = slotCheck (slotTaken e s) :=
  Machine.readSlot_eq e (by rw [h.psn, h.slot]; exact hl)

/-- With all 513 slots read the stack holds them all. -/
theorem SlotsTaken.all (h : SlotsTaken l s) (hl : l.length = 513) : s.stack.ps.toList.map Entry.sym = l := by
  rw [← h.entries, stackEntries, List.take_of_length_le (by rw [h.psn, h.slot, hl]; simp)]

theorem SlotsTaken.slot_eq (h : SlotsTaken l s) (hl : l.length = 513) : s.dec.slot = 513 :=
  BitVec.eq_of_toNat_eq (h.slot.trans hl)

end

/-- The 513th slot leads to its check with all the slots of the stream on the stack. -/
theorem exec_last_slot {s : State} {sym : Option Sym} {i : Instr} {slots : List (Option Sym)}
    (hp : s.phase = .decDict) (hd : s.dec.dstate = .mark) (hslot : s.dec.slot = 512) (hpsn : s.stack.psn = 512)
    (hi : i = .slotInternal ∧ sym = none ∨ ∃ k, i = .slotLeaf k ∧ sym = some k)
    (hslots : slots = ((s.stack.ps.toList.take 512).map Entry.sym) ++ [sym]) :
    exec i s = (slotCheck (slotTaken sym s)).outcome ∧ SlotsTaken slots (slotTaken sym s) ∧ slots.length = 513 := by
  have hbefore : SlotsTaken ((s.stack.ps.toList.take 512).map Entry.sym) s :=
    ⟨hp, hd, by simp [hslot], hpsn.trans hslot.symm, by simp [stackEntries, hpsn]⟩
  have hlen : ((s.stack.ps.toList.take 512).map Entry.sym).length = 512 := by simp
  have htoken : i = slotToken sym := by
    rcases hi with ⟨rfl, rfl⟩ | ⟨k, rfl, rfl⟩
    · rfl
    · rfl
  refine ⟨?_, hslots ▸ hbefore.next (by omega) sym, by simp [hslots]⟩
  rw [htoken, exec_slotToken sym hp hd, hbefore.readSlot_eq (by omega)]

/-! ### The conditions of R203 -/

/-- A skeleton without a leaf is cut to nothing (R202). -/
theorem realSlots_eq_zero {l : List Entry} (h : ∀ e ∈ l.map Entry.sym, e = none) : realSlots l = 0 := by
  obtain ⟨-, -, hlast⟩ := realSlots_spec l
  by_contra hne
  obtain ⟨e, sym, he, hsym⟩ := hlast hne
  rw [h e.sym (List.mem_map_of_mem (List.mem_of_getElem? he))] at hsym
  cases hsym

theorem mem_dropLast_take {α : Type} {l : List α} {n : Nat} (hn : n ≤ l.length) {e : α} :
    e ∈ (l.take n).dropLast ↔ ∃ j, j < n - 1 ∧ l[j]? = some e := by
  rw [List.dropLast_eq_take, List.length_take_of_le hn, List.take_take, Nat.min_eq_left (Nat.sub_le n 1),
    List.mem_iff_getElem?]
  simp only [List.getElem?_take, Option.ite_none_right_eq_some]

/-- Conditions 2 to 5 of R203 on a skeleton cut to its first `n` slots. -/
theorem skeletonMalformed_take {l : List (Option Sym)} {n : Nat} (h0 : 0 < n) (hn : n ≤ l.length) :
    skeletonMalformed (l.take n) = false ↔ n % 2 = 1 ∧ l[0]? = some none ∧ l[n - 1]? = some (some 256) ∧
      ∀ j (k : Sym), j < n - 1 → l[j]? = some (some k) → k.toNat < 256 := by
  have hlen : (l.take n).length = n := List.length_take_of_le hn
  have hodd : ((l.take n).length % 2 == 0) = false ↔ n % 2 = 1 := by
    rw [hlen, beq_eq_false_iff_ne, Nat.mod_two_ne_zero]
  have hroot : ((l.take n).head?.getD none).isSome = false ↔ l[0]? = some none := by
    rw [List.head?_eq_getElem?, List.getElem?_take, if_pos h0, List.getElem?_eq_getElem (by omega)]
    simp
  have hlast : ((l.take n).getLast?.getD none != some Config.sent) = false ↔ l[n - 1]? = some (some 256) := by
    rw [List.getLast?_eq_getElem?, hlen, List.getElem?_take, if_pos (by omega), List.getElem?_eq_getElem (by omega)]
    simp [Config.sent]
  rw [skeletonMalformed, Bool.or_eq_false_iff, Bool.or_eq_false_iff, Bool.or_eq_false_iff, List.any_eq_false, hodd, hroot,
    hlast, and_assoc, and_assoc]
  refine and_congr_right fun _ => and_congr_right fun _ => and_congr_right fun _ => ⟨fun h j k hj hk => ?_, fun h e he => ?_⟩
  · simpa using h (some k) ((mem_dropLast_take hn).2 ⟨j, hj, hk⟩)
  · obtain ⟨j, hj, he⟩ := (mem_dropLast_take hn).1 he
    cases e with
    | none => simp
    | some k => simpa using h j k hj he

/-- Conditions 2 to 5 of R203 one by one: each makes the skeleton malformed. -/
theorem skeletonMalformed_take_of {l : List (Option Sym)} {n : Nat} (h0 : 0 < n) (hn : n ≤ l.length)
    (h : n % 2 = 0 ∨ (∃ k, l[0]? = some (some k)) ∨ l[n - 1]? ≠ some (some 256) ∨
      ∃ j, j < n - 1 ∧ ∃ k : Sym, l[j]? = some (some k) ∧ 256 ≤ k.toNat) :
    skeletonMalformed (l.take n) = true := by
  by_contra hgood
  rw [Bool.not_eq_true, skeletonMalformed_take h0 hn] at hgood
  obtain ⟨hodd, hroot, hsent, hbytes⟩ := hgood
  rcases h with heven | ⟨k, hk⟩ | hnot | ⟨j, hj, k, hk, hge⟩
  · omega
  · rw [hroot] at hk
    cases hk
  · exact hnot hsent
  · exact absurd (hbytes j k hj hk) (Nat.not_lt.2 hge)

/-- Condition 6 of R203: a pair that finds no childless placeholder, or a placeholder left over. -/
theorem assemble_take_eq_false {l : List (Option Sym)} {n : Nat} (t : Tree) (hn : n ≤ l.length) (hfits : n ≤ 513)
    (h : (∃ j, 2 * j + 1 < n ∧ (l.take (2 * j + 1)).countP Option.isNone ≤ j) ∨
      n < 2 * (l.take n).countP Option.isNone + 1) : (assemble (l.take n) t).1 = false := by
  have hlen := List.length_take_of_le hn
  by_contra hok
  rw [Bool.not_eq_false, assemble_iff _ _ (hlen.trans_le hfits), hlen] at hok
  obtain ⟨-, -, hpairs, hcount⟩ := hok
  rcases h with ⟨j, hj, hfew⟩ | hmany
  · have hbefore := hpairs j hj
    rw [List.take_take, Nat.min_eq_left hj.le] at hbefore
    exact Nat.not_lt.2 hfew hbefore
  · exact Nat.ne_of_gt hmany hcount

/-! ### What rebuild does (R202) -/

/-- PSN at the cut of R202. -/
def cutAt (n : Nat) (s : State) : State := { s with stack := { s.stack with psn := BitVec.ofNat 10 n } }

/-- The state after a successful rebuild of `n` nodes to the tree `t`. -/
def rebuilt (n : Nat) (t : Tree) (s : State) : State :=
  recordSizes { s with
    tree := { t with sentNode := BitVec.ofNat 10 (n - 1) }
    dec := { s.dec with cur := 0 }
    stack := { s.stack with psn := 0 } }

section
variable {l : List (Option Sym)} {s : State} {n : Nat}

theorem rebuild_of_none (hn : realSlots s.stack.ps.toList = 0) : rebuild s = raise .skel s := if_pos hn

theorem rebuild_of_cut (hl : s.stack.ps.toList.map Entry.sym = l) (hn : realSlots s.stack.ps.toList = n) (h0 : 0 < n) :
    rebuild s =
      if skeletonMalformed (l.take n) then raise .skel (cutAt n s)
      else if (assemble (l.take n) s.tree).1 = false then
        raise .skel { cutAt n s with tree := (assemble (l.take n) s.tree).2 }
      else .go (rebuilt n (assemble (l.take n) s.tree).2 s) := by
  subst hn hl
  rw [← List.map_take]
  exact if_neg (Nat.ne_of_gt h0)

/-- A rebuild that fails is the end of the 513th slot. -/
theorem slotCheck_of_raise {w : State} (hslot : s.dec.slot = 513) (h : rebuild s = raise .skel w) :
    slotCheck s = .ended (errorEntry .skel w) := by
  rw [slotCheck, if_pos hslot, h]
  rfl

/-- The state in which the payload is awaited: the rebuilt tree with its code table (R238, R243). -/
def payloadStarted (n : Nat) (t : Tree) (c : Codes) (s : State) : State :=
  { rebuilt n t s with codes := c, codeValid := true, phase := .decPayload }

/-- The 513th slot of a skeleton that passes conditions 1 to 5 and assembles. -/
theorem SlotsTaken.slotCheck_of_assembled (h : SlotsTaken l s) (hl : l.length = 513) {t : Tree} {c : Codes} (h0 : 0 < n)
    (hn : realSlots s.stack.ps.toList = n) (hm : skeletonMalformed (l.take n) = false)
    (ht : assemble (l.take n) s.tree = (true, t))
    (hc : deriveCodes { t with sentNode := BitVec.ofNat 10 (n - 1) } s.codes = some c) :
    slotCheck s = .go (payloadStarted n t c s) := by
  have hrebuild : rebuild s = .go (rebuilt n t s) := by
    simp [rebuild_of_cut (h.all hl) hn h0, hm, ht]
  have hderive : deriveStep (rebuilt n t s) = .go { rebuilt n t s with codes := c, codeValid := true } := by
    rw [deriveStep, show deriveCodes (rebuilt n t s).tree (rebuilt n t s).codes = some c from hc]
  rw [slotCheck, if_pos (h.slot_eq hl), hrebuild, Flow.bind_go, hderive, Flow.bind_go]
  rfl

/-- The cut of R202 by the slots read. -/
theorem SlotsTaken.realSlots_eq (h : SlotsTaken l s) (hl : l.length = 513) (h0 : 0 < n) {k : Sym}
    (hlast : l[n - 1]? = some (some k)) (hrest : ∀ e ∈ l.drop n, e = none) : realSlots s.stack.ps.toList = n :=
  Machine.realSlots_eq h0 (k := k) (by rw [h.all hl]; exact hlast) (by rw [h.all hl]; exact hrest)

end

/-! ### The 513th slot (R202, R203, R238) -/

/-- An error at the 513th slot changes the pair stack and the tree beside the slot's own registers. -/
theorem exec_last_slot_skel {s : State} {sym : Option Sym} {i : Instr} {k : Stack} {u : Tree}
    (hexec : exec i s = (slotCheck (slotTaken sym s)).outcome) (hslot : (slotTaken sym s).dec.slot = 513)
    (h : rebuild (slotTaken sym s) = raise .skel { slotTaken sym s with stack := k, tree := u }) :
    exec i s = .next (errorEntry .skel { slotTaken sym s with stack := k, tree := u }) := by
  rw [hexec, slotCheck_of_raise hslot h, Flow.outcome_ended]

/-- Conditions 1 to 5 of R203: rebuild is E_SKEL and leaves the tree as it was. -/
theorem SlotsTaken.rebuild_of_malformed {l : List (Option Sym)} {s : State} {n : Nat} (h : SlotsTaken l s)
    (hl : l.length = 513)
    (hbad : (n = 0 ∧ ∀ e ∈ l, e = none) ∨
      0 < n ∧ (∃ k, l[n - 1]? = some (some k)) ∧ (∀ e ∈ l.drop n, e = none) ∧
        skeletonMalformed (l.take n) = true) :
    ∃ k, rebuild s = raise .skel { s with stack := k } := by
  rcases hbad with ⟨-, hnone⟩ | ⟨h0, ⟨k, hlast⟩, hrest, hm⟩
  · exact ⟨s.stack, rebuild_of_none (realSlots_eq_zero (by rw [h.all hl]; exact hnone))⟩
  · refine ⟨{ s.stack with psn := BitVec.ofNat 10 n }, ?_⟩
    rw [rebuild_of_cut (h.all hl) (h.realSlots_eq hl h0 hlast hrest) h0, if_pos hm]
    rfl

/-- Condition 6 of R203: rebuild is E_SKEL, and the assembly leaves SENT_NODE alone. -/
theorem SlotsTaken.rebuild_of_unassembled {l : List (Option Sym)} {s : State} {n : Nat} {k : Sym} (h : SlotsTaken l s)
    (hl : l.length = 513) (h0 : 0 < n) (hlast : l[n - 1]? = some (some k)) (hrest : ∀ e ∈ l.drop n, e = none)
    (hm : skeletonMalformed (l.take n) = false) (ha : (assemble (l.take n) s.tree).1 = false) :
    rebuild s = raise .skel { cutAt n s with tree := (assemble (l.take n) s.tree).2 } := by
  rw [rebuild_of_cut (h.all hl) (h.realSlots_eq hl h0 hlast hrest) h0, if_neg (by rw [hm]; exact Bool.false_ne_true),
    if_pos ha]

/-- Settles O16: rebuild raises E_SKEL in both cases, and only condition 6 reaches the assembly. -/
theorem aMalformedSkeletonIsRefused : Obligations.AMalformedSkeletonIsRefused := by
  intro s sym i slots n hp hd hslot hpsn hi hslots
  obtain ⟨hexec, htaken, hlen⟩ := exec_last_slot hp hd hslot hpsn hi hslots
  have herr : Err.mk .skel s.phase s.inCnt = Err.mk .skel .decDict s.inCnt := by rw [hp]
  have hcur : (slotTaken sym s).dec.cur = s.dec.cur := fieldTaken_cur sym s.dec
  constructor
  · intro hbad
    obtain ⟨k, hrebuild⟩ := htaken.rebuild_of_malformed hlen <| hbad.imp_right fun ⟨hn, h0, hlast, hrest, hcond⟩ =>
      ⟨h0, hlast, hrest, skeletonMalformed_take_of h0 (hn.trans hlen.ge) hcond⟩
    exact ⟨_, exec_last_slot_skel hexec (htaken.slot_eq hlen) hrebuild, rfl, herr, rfl, rfl, rfl, rfl, rfl, rfl, rfl, rfl,
      hcur⟩
  · intro hn hlast hrest hodd hroot hbytes hplaces
    have h0 : 0 < n := by omega
    have hm := (skeletonMalformed_take h0 (by omega)).2 ⟨hodd, hroot, hlast, hbytes⟩
    have ha := assemble_take_eq_false s.tree (hn.trans hlen.ge) hn hplaces
    have hrebuild := htaken.rebuild_of_unassembled hlen h0 hlast hrest hm ha
    exact ⟨_, exec_last_slot_skel hexec (htaken.slot_eq hlen) hrebuild, rfl, herr, rfl, rfl, rfl, rfl, rfl, rfl, rfl,
      assemble_sentNode _ _, hcur⟩

/-- Settles O17: the state is `payloadStarted`, and the assembly says how many nodes and leaves there are. -/
theorem aGoodSkeletonStartsThePayload : Obligations.AGoodSkeletonStartsThePayload := by
  intro s sym i slots n t c hp hd hslot hpsn hi hslots hn hlast hrest hodd hroot hbytes ht hc
  obtain ⟨hexec, htaken, hlen⟩ := exec_last_slot hp hd hslot hpsn hi hslots
  have h0 : 0 < n := by omega
  have hm := (skeletonMalformed_take h0 (by omega)).2 ⟨hodd, hroot, hlast, hbytes⟩
  have hcheck := htaken.slotCheck_of_assembled hlen h0 (htaken.realSlots_eq hlen h0 hlast hrest) hm ht hc
  have a := assemble_true (by simp; omega) ht
  have hnodes : t.nn = BitVec.ofNat 10 n := by
    rw [← List.length_take_of_le (show n ≤ slots.length by omega), ← a.size, BitVec.ofNat_toNat, BitVec.setWidth_eq]
  refine ⟨payloadStarted n t c (slotTaken sym s), by rw [hexec, hcheck, Flow.outcome_go], rfl, rfl, rfl, rfl, hnodes,
    congrArg (BitVec.ofNat 9) a.leafCount_eq, rfl, rfl, htaken.slot_eq hlen, rfl, rfl, rfl, rfl, rfl, rfl, rfl, rfl⟩

end Sys2Proof.Machine
end

section
/-!
PROOFS. The round trip of the skeleton (45_skeleton.md R205): the bits of a slot run its token, the slots of an assembled
tree are its construction sequence and padding, and the nodes of an assembly come from the sequence alone.
-/

namespace Sys2Proof.Machine

/-! ### The bits of a slot (R200) -/

theorem takeBits_append (a b : List Bool) (s : State) : takeBits (a ++ b) s = (takeBits a s).bind (takeBits b) := by
  induction a generalizing s with
  | nil => rfl
  | cons x a ih => rw [List.cons_append, takeBits, takeBits, Flow.bind_assoc, funext ih]

theorem takeBits_singleton {b : Bool} {s : State} (hp : s.phase = .decDict) : takeBits [b] s = dictStep b s := by
  rw [takeBits, takeBit, hp]
  cases dictStep b s <;> rfl

theorem takeBits_cons_of_go {b : Bool} {bits : List Bool} {s t : State} (hp : s.phase = .decDict)
    (h : dictStep b s = .go t) : takeBits (b :: bits) s = takeBits bits t := by
  rw [← List.singleton_append, takeBits_append, takeBits_singleton hp, h, Flow.bind_go]

/-- A slot may be pushed before or after DSTATE goes back to MARK. -/
theorem pushSlot_bind_mark (e : Option Sym) (s : State) :
    ((pushSlot e s).bind fun t => slotCheck { t with dec := { t.dec with dstate := .mark } }) =
      takeSlot e { s with dec := { s.dec with dstate := .mark } } := by
  rw [takeSlot, pushSlot, pushSlot]
  cases push { weight := 1, sym := e } s.stack <;> rfl

/-- The decoder within the field of a leaf slot: SYMACC and SYMCNT so far. -/
def inField (acc : Sym) (cnt : BitVec 4) (s : State) : State :=
  { s with dec := { s.dec with dstate := .sym, symAcc := acc, symCnt := cnt } }

section
variable {s : State} (b : Bool) (acc : Sym) {cnt : BitVec 4}

theorem dictStep_inField (hslot : s.dec.slot ≠ 513) (hcnt : cnt + 1 ≠ 9) :
    dictStep b (inField acc cnt s) = .go (inField (acc.shiftConcat b) (cnt + 1) s) :=
  (if_neg hcnt).trans (slotCheck_of_ne hslot)

/-- The ninth bit of the field completes the slot. -/
theorem dictStep_inField_last (hd : s.dec.dstate = .mark) (hcnt : cnt + 1 = 9) :
    dictStep b (inField acc cnt s) = readSlot (some (acc.shiftConcat b)) s := by
  refine (if_pos hcnt).trans ((pushSlot_bind_mark _ _).trans ?_)
  simp only [inField, readSlot, fieldTaken, hcnt, hd]

end

/-- What is left of a field completes SYMACC, and its last bit pushes the slot. -/
theorem takeBits_inField {s : State} (hp : s.phase = .decDict) (hd : s.dec.dstate = .mark) (hslot : s.dec.slot ≠ 513) :
    ∀ (l : List Bool) (acc : Sym) (cnt : BitVec 4), l ≠ [] → cnt.toNat + l.length = 9 →
      takeBits l (inField acc cnt s) = readSlot (some (l.foldl BitVec.shiftConcat acc)) s
  | [], _, _, hne, _ => absurd rfl hne
  | [b], acc, cnt, _, hcnt => by
    rw [List.length_singleton] at hcnt
    rw [takeBits_singleton (s := inField acc cnt s) hp, dictStep_inField_last b acc hd (by bv_omega)]
    rfl
  | b :: c :: l, acc, cnt, _, hcnt => by
    rw [List.length_cons, List.length_cons] at hcnt
    rw [takeBits_cons_of_go (s := inField acc cnt s) hp (dictStep_inField b acc hslot (by bv_omega)),
      takeBits_inField hp hd hslot (c :: l) _ _ (List.cons_ne_nil c l) (by rw [List.length_cons]; bv_omega)]
    rfl

/-- The bits of a slot, fed between two slots, are the whole slot. -/
theorem takeBits_entryBits {s : State} (e : Option Sym) (hp : s.phase = .decDict) (hd : s.dec.dstate = .mark)
    (hslot : s.dec.slot ≠ 513) : takeBits (entryBits e) s = readSlot e s := by
  cases e with
  | none =>
    rw [entryBits, takeBits_singleton hp, dictStep, hd]
    rfl
  | some sym =>
    have hmark : dictStep true s = .go (inField 0 0 s) := by
      rw [dictStep, hd]
      exact slotCheck_of_ne hslot
    have hsym : (bitsMsb sym).foldl BitVec.shiftConcat 0 = sym := ofBits_bitsMsb sym
    have hlen := bitsMsb_length sym
    rw [entryBits, takeBits_cons_of_go hp hmark, takeBits_inField hp hd hslot (bitsMsb sym) 0 0
      (List.ne_nil_of_length_pos (by omega)) (by simpa using hlen), hsym]

theorem SlotsTaken.slot_ne {l : List (Option Sym)} {s : State} (h : SlotsTaken l s) (hl : l.length < 513) :
    s.dec.slot ≠ 513 := fun heq => by
  have : l.length = 513 := h.slot.symm.trans (congrArg BitVec.toNat heq)
  omega

/-- Slots in a row, all before the 513th. -/
theorem SlotsTaken.takeBits_slots {l : List (Option Sym)} {s : State} (h : SlotsTaken l s) (m : List (Option Sym))
    (hm : l.length + m.length ≤ 512) :
    ∃ t, takeBits (m.flatMap entryBits) s = .go t ∧ SlotsTaken (l ++ m) t ∧ t.out = s.out := by
  induction m generalizing l s with
  | nil => exact ⟨s, rfl, by rwa [List.append_nil], rfl⟩
  | cons e m ih =>
    rw [List.length_cons] at hm
    have hnext := h.next (by omega) e
    obtain ⟨t, ht, htaken, hout⟩ := ih hnext (by rw [List.length_append, List.length_singleton]; omega)
    refine ⟨t, ?_, by rwa [List.append_assoc] at htaken, hout⟩
    rw [List.flatMap_cons, takeBits_append, takeBits_entryBits e h.phase h.mark (h.slot_ne (by omega)),
      h.readSlot_eq (by omega), slotCheck_of_ne (hnext.slot_ne (by rw [List.length_append, List.length_singleton]; omega)),
      Flow.bind_go, ht]

/-- All 513 slots from the first on. -/
theorem SlotsTaken.takeBits_all {s : State} (h : SlotsTaken [] s) {l : List (Option Sym)} (hl : l.length = 513) :
    ∃ t, takeBits (l.flatMap entryBits) s = slotCheck t ∧ SlotsTaken l t ∧ t.out = s.out := by
  rcases l.eq_nil_or_concat' with rfl | ⟨m, e, rfl⟩
  · cases hl
  · rw [List.length_append, List.length_singleton] at hl
    obtain ⟨t, ht, htaken, hout⟩ := h.takeBits_slots m (by rw [List.length_nil]; omega)
    rw [List.nil_append] at htaken
    refine ⟨slotTaken e t, ?_, htaken.next (by omega) e, hout⟩
    rw [List.flatMap_append, takeBits_append, ht, Flow.bind_go, List.flatMap_singleton,
      takeBits_entryBits e htaken.phase htaken.mark (htaken.slot_ne (by omega)), htaken.readSlot_eq (by omega)]

/-! ### The nodes of an assembly come from its sequence (R167, R168) -/

theorem advanceFill_congr {v w : Vector Node 513} {k : Nat} (h : ∀ i : Nat, i < k → v[i]? = w[i]?) (fuel fill : Nat) :
    advanceFill v k fuel fill = advanceFill w k fuel fill := by
  induction fuel generalizing fill with
  | zero => rfl
  | succ fuel ih =>
    have hcond : (fill < k ∧ v[fill]? ≠ some Node.bare) ↔ (fill < k ∧ w[fill]? ≠ some Node.bare) :=
      and_congr_right fun hlt => by rw [h fill hlt]
    rw [advanceFill, advanceFill, ih, if_congr hcond rfl rfl]

/-- Two node stores that agree on the first `n` nodes agree on them after pairs of those nodes are attached. -/
theorem attachPairs_congr {n : Nat} : ∀ (m k : Nat) (v w : Vector Node 513) (fill : Nat), k + 2 * m ≤ n →
    (∀ i : Nat, i < n → v[i]? = w[i]?) →
    ∀ i : Nat, i < n → (attachPairs m k v fill).2.1[i]? = (attachPairs m k w fill).2.1[i]?
  | 0, _, _, _, _, _, h => h
  | m + 1, k, v, w, fill, hk, h => by
    rw [attachPairs, attachPairs, advanceFill_congr (fun i hi => h i (by omega))]
    split
    · exact h
    · refine attachPairs_congr m (k + 2) _ _ _ (by omega) fun i hi => ?_
      rw [Vector.getElem?_setIfInBounds, Vector.getElem?_setIfInBounds, h i hi]

theorem assemble_nn (q : List (Option Sym)) (t : Tree) : (assemble q t).2.nn = BitVec.ofNat 10 q.length := by
  unfold assemble
  dsimp only
  repeat' split
  all_goals rfl

theorem assemble_node {q : List (Option Sym)} (t : Tree) (hodd : q.length % 2 = 1) :
    (assemble q t).2.node = (attachPairs ((q.length - 1) / 2) 1 (createNodes q 0 t.node) 0).2.1 := by
  unfold assemble
  dsimp only
  rw [if_neg (by omega)]
  repeat' split
  all_goals rfl

/-- The nodes an assembly makes do not depend on the tree before it. -/
theorem assemble_node_congr {q : List (Option Sym)} (t u : Tree) (hq : q.length ≤ 513) (hodd : q.length % 2 = 1) {k : Nat}
    (hk : k < q.length) : (assemble q t).2.node[k]? = (assemble q u).2.node[k]? := by
  rw [assemble_node t hodd, assemble_node u hodd]
  refine attachPairs_congr _ _ _ _ _ (by omega) (fun i hi => ?_) k hk
  rw [createNodes_get q 0 _ (by omega), createNodes_get q 0 _ (by omega), if_pos (by omega), if_pos (by omega)]

/-! ### The slots of an assembled tree -/

/-- The slots are the construction sequence and padding (R196, R197). -/
theorem Assembled.slotEntries_eq {q : List (Option Sym)} {u : Tree} (a : Assembled q u) :
    slotEntries u = q ++ List.replicate (513 - q.length) none := by
  have hfits := a.fits
  refine List.ext_getElem? fun k => ?_
  by_cases hk : k < 513
  · rw [slotEntries_getElem? u hk, slotEntry, a.size]
    by_cases hq : k < q.length
    · rw [if_pos hq, List.getElem?_append_left hq]
      rcases a.node_cases hq with ⟨sym, hsym, hnode⟩ | ⟨hnone, c, hnode, -⟩
      · rw [hsym, hnode, entryOf]
      · rw [hnone, hnode, entryOf]
    · rw [if_neg hq, List.getElem?_append_right (by omega), List.getElem?_replicate, if_pos (by omega)]
  · rw [List.getElem?_eq_none (by rw [slotEntries_length]; omega), List.getElem?_eq_none (by simp; omega)]

/-- The skeleton of a tree that ends with the sentinel's leaf, and has bytes on its other leaves, is cut where its sequence
ends and passes conditions 2 to 5 of R203. -/
theorem Assembled.skeleton_accepted {q : List (Option Sym)} {u : Tree} (a : Assembled q u)
    (hsent : q.getLast? = some (some 256)) (hbytes : ∀ k : Sym, some k ∈ q.dropLast → k.toNat < 256) :
    (slotEntries u)[q.length - 1]? = some (some 256) ∧ (∀ e ∈ (slotEntries u).drop q.length, e = none) ∧
      (slotEntries u).take q.length = q ∧ skeletonMalformed q = false := by
  have hthree := a.three
  have htake : (slotEntries u).take q.length = q := by rw [a.slotEntries_eq, List.take_left]
  have hget {j : Nat} (hj : j < q.length) : (slotEntries u)[j]? = q[j]? := by
    rw [a.slotEntries_eq, List.getElem?_append_left hj]
  rw [List.getLast?_eq_getElem?, ← hget (by omega)] at hsent
  refine ⟨hsent, fun e he => ?_, htake, ?_⟩
  · rw [a.slotEntries_eq, List.drop_left] at he
    exact List.eq_of_mem_replicate he
  · rw [← htake, skeletonMalformed_take (by omega) (by rw [slotEntries_length]; exact a.fits)]
    refine ⟨a.odd, (hget (by omega)).trans a.root, hsent, fun j k hj hk => hbytes k ?_⟩
    rw [hget (by omega)] at hk
    rw [List.dropLast_eq_take]
    exact List.mem_of_getElem? ((List.getElem?_take_of_lt hj).trans hk)

/-- A sequence that assembles does so again over any other tree, to the same nodes. -/
theorem assemble_again {q : List (Option Sym)} {t u : Tree} (hq : q.length ≤ 513) (h : assemble q t = (true, u))
    (t' : Tree) : ∃ v, assemble q t' = (true, v) ∧ v.nn = u.nn ∧ ∀ k : Nat, k < q.length → v.node[k]? = u.node[k]? := by
  have a := assemble_true hq h
  obtain rfl : (assemble q t).2 = u := by rw [h]
  have hok := (assemble_iff q t' hq).2 ⟨a.odd, a.three, a.pairs, a.count⟩
  exact ⟨_, Prod.ext hok rfl, by rw [assemble_nn, assemble_nn], fun k hk => assemble_node_congr t' t hq a.odd hk⟩

/-- Settles O34: the slots read are the slots written, so rebuild assembles the same sequence. -/
theorem theSkeletonRoundTrip : Obligations.TheSkeletonRoundTrip := by
  intro s q t u hq ht hsent hbytes hp hd hslot hpsn
  have a := assemble_true hq ht
  have h0 : 0 < q.length := by have := a.three; omega
  obtain ⟨hlast, hrest, htake, hm⟩ := a.skeleton_accepted hsent hbytes
  have hstart : SlotsTaken [] s :=
    ⟨hp, hd, by rw [hslot]; rfl, hpsn.trans hslot.symm, by simp [stackEntries, hpsn]⟩
  have hlen := slotEntries_length u
  obtain ⟨w, hbits, htaken, hout⟩ := hstart.takeBits_all hlen
  obtain ⟨v, hv, hnn, hnodes⟩ := assemble_again hq ht w.tree
  have b := assemble_true hq hv
  obtain ⟨hfinished, hsymbols, hleaves⟩ := b.goodTree (skeletonMalformed_false hm).2
  obtain ⟨c, hc⟩ := deriveCodes_good (t := { v with sentNode := BitVec.ofNat 10 (q.length - 1) }) w.codes
    ⟨hfinished, hsymbols, hleaves⟩
  have hcut := htaken.realSlots_eq hlen h0 hlast hrest
  have hcheck := htaken.slotCheck_of_assembled hlen h0 hcut (htake.symm ▸ hm) (htake.symm ▸ hv) hc
  have hsize := a.size
  refine ⟨payloadStarted q.length v c w, ?_, rfl, rfl, hnn, fun k hk => hnodes k (hsize ▸ hk), ?_, ?_, hnn, rfl, hout⟩
  · rw [skeletonBits_eq, hbits, hcheck]
  · show BitVec.ofNat 10 (q.length - 1) = u.nn - 1
    rw [← hsize]
    bv_omega
  · show BitVec.ofNat 9 (leafCount v.node v.nn.toNat) = _
    rw [b.leafCount_eq, a.leafCount_eq]

end Sys2Proof.Machine
end

section
/-!
PROOFS. ENC_START (46_encoder.md R210): its three checks in their order, and the state it begins pass 1 with.
-/

namespace Sys2Proof.Machine

section
variable {s : State}

/-- Some extension byte below EXT_LEN is the terminator, said by index. -/
theorem extHoldsTerm_iff :
    extHoldsTerm s = true ↔ ∃ i, ∃ h : i < 255, i < s.extLen.toNat ∧ s.ext[i] = s.termReg := by
  rw [extHoldsTerm, List.contains_iff_mem, List.mem_take_iff_getElem]
  constructor
  · rintro ⟨i, hi, heq⟩
    have hi : i < s.extLen.toNat ∧ i < 255 := by simpa using hi
    exact ⟨i, hi.2, hi.1, by simpa using heq⟩
  · rintro ⟨i, h, hlen, heq⟩
    exact ⟨i, by simpa using ⟨hlen, h⟩, by simpa using heq⟩

/-- ENC_START in IDLE is the first check that fails, or pass 1. -/
theorem exec_encStart_of_idle (hp : s.phase = .idle) :
    exec .encStart s = .next
      (if s.totalLen = 0 then errorEntry .empty (encStarted s)
      else if s.totalLen = Config.lenOver then errorEntry .range (encStarted s)
      else if extHoldsTerm s then errorEntry .badExt (encStarted s)
      else encStarted s) := by
  simp only [apply_ite Host.Outcome.next]
  exact if_pos hp

end

theorem ftClear_byte (k : Nat) (h : k < 256) : ftClear[k] = 0 := by
  rw [ftClear, Vector.getElem_set_ne _ _ (Nat.ne_of_gt h), Vector.getElem_replicate]

/-- Settles O7: none of the three checks fails. -/
theorem encStartBeginsPassOne : Obligations.EncStartBeginsPassOne := by
  intro s hp hempty hrange hext
  have hterm : ¬ extHoldsTerm s = true := by
    rw [extHoldsTerm_iff]
    rintro ⟨i, h, hlen, heq⟩
    exact hext i h hlen heq
  refine ⟨ftClear, ftClear_sentinel, ftClear_byte, ?_⟩
  rw [exec_encStart_of_idle hp, if_neg hempty, if_neg (show s.totalLen ≠ Config.lenOver from hrange), if_neg hterm]
  rfl

/-- Settles O8: each way to fail passes the checks before it. -/
theorem encStartChecksInOrder : Obligations.EncStartChecksInOrder := by
  intro s hp c hc
  have hexec : exec .encStart s = .next (errorEntry c (encStarted s)) := by
    rw [exec_encStart_of_idle hp]
    rcases hc with ⟨hempty, rfl⟩ | ⟨hrange, rfl⟩ | ⟨hempty, hrange, rfl, hterm⟩
    · rw [if_pos hempty]
    · rw [if_neg (by rw [hrange]; decide), if_pos (show s.totalLen = Config.lenOver from hrange)]
    · rw [if_neg hempty, if_neg (show s.totalLen ≠ Config.lenOver from hrange), if_pos (extHoldsTerm_iff.2 hterm)]
  exact ⟨_, hexec, rfl, rfl, rfl, rfl, rfl, rfl, rfl, rfl, rfl, rfl, rfl, rfl, rfl, rfl, rfl, rfl⟩

end Sys2Proof.Machine
end

section
/-!
PROOFS. A byte in pass 1 before the last and a byte in pass 2 (46_encoder.md R212, R218), and what progress they make
(60_exceptions.md R310).
-/

namespace Sys2Proof.Machine

/-! ### Progress (R310) -/

section
variable (s : State)

theorem setPct_eq (v : BitVec 7) : s.setPct v =
    { s with pct := v, irqPend := if s.pct < v then s.irqPend ||| 0x08#5 else s.irqPend } := by
  unfold State.setPct
  split <;> rfl

theorem updatePct_eq : s.updatePct =
    { s with pct := s.progress, irqPend := if s.pct < s.progress then s.irqPend ||| 0x08#5 else s.irqPend } :=
  setPct_eq s s.progress

/-- IRQ_PEND where DONE is pended after PROG. -/
theorem or_prog_or_done {c : Prop} [Decidable c] (p : BitVec 5) :
    (if c then p ||| 0x08#5 else p) ||| 0x01#5 = p ||| if c then 0x09#5 else 0x01#5 := by
  split
  · exact BitVec.or_assoc ..
  · rfl

theorem finish_eq : finish s =
    { s with phase := .done, pct := 100, irqPend := s.irqPend ||| if s.pct < 100 then 0x09#5 else 0x01#5 } := by
  rw [finish, setPct_eq, ← or_prog_or_done]
  rfl

variable {s}

/-- The progress of a compress with `k` bytes of both passes done is at most 100, so it fits in PCT. -/
theorem progress_compress {k : Nat} (hop : s.op = .compress)
    (hk : (if s.phase = .encCode then s.totalLen.toNat else 0) + s.inCnt.toNat = k) (hle : k ≤ 2 * s.totalLen.toNat) :
    s.progress.toNat = 100 * k / (2 * s.totalLen.toNat) := by
  have hfits : 100 * k / (2 * s.totalLen.toNat) ≤ 100 := Nat.div_le_of_le_mul (by omega)
  simp only [State.progress, hop, hk]
  rw [BitVec.toNat_ofNat, Nat.mod_eq_of_lt (by omega)]

end

/-- IN_CNT reaches TOTAL_LEN with the last byte, without a wrap. -/
theorem succ_eq_iff {x y : Word} (h : x.toNat < y.toNat) : x + 1 = y ↔ x.toNat + 1 = y.toNat := by
  rw [BitVec.toNat_eq, toNat_succ_of_lt h]

section
variable {s : State} {b : Byte} {rest : List HostEvent} (ht : takeEvent s s.events = some (.inByte b, rest))
include ht

theorem step_encCount (hp : s.phase = .encCount) : step s = (inEncCount b { s with events := rest }).outcome := by
  rw [step_of_takeEvent ht, react, inByte]
  simp only [hp]

theorem step_encCode (hp : s.phase = .encCode) : step s = (inEncCode b { s with events := rest }).outcome := by
  rw [step_of_takeEvent ht, react, inByte]
  simp only [hp]

end

/-! ### Pass 1 -/

theorem ftAdd_getElem (b : Byte) (f : Vector Word 257) (k : Nat) (h : k < 257) :
    (ftAdd b f)[k] = if k = b.toNat then f[k] + 1 else f[k] := by
  rw [ftAdd, Vector.getElem_set]
  split
  · next heq => subst heq; rw [if_pos rfl]
  · next hne => rw [if_neg (Ne.symm hne)]

/-- `s` with the byte counted in FREQ and IN_CNT and the progress made (R212). -/
def byteCounted (b : Byte) (s : State) : State :=
  State.updatePct { s with freq := ftAdd b s.freq, inCnt := s.inCnt + 1 }

section
variable {s : State} (b : Byte)

theorem inEncCount_of_more (h : s.inCnt + 1 ≠ s.totalLen) : inEncCount b s = .go (byteCounted b s) :=
  if_neg (by simpa using h)

theorem inEncCount_of_last (h : s.inCnt + 1 = s.totalLen) : inEncCount b s = endOfPass1 (byteCounted b s) :=
  if_pos (by simpa using h)

theorem byteCounted_eq : byteCounted b s =
    { s with
      freq := ftAdd b s.freq, inCnt := s.inCnt + 1, pct := (byteCounted b s).pct
      irqPend := if s.pct < (byteCounted b s).pct then s.irqPend ||| 0x08#5 else s.irqPend } := by
  rw [byteCounted, updatePct_eq]

theorem byteCounted_pct (hp : s.phase = .encCount) (hop : s.op = .compress) (hlt : s.inCnt.toNat < s.totalLen.toNat) :
    (byteCounted b s).pct.toNat = 100 * (s.inCnt.toNat + 1) / (2 * s.totalLen.toNat) := by
  rw [byteCounted, updatePct_pct]
  exact progress_compress (s := { s with freq := ftAdd b s.freq, inCnt := s.inCnt + 1 }) hop
    (by simp only [hp, reduceCtorEq, if_false, Nat.zero_add, toNat_succ_of_lt hlt]) (by dsimp only; omega)

end

/-- Settles O40: the byte is counted, the progress made, and pass 1 goes on. -/
theorem passOneCountsEveryByte : Obligations.PassOneCountsEveryByte := by
  intro s b rest hp hop ht hmore
  have hlt : s.inCnt.toNat < s.totalLen.toNat := Nat.lt_of_succ_lt hmore
  refine ⟨ftAdd b s.freq, _, ftAdd_getElem b s.freq, byteCounted_pct (s := { s with events := rest }) b hp hop hlt, ?_⟩
  rw [step_encCount ht hp, inEncCount_of_more (s := { s with events := rest }) b fun h =>
    Nat.ne_of_lt hmore ((succ_eq_iff hlt).1 h)]
  exact congrArg Host.Outcome.next (byteCounted_eq b)

/-! ### Pass 2 -/

theorem toNat_byteSym (b : Byte) : (b.setWidth 9).toNat = b.toNat := BitVec.toNat_setWidth_of_le (by decide)

theorem codeOf_eq {c : Codes} {sym : Sym} {n : BitVec 9} {v : BitVec 256} (hlen : c.len[sym.toNat]? = some n)
    (hbits : c.bits[sym.toNat]? = some v) (hn : n ≠ 0) : codeOf c sym = some (codeBitList n v) := by
  simp only [codeOf, hlen, hbits, if_neg hn]

theorem codeOf_sent {c : Codes} (h : c.len[256] ≠ 0) :
    codeOf c Config.sent = some (codeBitList c.len[256] c.bits[256]) :=
  codeOf_eq (Vector.getElem?_eq_getElem (by decide)) (Vector.getElem?_eq_getElem (by decide)) h

section
variable {s : State} {b : Byte} {l m : List Bool}

theorem putCode_eq {sym : Sym} (h : codeOf s.codes sym = some l) : putCode sym s = .go { s with out := putAll l s.out } := by
  rw [putCode, h]

theorem inEncCode_of_no_code (h : s.codes.len[b.toNat]? = some 0) :
    inEncCode b s = .ended (errorEntry .mismatch { s with inCnt := s.inCnt + 1 }) := if_pos h

theorem inEncCode_of_code (hne : s.codes.len[b.toNat]? ≠ some 0) (hl : codeOf s.codes (b.setWidth 9) = some l) :
    inEncCode b s = if s.inCnt + 1 = s.totalLen then endOfPass2 (coded s l) else .go (coded s l) := by
  rw [inEncCode]
  dsimp only
  rw [if_neg hne, putCode_eq (s := { s with inCnt := s.inCnt + 1 }) hl]
  simp only [Flow.bind_go, updatePct_inCnt, updatePct_totalLen]
  rfl

theorem endOfPass2_eq (hm : codeOf s.codes Config.sent = some m) : endOfPass2 s = .ended (closed s m) := by
  rw [endOfPass2, putCode_eq hm]
  rfl

variable (l m)

theorem coded_eq : coded s l =
    { s with
      inCnt := s.inCnt + 1, out := putAll l s.out, pct := (coded s l).pct
      irqPend := if s.pct < (coded s l).pct then s.irqPend ||| 0x08#5 else s.irqPend } := by
  rw [coded, updatePct_eq]

theorem coded_pct (hp : s.phase = .encCode) (hop : s.op = .compress) (hlt : s.inCnt.toNat < s.totalLen.toNat) :
    (coded s l).pct.toNat = 100 * (s.totalLen.toNat + s.inCnt.toNat + 1) / (2 * s.totalLen.toNat) := by
  rw [coded, updatePct_pct]
  exact progress_compress (s := { s with inCnt := s.inCnt + 1, out := putAll l s.out }) hop
    (by simp only [hp, if_true, toNat_succ_of_lt hlt, Nat.add_assoc]) (by dsimp only; omega)

/-- With the last byte the progress is complete, so `finish` finds no further rise (log 18). -/
theorem coded_pct_last (hp : s.phase = .encCode) (hop : s.op = .compress)
    (hlast : s.inCnt.toNat + 1 = s.totalLen.toNat) : (coded s l).pct = 100 := by
  apply BitVec.eq_of_toNat_eq
  rw [coded_pct l hp hop (by omega), Nat.add_assoc, hlast, ← Nat.two_mul, Nat.mul_div_cancel _ (by omega)]
  rfl

theorem closed_coded (h : (coded s l).pct = 100) : closed (coded s l) m =
    { s with
      inCnt := s.inCnt + 1, phase := .done, pct := 100, out := bpFlush (putAll m (putAll l s.out))
      irqPend := s.irqPend ||| if s.pct < 100 then 0x09#5 else 0x01#5 } := by
  rw [closed, finish_eq, coded_eq, h, if_neg (BitVec.lt_irrefl _), or_prog_or_done]

end

/-- Settles O42: a byte has no code, or is coded before the last, or is the last. -/
theorem passTwoWritesTheCodes : Obligations.PassTwoWritesTheCodes := by
  intro s b rest hp hop ht
  rw [step_encCode ht hp]
  refine ⟨fun hnone => ?_, fun n v hlen hbits hn => ?_⟩
  · rw [inEncCode_of_no_code (s := { s with events := rest }) hnone, ← hp]
    rfl
  have hcode : codeOf s.codes (b.setWidth 9) = some (codeBitList n v) :=
    codeOf_eq (by rwa [toNat_byteSym]) (by rwa [toNat_byteSym]) hn
  rw [inEncCode_of_code (s := { s with events := rest }) (by simpa [hlen] using hn) hcode]
  refine ⟨fun hmore => ?_, fun hlast hsent => ?_⟩
  · have hlt : s.inCnt.toNat < s.totalLen.toNat := Nat.lt_of_succ_lt hmore
    refine ⟨_, coded_pct (s := { s with events := rest }) (codeBitList n v) hp hop hlt, ?_⟩
    rw [if_neg fun h => Nat.ne_of_lt hmore ((succ_eq_iff hlt).1 h)]
    exact congrArg Host.Outcome.next (coded_eq _)
  · have hsentinel : codeOf (coded { s with events := rest } (codeBitList n v)).codes Config.sent =
        some (codeBitList s.codes.len[256] s.codes.bits[256]) := by
      rw [coded, updatePct_codes]
      exact codeOf_sent hsent
    rw [if_pos ((succ_eq_iff (Nat.lt_of_succ_le (Nat.le_of_eq hlast))).2 hlast), endOfPass2_eq hsentinel]
    exact congrArg Host.Outcome.next (closed_coded _ _ (coded_pct_last (s := { s with events := rest }) _ hp hop hlast))

end Sys2Proof.Machine
end

section
/-!
PROOFS. The last byte of pass 1 (46_encoder.md R214, R216, R217): the tree of the counts with its code table, sizes and
estimate, and the two ways on from there, the size guard's error and the header.
-/

namespace Sys2Proof.Machine

/-! ### The header (R217) -/

/-- The bits the header is made of. -/
def headerList (s : State) : List Bool :=
  bitsMsb s.magicReg ++ (s.ext.toList.take s.extLen.toNat).flatMap bitsOf ++ bitsOf s.termReg ++ skeletonBits s.tree

theorem writeHeader_eq (s : State) : writeHeader s = { s with out := putAll (headerList s) s.out } := by
  simp only [writeHeader, putBits, writeSkeleton, headerList, bitsOf, putAll_append]

theorem flatMap_bitsOf_length (l : List Byte) : (l.flatMap bitsOf).length = 8 * l.length := by
  simp [List.length_flatMap, bitsOf_length, Nat.mul_comm]

section
variable {s : State} (hfits : s.tree.nn.toNat ≤ 513) (hleaves : leafCount s.tree.node s.tree.nn.toNat = s.nleaf.toNat)
include hfits hleaves

/-- The header has HDR_BITS bits (R185). -/
theorem headerList_length : (headerList s).length = headerBits s := by
  have hext : (s.ext.toList.take s.extLen.toNat).length = s.extLen.toNat := by
    have := s.extLen.isLt
    rw [List.length_take, Vector.length_toList]
    omega
  simp only [headerList, List.length_append, bitsMsb_length, flatMap_bitsOf_length, hext, bitsOf_length,
    theSkeletonSizeLaw _ hfits, hleaves, headerBits]
  omega

/-- Magic, extension and terminator are whole bytes, so the skeleton's bits decide what stays pending. -/
theorem headerList_written {o : Output} (ha : o.acc = 0) (hn : o.nb = 0) (hs : o.seq = []) :
    (putAll (headerList s) o).seq.length = 3 + s.extLen.toNat + (513 + 9 * s.nleaf.toNat) / 8 ∧
    (putAll (headerList s) o).nb.toNat = (513 + 9 * s.nleaf.toNat) % 8 ∧
    writtenBits (putAll (headerList s) o) = headerList s := by
  obtain ⟨hseq, hnb, hbits, -⟩ := theBitCountLaw (headerList s) o ha hn hs
  rw [headerList_length hfits hleaves, headerBits] at hseq hnb
  exact ⟨by omega, by omega, hbits⟩

end

/-! ### The estimate fits its register -/

theorem payloadBits_le (freq : Vector Word 257) (len : Vector (BitVec 9) 257) :
    payloadBits freq len ≤ 257 * (2 ^ 32 * 2 ^ 9) := by
  refine (List.sum_le_card_nsmul _ (2 ^ 32 * 2 ^ 9) fun x hx => ?_).trans ?_
  · obtain ⟨p, -, rfl⟩ := List.mem_map.1 hx
    exact Nat.mul_le_mul p.1.isLt.le p.2.isLt.le
  · simp

theorem estimate_estBytes_toNat (s : State) :
    (estimate s).estBytes.toNat = (headerBits s + payloadBits s.freq s.codes.len + 7) / 8 := by
  have hpay := payloadBits_le s.freq s.codes.len
  have hext := s.extLen.isLt
  have hleaf := s.nleaf.isLt
  rw [estimate_estBytes, BitVec.toNat_ofNat, Nat.mod_eq_of_lt]
  rw [headerBits]
  omega

/-! ### The tree of the counts -/

/-- What the end of pass 1 makes of the counted state `c`, whichever way it ends: `u` has the tree of the counts and what
is derived from it. -/
structure TreeOfCounts (c u : State) : Prop where
  freqValid : u.freqValid = true
  codeValid : u.codeValid = true
  totalLen : u.totalLen = c.totalLen
  freq : u.freq = c.freq
  built : ∃ p m v, buildStack u.freq c.queue c.stack = .ok p m ∧ assemble (constructionOrder m) c.tree = (true, v) ∧
    u.tree = { v with sentNode := v.nn - 1 } ∧ u.queue = p ∧ u.stack = { m with psn := 0 }
  codes : deriveCodes u.tree c.codes = some u.codes
  nnode : u.nnode = u.tree.nn
  sizes : u.nnode.toNat + 1 = 2 * u.nleaf.toNat
  sentNode : u.tree.sentNode.toNat + 1 = u.tree.nn.toNat
  nleaf : u.nleaf.toNat = 1 + ((u.freq.toList.take 256).filter (· ≠ 0)).length
  estBytes : u.estBytes.toNat = (16 + 8 * (c.extLen.toNat + 1) + 513 + 9 * u.nleaf.toNat +
    payloadBits u.freq u.codes.len + 7) / 8
  fits : u.tree.nn.toNat ≤ 513
  leaves : leafCount u.tree.node u.tree.nn.toNat = u.nleaf.toNat

/-- The registers that the size guard and the header read or keep are still those of the counted state `c`. -/
structure KeptToGuard (c u : State) : Prop where
  phase : u.phase = c.phase
  err : u.err = c.err
  discard : u.discard = c.discard
  force : u.force = c.force
  extLen : u.extLen = c.extLen
  ext : u.ext = c.ext
  inCnt : u.inCnt = c.inCnt
  magicReg : u.magicReg = c.magicReg
  termReg : u.termReg = c.termReg
  out : u.out = c.out

/-- A tree assembled from a built stack has as many leaves as the stack has entries with a symbol. -/
theorem Assembled.leafCount_built {k : Stack} {L : Nat} {u : Tree} (a : Assembled (constructionOrder k) u)
    (b : BuiltStack k L) : leafCount u.node u.nn.toNat = L := by
  have hlen := constructionOrder_length b
  have hleaves := a.leaves
  have htwo := b.two
  rw [a.leafCount_eq]
  omega

section
variable {c u : State}

/-- What the end of pass 1 has left alone when it comes to the size guard. -/
theorem Estimated.kept (h : Estimated c u) : KeptToGuard c u := by
  obtain ⟨q, k, tr, d, -, rfl⟩ := h.eq
  exact ⟨rfl, rfl, rfl, rfl, rfl, rfl, rfl, rfl, rfl, rfl⟩

/-- The sizes follow from the number of leaves, which is one more than the byte values counted (R170). -/
theorem Estimated.treeOfCounts (h : Estimated c u) (hp : 1 ≤ presentFrom c.freq 0 256) : TreeOfCounts c u := by
  obtain ⟨w, d, ⟨q, k, v, hbuild, hasm, rfl⟩, hcodes, rfl⟩ := h
  obtain ⟨p, m, hok, -, b, -⟩ := buildStack_spec c.freq c.queue c.stack hp
  obtain ⟨rfl, rfl⟩ := Built.ok.inj (hbuild.symm.trans hok)
  have hlen := constructionOrder_length b
  have hsize := b.size
  have hle := b.le
  have a := assemble_true (by omega) hasm
  have hnn : v.nn.toNat = 2 * (1 + presentFrom c.freq 0 256) - 1 := a.size.trans hlen
  have hcount : leafCount v.node v.nn.toNat = 1 + presentFrom c.freq 0 256 := a.leafCount_built b
  have hleaf : (BitVec.ofNat 9 (leafCount v.node v.nn.toNat)).toNat = 1 + presentFrom c.freq 0 256 := by
    rw [hcount, BitVec.toNat_ofNat, Nat.mod_eq_of_lt (by omega)]
  exact
    { freqValid := rfl, codeValid := rfl, totalLen := rfl, freq := rfl
      built := ⟨q, k, v, hbuild, hasm, rfl, rfl, consumed_eq k (by omega)⟩
      codes := hcodes, nnode := rfl
      sizes := show v.nn.toNat + 1 = 2 * (BitVec.ofNat 9 (leafCount v.node v.nn.toNat)).toNat by omega
      sentNode := show (v.nn - 1).toNat + 1 = v.nn.toNat by bv_omega
      nleaf := hleaf.trans (congrArg (1 + ·) (presentFrom_all c.freq))
      estBytes := estimate_estBytes_toNat _
      fits := show v.nn.toNat ≤ 513 by omega
      leaves := hcount.trans hleaf.symm }

theorem TreeOfCounts.of_policy (h : TreeOfCounts c u) : TreeOfCounts c (errorEntry .policy u) :=
  ⟨h.freqValid, h.codeValid, h.totalLen, h.freq, h.built, h.codes, h.nnode, h.sizes, h.sentNode, h.nleaf, h.estBytes,
    h.fits, h.leaves⟩

theorem TreeOfCounts.of_header (h : TreeOfCounts c u) :
    TreeOfCounts c { u with out := putAll (headerList u) u.out, inCnt := 0, phase := .encCode } :=
  ⟨h.freqValid, h.codeValid, h.totalLen, h.freq, h.built, h.codes, h.nnode, h.sizes, h.sentNode, h.nleaf, h.estBytes,
    h.fits, h.leaves⟩

end

/-- A transition that runs and cannot end goes on. -/
theorem Flow.go_of_runs {m : Flow} {G : State → Prop} (h : m.runs G fun _ => False) : ∃ s, m = .go s ∧ G s := by
  cases m with
  | go s => exact ⟨s, rfl, h⟩
  | ended | stop | refuse => exact h.elim

/-- Where a byte has been counted, pass 1 ends in the size guard's error or with the header. -/
theorem endOfPass1_of_counted {c : State} (hp : 1 ≤ presentFrom c.freq 0 256) :
    ∃ u t, Estimated c u ∧ (endOfPass1 c).outcome = .next t ∧ TreeOfCounts c t ∧
      (c.totalLen.toNat ≤ t.estBytes.toNat ∧ c.force = false → t = errorEntry .policy u) ∧
      (t.estBytes.toNat < c.totalLen.toNat ∨ c.force = true →
        t = { u with out := putAll (headerList u) u.out, inCnt := 0, phase := .encCode }) := by
  obtain ⟨u, hgo, hest, -⟩ := Flow.go_of_runs (estimated_runs c hp)
  have htree := hest.treeOfCounts hp
  have hforce : u.force = c.force := hest.kept.force
  rw [endOfPass1_eq, hgo, Flow.bind_go, htree.totalLen, hforce, writeHeader_eq]
  by_cases hguard : c.totalLen.toNat ≤ u.estBytes.toNat ∧ c.force = false
  · rw [if_pos hguard]
    refine ⟨u, _, hest, rfl, htree.of_policy, fun _ => rfl, fun h => ?_⟩
    rcases h with h | h
    · exact absurd hguard.1 (Nat.not_le.2 h)
    · rw [hguard.2] at h; cases h
  · rw [if_neg hguard]
    exact ⟨u, _, hest, rfl, htree.of_header, fun h => absurd h hguard, fun _ => rfl⟩

/-- Settles O41: the counts of a byte give a tree, and the size guard decides between the error and the header. -/
theorem theEndOfPassOne : Obligations.TheEndOfPassOne := by
  intro s b rest hp _ hcounts ha hn hs ht hlast
  obtain ⟨hbytes, hlen⟩ := hcounts.2.1 hp
  have hcnt : s.inCnt + 1 = s.totalLen := (succ_eq_iff (by omega)).2 hlast
  obtain ⟨p, i, hc⟩ : ∃ p i, byteCounted b { s with events := rest } =
      { s with events := rest, freq := ftAdd b s.freq, inCnt := s.inCnt + 1, pct := p, irqPend := i } :=
    ⟨_, _, byteCounted_eq b⟩
  rw [step_encCount ht hp, inEncCount_of_last (s := { s with events := rest }) b hcnt, hc]
  obtain ⟨u, t, hest, hend, h, hpolicy, hheader⟩ := endOfPass1_of_counted
    (c := { s with events := rest, freq := ftAdd b s.freq, inCnt := s.inCnt + 1, pct := p, irqPend := i })
    (presentFrom_ftAdd b s.freq (by omega))
  refine ⟨t, hend, h.freqValid, h.codeValid, h.totalLen, fun k hk => ?_, h.built, h.codes, h.nnode, h.sizes, h.sentNode,
    h.nleaf, h.estBytes, fun hg => ?_, fun hg => ?_⟩
  · simp only [h.freq]
    exact ftAdd_getElem b s.freq k hk
  · obtain rfl := hpolicy hg
    have hphase : u.phase = .encCount := hest.kept.phase.trans hp
    have hinfo : u.inCnt = s.totalLen := hest.kept.inCnt.trans hcnt
    exact ⟨rfl, by rw [errorEntry_err, hphase, hinfo], rfl, hinfo, hest.kept.out⟩
  · obtain rfl := hheader hg
    obtain ⟨hseq, hnb, hbits⟩ := headerList_written (s := u) h.fits h.leaves ha hn hs
    rw [← hest.kept.out] at hseq hnb hbits
    rw [hest.kept.extLen] at hseq
    refine ⟨rfl, rfl, hest.kept.err, hest.kept.discard, hseq, hnb, hbits.trans ?_⟩
    rw [headerList, hest.kept.magicReg, hest.kept.ext, hest.kept.extLen, hest.kept.termReg]

end Sys2Proof.Machine
end

section
/-!
PROOFS. The decoder's commands (47_decoder.md R230, R237): each goes by the check for the end of the stream (R242).
-/

namespace Sys2Proof.Machine

section
variable {s : State}

theorem eofCheck_of_end (h : s.inCnt = s.totalLen) : eofCheck s = .ended (errorEntry .eof s) := if_pos h

theorem eofCheck_of_more (h : s.inCnt ≠ s.totalLen) : eofCheck s = .go s := if_neg h

theorem exec_decStart_of_idle (hp : s.phase = .idle) : exec .decStart s = (eofCheck (decStarted s)).outcome := if_pos hp

theorem exec_sinkOk_of_wait (hp : s.phase = .decWait) :
    exec .sinkOk s = (eofCheck { s with phase := .decDict }).outcome := if_pos hp

theorem exec_sinkOk_of_ne (hp : s.phase ≠ .decWait) : exec .sinkOk s = .next (rejectCommand 0x03 0 s) := if_neg hp

end

/-- Settles O9: with IN_CNT = 0 the stream has ended exactly where TOTAL_LEN is 0. -/
theorem decStartBeginsTheMagic : Obligations.DecStartBeginsTheMagic := by
  intro s hp
  rw [exec_decStart_of_idle hp]
  refine ⟨fun hlen => ⟨ftClear, ftClear_sentinel, ftClear_byte, ?_⟩, fun hlen => ?_⟩
  · rw [eofCheck_of_more (s := decStarted s) (Ne.symm hlen)]
    rfl
  · rw [eofCheck_of_end (s := decStarted s) hlen.symm]
    exact ⟨_, rfl, rfl, rfl, rfl, rfl, rfl, rfl, rfl, rfl, rfl, rfl, rfl, rfl⟩

/-- Settles O10: SINK_OK is legal in DEC_WAIT alone, and there the stream has ended or not. -/
theorem sinkOkGoesOnToTheSkeleton : Obligations.SinkOkGoesOnToTheSkeleton := by
  refine ⟨by decide, fun s => ⟨fun hp => ?_, fun hp => exec_sinkOk_of_ne hp⟩⟩
  rw [exec_sinkOk_of_wait hp]
  refine ⟨fun hmore => ?_, fun hend => ?_⟩
  · rw [eofCheck_of_more (s := { s with phase := .decDict }) hmore, Flow.outcome_go]
  · rw [eofCheck_of_end (s := { s with phase := .decDict }) hend]
    rfl

end Sys2Proof.Machine
end

section
/-!
PROOFS. The tokens of the container as the decoder reads them (47_decoder.md R233, R234, R240, R244): the magic, the
extension, the code words of the payload and the bits after the sentinel's.
-/

namespace Sys2Proof.Machine

/-- Where the decoder stands at a token, the token acts (30_encoding.md R96). -/
theorem tokenAt_of_holds {s : State} {c : Prop} [Decidable c] (act : State → Flow) (ha : phaseAccepts s.phase = true)
    (hc : c) : tokenAt (decide c) act s = (act s).outcome := by
  rw [tokenAt, if_neg (by rw [ha]; exact nofun), if_pos (decide_eq_true hc)]

/-- While no input is accepted a token changes nothing (48_host_commands.md R267). -/
theorem tokenAt_of_closed {s : State} (atToken : Bool) (act : State → Flow) (ha : phaseAccepts s.phase = false) :
    tokenAt atToken act s = .next s := if_pos ha

/-! ### The magic (R233) -/

section
variable {s : State}

theorem exec_magic (hp : s.phase = .decMagic) (h0 : s.dec.magN = 0) (v : BitVec 16) :
    exec (.magic v) s = (takeMagic v s).outcome :=
  tokenAt_of_holds (takeMagic v) (by rw [hp]; rfl) ⟨hp, h0⟩

/-- The state with both bytes of the magic in. -/
def magicIn (v : BitVec 16) (s : State) : State := { s with dec := { s.dec with magAcc := v, magN := 2 } }

theorem takeMagic_of_eq {v : BitVec 16} (h : v = s.magicReg) :
    takeMagic v s = .go { magicIn v s with phase := .decExt } := if_neg (not_not_intro h)

theorem takeMagic_of_ne {v : BitVec 16} (h : v ≠ s.magicReg) : takeMagic v s = .ended (errorEntry .magic (magicIn v s)) :=
  if_pos h

end

/-- Settles O13: the value is compared with the parameter MAGIC. -/
theorem magicIsCompared : Obligations.MagicIsCompared := by
  intro s v hp h0
  rw [exec_magic hp h0, ← hp]
  refine ⟨fun h => ?_, fun h => ?_⟩
  · rw [takeMagic_of_eq h]
    rfl
  · rw [takeMagic_of_ne h]
    rfl

/-! ### The extension (R234) -/

section
variable {s : State} (hp : s.phase = .decExt)
include hp

theorem exec_extTerm : exec .extTerm s = .next (extEnd s) :=
  tokenAt_of_holds (fun t => .go (extEnd t)) (by rw [hp]; rfl) hp

theorem exec_extByte {b : Byte} (hb : b ≠ s.termReg) : exec (.extByte b) s = (extAppend b s).outcome :=
  tokenAt_of_holds (extAppend b) (by rw [hp]; rfl) ⟨hp, hb⟩

end

theorem extAppend_of_room {s : State} (b : Byte) (h : s.extLen ≠ 255) :
    extAppend b s = .go { s with ext := s.ext.setIfInBounds s.extLen.toNat b, extLen := s.extLen + 1 } := if_neg h

theorem extAppend_of_full {s : State} (b : Byte) (h : s.extLen = 255) :
    extAppend b s = .ended (errorEntry .extLong s) := if_pos h

/-- Settles O14: a byte has room or has none, and the terminator goes by `extEnd`. -/
theorem extensionTokensAreCollected : Obligations.ExtensionTokensAreCollected := by
  intro s hp
  refine ⟨fun b hb => ⟨fun hroom => ⟨s.ext.setIfInBounds s.extLen.toNat b, fun j h => ?_, ?_⟩, fun hfull => ?_⟩, ?_⟩
  · rw [Vector.getElem_setIfInBounds]
    simp only [eq_comm]
  · rw [exec_extByte hp hb, extAppend_of_room b hroom, Flow.outcome_go]
  · rw [exec_extByte hp hb, extAppend_of_full b hfull, ← hp]
    rfl
  · exact exec_extTerm hp

/-! ### The bits after the sentinel's code (R244) -/

/-- Settles O19: no input is accepted in DONE. -/
theorem padBitsAreDropped : Obligations.PadBitsAreDropped :=
  fun _ _ hp => tokenAt_of_closed false Flow.go (by rw [hp]; rfl)

/-! ### Code words (R240) -/

theorem leafAt_iff {nodes : Vector Node 513} {k : NodeIx} :
    leafAt nodes k = true ↔ ∃ sym, nodes[k.toNat]? = some (.leaf sym) := by
  unfold leafAt
  cases nodes[k.toNat]? with
  | none => simp
  | some n => cases n <;> simp [Node.isLeaf]

/-- A code word is a walk that is not empty and ends at a leaf: no walk goes on from a leaf (30_encoding.md R102, R106). -/
theorem codeWidth_eq_length_iff {nodes : Vector Node 513} {cur : NodeIx} {bits : List Bool} :
    codeWidth nodes cur bits = .ok bits.length ↔
      bits ≠ [] ∧ ∃ k sym, walkTo nodes cur bits = some k ∧ nodes[k.toNat]? = some (.leaf sym) := by
  induction bits generalizing cur with
  | nil => simp [codeWidth]
  | cons b rest ih =>
    cases hc : childOf nodes cur b with
    | none => simp [codeWidth, walkTo, hc]
    | some k =>
      by_cases hl : leafAt nodes k = true
      · obtain ⟨sym, hsym⟩ := leafAt_iff.1 hl
        cases rest with
        | nil => simp [codeWidth, walkTo, hc, hl, hsym]
        | cons c rest =>
          have hwalk : walkTo nodes cur (b :: c :: rest) = none := by
            rw [walkTo, hc]
            exact walkTo_leaf hsym c rest
          simp [codeWidth, hc, hl, hwalk]
      · have hrest : (∃ m sym, walkTo nodes k rest = some m ∧ nodes[m.toNat]? = some (.leaf sym)) → rest ≠ [] := by
          rintro ⟨m, sym, hm, hsym⟩ rfl
          cases hm
          exact hl (leafAt_iff.2 ⟨sym, hsym⟩)
        have hwidth : codeWidth nodes cur (b :: rest) = .ok (b :: rest).length ↔
            codeWidth nodes k rest = .ok rest.length := by
          simp only [codeWidth, hc, if_neg hl]
          cases codeWidth nodes k rest <;> simp
        rw [hwidth, ih, walkTo, hc]
        simpa using hrest

section
variable {s : State} {bits : List Bool}

theorem exec_code (hp : s.phase = .decPayload) (h0 : s.dec.cur = 0)
    (hc : codeWidth s.tree.node 0 bits = .ok bits.length) : exec (.code bits) s = (takeCode bits s).outcome :=
  tokenAt_of_holds (takeCode bits) (by rw [hp]; rfl) ⟨hp, h0, isCode_iff.2 hc⟩

variable {k : NodeIx} {sym : Sym}

theorem takeCode_of_leaf (hk : walkTo s.tree.node 0 bits = some k) (hl : s.tree.node[k.toNat]? = some (.leaf sym)) :
    takeCode bits s = leafReached sym { s with dec := { s.dec with cur := k } } := by
  simp only [takeCode, hk, hl]

theorem leafReached_of_sent (h : s.dec.cur = s.tree.sentNode) : leafReached sym s = .ended (finish s) := if_pos h

theorem leafReached_of_ne (h : s.dec.cur ≠ s.tree.sentNode) : leafReached sym s =
    .go { s with out := emit (sym.extractLsb' 0 8) s.out, dec := { s.dec with cur := 0 } } := if_neg h

end

/-- Settles O18: the walk makes the bits a code word, and `leafReached` tells the sentinel's leaf from the others. -/
theorem codeWordsAreDecoded : Obligations.CodeWordsAreDecoded := by
  intro s bits k sym hp h0 hne hk hl
  rw [exec_code hp h0 (codeWidth_eq_length_iff.2 ⟨hne, k, sym, hk, hl⟩), takeCode_of_leaf hk hl]
  refine ⟨fun h => ?_, fun h => ?_⟩
  · rw [leafReached_of_ne h]
    rfl
  · rw [leafReached_of_sent h, finish_eq]
    rfl

end Sys2Proof.Machine
end

section
/-!
PROOFS. The bits of a token run it (47_decoder.md R232): a slot's by `takeBits_entryBits`, a code word's along its walk;
and the bits after a token that has ended the operation are dropped.
-/

namespace Sys2Proof.Machine

/-! ### The bits of a code word (R240) -/

theorem Flow.bind_takeBits_nil (m : Flow) : m.bind (takeBits []) = m := by cases m <;> rfl

section
variable {s : State} {b : Bool} {k : NodeIx}

theorem takeBits_cons_payload (hp : s.phase = .decPayload) (bits : List Bool) :
    takeBits (b :: bits) s = (payloadBit b s).bind (takeBits bits) := by
  rw [takeBits, takeBit, hp]

theorem payloadBit_of_leaf {sym : Sym} (hc : childOf s.tree.node s.dec.cur b = some k)
    (hl : s.tree.node[k.toNat]? = some (.leaf sym)) :
    payloadBit b s = leafReached sym { s with dec := { s.dec with cur := k } } := by
  simp only [payloadBit, hc, hl]

/-- On the way to a leaf the cursor moves, and nothing else does. -/
theorem payloadBit_of_child {c : Bool} {m : NodeIx} (hc : childOf s.tree.node s.dec.cur b = some k)
    (hm : childOf s.tree.node k c = some m) : payloadBit b s = .go { s with dec := { s.dec with cur := k } } := by
  unfold childOf at hm
  split at hm <;> cases hm
  next l r hpair => simp only [payloadBit, hc, hpair]

end

/-- The bits of a walk to a leaf do what reaching the leaf does. -/
theorem takeBits_walk {k : NodeIx} {sym : Sym} {bits : List Bool} {s : State} (hp : s.phase = .decPayload)
    (hne : bits ≠ []) (hk : walkTo s.tree.node s.dec.cur bits = some k)
    (hl : s.tree.node[k.toNat]? = some (.leaf sym)) :
    takeBits bits s = leafReached sym { s with dec := { s.dec with cur := k } } := by
  induction bits generalizing s with
  | nil => exact absurd rfl hne
  | cons b rest ih =>
    rw [takeBits_cons_payload hp]
    cases hc : childOf s.tree.node s.dec.cur b with
    | none => simp [walkTo, hc] at hk
    | some m =>
      rw [walkTo, hc] at hk
      cases rest with
      | nil =>
        cases hk
        rw [payloadBit_of_leaf hc hl, Flow.bind_takeBits_nil]
      | cons c rest =>
        cases hd : childOf s.tree.node m c with
        | none => simp [walkTo, hd] at hk
        | some n =>
          rw [payloadBit_of_child hc hd, Flow.bind_go]
          exact ih (s := { s with dec := { s.dec with cur := m } }) hp (List.cons_ne_nil c rest) hk hl

/-! ### The bits after a token -/

theorem takeBit_of_closed {t : State} (h : phaseAccepts t.phase = false) (b : Bool) : takeBit b t = .ended t := by
  unfold takeBit
  split
  · next hp => rw [hp] at h; cases h
  · next hp => rw [hp] at h; cases h
  all_goals rfl

/-- Bits that come while no input is accepted are dropped (R232). -/
theorem takeBits_of_closed {t : State} (h : phaseAccepts t.phase = false) (rest : List Bool) :
    (takeBits rest t).outcome = .next t := by
  cases rest with
  | nil => rfl
  | cons b rest => rw [takeBits, takeBit_of_closed h, Flow.bind_ended, Flow.outcome_ended]

/-- Where a token that ends its operation ends it in a phase that accepts no input, more bits after the token's find the
state the token leaves, or stop where it stops. -/
theorem takeBits_after {m : Flow} (hm : m.post (fun _ => True) fun t => phaseAccepts t.phase = false) (rest : List Bool) :
    (∀ t, m.outcome = .next t → (m.bind (takeBits rest)).outcome = (takeBits rest t).outcome) ∧
      ∀ f, m.outcome = .fault f → (m.bind (takeBits rest)).outcome = .fault f := by
  cases m with
  | go s => simp
  | ended s => simpa using (takeBits_of_closed hm rest).symm
  | stop e => simp
  | refuse r => simp

/-- A slot ends the operation by E_SKEL only. -/
theorem readSlot_ended (e : Option Sym) (s : State) :
    (readSlot e s).post (fun _ => True) fun t => phaseAccepts t.phase = false := by
  refine Flow.post_bind (G := fun _ => True)
    (Flow.post_mono (pushSlot_post e _) (fun _ _ => trivial) fun _ h => h.elim) fun t _ => ?_
  refine Flow.post_mono (slotCheck_post t) (fun _ _ => trivial) ?_
  rintro u ⟨v, -, -, -, rfl⟩
  rfl

/-- A leaf ends the operation by DONE only. -/
theorem leafReached_ended (sym : Sym) (s : State) :
    (leafReached sym s).post (fun _ => True) fun t => phaseAccepts t.phase = false := by
  unfold leafReached
  split
  · show phaseAccepts (finish s).phase = false
    rw [finish_phase]
    rfl
  · trivial

/-! ### Which token the bits are (R96, R106) -/

theorem decodeToken_slot_ok {bits rest : List Bool} {i : Instr} (h : decodeToken .slot bits = .ok (i, rest)) :
    ∃ e, i = slotToken e ∧ bits = entryBits e ++ rest := by
  match bits with
  | [] => cases h
  | false :: tail =>
    cases h
    exact ⟨none, rfl, rfl⟩
  | true :: tail =>
    rw [decodeToken] at h
    split at h <;> cases h
    next hl => exact ⟨some _, rfl, congrArg (true :: ·) (bitsMsb_ofBits_append_drop hl).symm⟩

theorem decodeToken_code_ok {nodes : Vector Node 513} {bits rest : List Bool} {i : Instr}
    (h : decodeToken (.code nodes) bits = .ok (i, rest)) :
    ∃ enc, i = .code enc ∧ bits = enc ++ rest ∧ codeWidth nodes 0 enc = .ok enc.length := by
  rw [decodeToken] at h
  split at h <;> cases h
  next n hn =>
    obtain ⟨-, hle, hc⟩ := codeWidth_ok nodes 0 _ n hn
    rw [List.length_take] at hle
    rw [List.take_take, Nat.min_eq_left (by omega)] at hc
    refine ⟨bits.take n, rfl, (List.take_append_drop n bits).symm, ?_⟩
    rwa [List.length_take_of_le (by omega)]

/-! ### A token and its bits -/

theorem Flow.outcome_ne_refused {m : Flow} {r : Refusal} (h : m ≠ .refuse r) : m.outcome ≠ .refused r := by
  cases m with
  | go | ended | stop => exact nofun
  | refuse r' =>
    rintro ⟨⟩
    exact h rfl

/-- A token runs as its bits do where both are one transition, which ends only where input is closed and does not
refuse. -/
theorem bits_run_token {m : Flow} {i : Instr} {s : State} {enc : List Bool} (hi : exec i s = m.outcome)
    (henc : takeBits enc s = m) (hm : m.post (fun _ => True) fun t => phaseAccepts t.phase = false)
    (hr : ∀ r, m ≠ .refuse r) (rest : List Bool) :
    (∀ t, exec i s = .next t → (takeBits (enc ++ rest) s).outcome = (takeBits rest t).outcome) ∧
      (∀ f, exec i s = .fault f → (takeBits (enc ++ rest) s).outcome = .fault f) ∧ ∀ r, exec i s ≠ .refused r := by
  obtain ⟨hnext, hfault⟩ := takeBits_after hm rest
  rw [hi, takeBits_append, henc]
  exact ⟨hnext, hfault, fun r => Flow.outcome_ne_refused (hr r)⟩

/-- Settles O37: between two tokens the bits are a slot's or a code word's, by the phase. -/
theorem theBitsOfATokenRunIt : Obligations.TheBitsOfATokenRunIt := by
  intro s place bits rest i hphase hplace hdec
  rcases hphase with ⟨hp, hslot⟩ | hp
  · obtain ⟨hd, rfl⟩ : s.dec.dstate = .mark ∧ .slot = place := by simpa [placeOf, hp] using hplace
    obtain ⟨e, rfl, rfl⟩ := decodeToken_slot_ok hdec
    have hne : s.dec.slot ≠ 513 := fun h => Nat.ne_of_lt hslot (congrArg BitVec.toNat h)
    exact bits_run_token (exec_slotToken e hp hd) (takeBits_entryBits e hp hd hne) (readSlot_ended e s)
      (takeSlot_ne_refuse _ · e) rest
  · obtain ⟨h0, rfl⟩ : s.dec.cur = 0 ∧ .code s.tree.node = place := by simpa [placeOf, hp] using hplace
    obtain ⟨enc, rfl, rfl, hc⟩ := decodeToken_code_ok hdec
    obtain ⟨hne, k, sym, hk, hl⟩ := codeWidth_eq_length_iff.1 hc
    exact bits_run_token ((exec_code hp h0 hc).trans (congrArg Flow.outcome (takeCode_of_leaf hk hl)))
      (takeBits_walk hp hne (h0 ▸ hk) hl) (leafReached_ended sym _) (leafReached_ne_refuse _ · sym) rest

end Sys2Proof.Machine
end

section
/-!
PROOFS. A byte in a decoder phase (47_decoder.md R231): the byte is counted and the progress made (`counted`), the phase
does its part, and then the end of the stream is checked where the operation still wants input (R242).
-/

namespace Sys2Proof.Machine

/-! ### The frame of a byte (R231) -/

section
variable {s : State} {b : Byte} {rest : List HostEvent} (ht : takeEvent s s.events = some (.inByte b, rest))
include ht

theorem step_decMagic (hp : s.phase = .decMagic) :
    step s = (decFrame (magicByte b) { s with events := rest }).outcome := by
  rw [step_of_takeEvent ht, react, inByte]
  simp only [hp]

theorem step_decExt (hp : s.phase = .decExt) :
    step s = (decFrame (extensionByte b) { s with events := rest }).outcome := by
  rw [step_of_takeEvent ht, react, inByte]
  simp only [hp]

theorem step_decBits (hp : s.phase = .decDict ∨ s.phase = .decPayload) :
    step s = (decFrame (takeBits (bitsOf b)) { s with events := rest }).outcome := by
  rw [step_of_takeEvent ht, react, inByte]
  rcases hp with hp | hp <;> simp only [hp]

end

/-- What the check for the end of the stream makes of the state a part leaves (R242). -/
def endChecked (t : State) : State :=
  if phaseDecoding t.phase = true ∧ t.inCnt = t.totalLen then errorEntry .eof t else t

theorem endCheck_outcome (t : State) :
    (if phaseDecoding t.phase then eofCheck t else .go t).outcome = .next (endChecked t) := by
  unfold endChecked eofCheck
  by_cases hd : phaseDecoding t.phase = true
  · by_cases he : t.inCnt = t.totalLen <;> simp [hd, he]
  · simp [hd]

/-- A state whose phase awaits no more input passes the check. -/
theorem endChecked_of_closed {t : State} (h : phaseDecoding t.phase = false) : endChecked t = t :=
  if_neg fun hd => by rw [h] at hd; cases hd.1

theorem endChecked_of_decoding {t : State} (h : phaseDecoding t.phase = true) :
    endChecked t = if t.inCnt = t.totalLen then errorEntry .eof t else t := by
  simp only [endChecked, h, true_and]

/-- A part that ends its transition only in a phase that awaits no input is followed by the check, however it answers. -/
theorem decFrame_outcome {part : State → Flow} {s t : State} {G : State → Prop}
    (hm : (part (counted s)).post G fun u => phaseDecoding u.phase = false)
    (ht : (part (counted s)).outcome = .next t) : (decFrame part s).outcome = .next (endChecked t) := by
  show ((part (counted s)).bind _).outcome = _
  rcases (Flow.outcome_next_iff _ t).1 ht with h | h
  · rw [h, Flow.bind_go, endCheck_outcome]
  · rw [h] at hm ⊢
    rw [Flow.bind_ended, Flow.outcome_ended, endChecked_of_closed hm]

/-! ### The extension (R234) -/

/-- A byte of the extension is the token it decodes to (30_encoding.md R98). -/
theorem exec_extensionToken {c : State} (hp : c.phase = .decExt) (b : Byte) :
    exec (if b = c.termReg then .extTerm else .extByte b) c = (extensionByte b c).outcome := by
  unfold extensionByte
  by_cases hb : b = c.termReg
  · rw [if_pos hb, if_pos hb, exec_extTerm hp, Flow.outcome_go]
  · rw [if_neg hb, if_neg hb, exec_extByte hp hb]

/-- Settles O36: the part of the frame is the token, by `exec_extensionToken`. -/
theorem aStepRunsTheExtensionToken : Obligations.AStepRunsTheExtensionToken := by
  intro s b rest i t hp ht hdec hexec
  have htoken := decodeToken_ext s.termReg b []
  rw [List.append_nil, ← bitsOf, hdec] at htoken
  cases htoken
  have hc : (counted { s with events := rest }).phase = .decExt := (updatePct_phase _).trans hp
  have hterm : (counted { s with events := rest }).termReg = s.termReg := updatePct_termReg _
  rw [step_decExt ht hp]
  refine decFrame_outcome (Flow.post_mono (extensionByte_part b _ hc) (fun _ h => h) fun _ h => h.2) ?_
  rw [← exec_extensionToken hc, hterm]
  exact hexec

/-! ### The bits of a byte (R232) -/

theorem bitsOf_eq (b : Byte) : bitsOf b = [b.getLsbD 7, b.getLsbD 6, b.getLsbD 5, b.getLsbD 4, b.getLsbD 3, b.getLsbD 2,
    b.getLsbD 1, b.getLsbD 0] := by
  simp [bitsOf, bitsMsb, List.range, List.range.loop, BitVec.getMsbD]

/-- What follows a transition need only agree on the states it can lead to. -/
theorem Flow.bind_congr_of_post {m : Flow} {f g : State → Flow} {G E : State → Prop} (h : m.post G E)
    (hfg : ∀ s, G s → f s = g s) : m.bind f = m.bind g := by
  cases m with
  | go s => exact hfg s h
  | ended | stop | refuse => rfl

/-- Settles O38: between the bits of a byte and its end PHASE stays DEC_DICT or DEC_PAYLOAD while the operation goes on. -/
theorem aStepFeedsTheBitsOfAByte : Obligations.AStepFeedsTheBitsOfAByte := by
  intro s b rest hp ht
  rw [step_decBits ht hp, ← bitsOf_eq]
  have hc : (counted { s with events := rest }).phase = s.phase := updatePct_phase _
  have hpost := takeBits_post (bitsOf b) (counted { s with events := rest }) (by rwa [hc])
  refine congrArg Flow.outcome (Flow.bind_congr_of_post hpost fun t hgo => ?_)
  have hphase : t.phase = .decDict ∨ t.phase = .decPayload := by
    rcases hgo.phase with h | ⟨-, h⟩
    · rwa [h, hc]
    · exact .inr h
  have hdecoding : phaseDecoding t.phase = true := by rcases hphase with h | h <;> rw [h] <;> rfl
  rw [if_pos hphase, if_pos hdecoding, eofCheck, raise_eq]

/-! ### The magic (R233) -/

/-- The state with the first byte of the magic in. -/
def firstIn (b : Byte) (s : State) : State :=
  { s with dec := { s.dec with magAcc := s.dec.magAcc.extractLsb' 0 8 ++ b, magN := 1 } }

section
variable {s : State} (b : Byte)

theorem magicByte_first (h : s.dec.magN = 0) : magicByte b s = .go (firstIn b s) := by
  simp [magicByte, firstIn, h]

/-- The second byte completes the value, which is then compared as the token is. -/
theorem magicByte_second (h : s.dec.magN = 1) :
    magicByte b s = takeMagic (s.dec.magAcc.extractLsb' 0 8 ++ b) s := by
  simp [magicByte, takeMagic, h]

end

theorem low_byte_append (x y : Byte) : (x ++ y).extractLsb' 0 8 = y :=
  (BitVec.extractLsb'_append_eq_of_add_le (by decide)).trans BitVec.extractLsb'_eq_self

theorem magicByte_magicByte {s : State} (h0 : s.dec.magN = 0) (hi lo : Byte) :
    (magicByte hi s).bind (magicByte lo) = takeMagic (hi ++ lo) s := by
  rw [magicByte_first hi h0, Flow.bind_go, magicByte_second lo rfl]
  simp only [firstIn, low_byte_append]
  rfl

/-- A step on a byte of the magic: the part of the byte on the counted state, and the check. -/
theorem step_magicByte {s c t : State} {b : Byte} {rest : List HostEvent}
    (ht : takeEvent s s.events = some (.inByte b, rest)) (hp : s.phase = .decMagic)
    (hc : c = counted { s with events := rest }) (hm : (magicByte b c).outcome = .next t) :
    step s = .next (endChecked t) := by
  subst hc
  rw [step_decMagic ht hp]
  exact decFrame_outcome
    (Flow.post_mono (magicByte_part b _ ((updatePct_phase _).trans hp)) (fun _ h => h) fun _ h => h.2) hm

/-- Settles O39: the first byte goes by `magicByte_first`, the second by `magicByte_second` and the token's comparison. -/
theorem twoBytesAreTheMagic : Obligations.TwoBytesAreTheMagic := by
  refine ⟨fun s hi lo hp h0 => ?_, fun s c b rest hp ht hc => ?_⟩
  · rw [exec_magic hp h0, magicByte_magicByte h0]
  have hphase : c.phase = .decMagic := by rw [hc, updatePct_phase, hp]
  have hcnt : c.inCnt = s.inCnt + 1 := by rw [hc, updatePct_inCnt]
  have hlen : c.totalLen = s.totalLen := by rw [hc, updatePct_totalLen]
  have hdec : c.dec = s.dec := by rw [hc, updatePct_dec]
  have hmagic : c.magicReg = s.magicReg := by rw [hc, updatePct_magicReg]
  have hstep {t : State} : (magicByte b c).outcome = .next t → step s = .next (endChecked t) := step_magicByte ht hp hc
  refine ⟨hcnt, fun h0 => ⟨firstIn b c, by rw [firstIn, hdec], ?_⟩, ?_⟩
  · rw [hstep (congrArg Flow.outcome (magicByte_first b (hdec ▸ h0))),
      endChecked_of_decoding (t := firstIn b c) (by rw [firstIn, hphase]; rfl), ← hcnt, ← hlen]
    rfl
  rintro h1 v rfl
  rw [← hdec, ← hmagic]
  have hsecond := magicByte_second b (hdec ▸ h1)
  refine ⟨fun hv => ⟨_, rfl, ?_⟩, fun hv => ?_⟩
  · rw [hstep (congrArg Flow.outcome (hsecond.trans (takeMagic_of_eq hv))), endChecked_of_decoding rfl, ← hcnt, ← hlen]
    rfl
  · rw [hstep (congrArg Flow.outcome (hsecond.trans (takeMagic_of_ne hv))), endChecked_of_closed rfl, ← hcnt, ← hphase]
    rfl

end Sys2Proof.Machine
end

section
/-!
PROOFS. The commands that belong to no one codec (48_host_commands.md R263 to R265), what waits while no input is
accepted (R267), and the write that brings a command (R260).
-/

namespace Sys2Proof.Machine

/-- Settles O6: NOP answers the state it is given. -/
theorem nopChangesNothing : Obligations.NopChangesNothing := ⟨rfl, fun _ => rfl⟩

/-! ### STOP (R264) -/

/-- The word of a command, its ARG shifted into bits [15:8] (30_encoding.md R91). -/
theorem commandWord_eq_or (op arg : Byte) : commandWord op arg = op.setWidth 32 ||| (arg.setWidth 32 <<< 8) := by
  apply BitVec.eq_of_getLsbD_eq
  intro i hi
  simp only [commandWord, BitVec.getLsbD_append, BitVec.getLsbD_or, BitVec.getLsbD_shiftLeft, BitVec.getLsbD_setWidth]
  by_cases h : i < 8
  · simp [h, hi]
  · have hop : op.getLsbD i = false := BitVec.getLsbD_of_ge op i (by omega)
    have harg : ¬ i - 8 < 8 → arg.getLsbD (i - 8) = false := fun hn => BitVec.getLsbD_of_ge arg (i - 8) (by omega)
    by_cases h8 : i - 8 < 8
    · simp [h, hi, hop, h8, show i - 8 < 32 by omega]
    · simp [h, hi, hop, h8, harg]

theorem decodeCommand_stop {arg : Byte} (h : arg.toNat ≤ 2) :
    decodeCommand (commandWord 4 arg) = .ok (.stop arg) := by
  rw [decodeCommand_commandWord, if_pos rfl, if_pos h]

section
variable {s : State} {arg : Byte}

theorem exec_stop_of_cause {c : ErrCode} (h : stopCause arg s.phase = some c) :
    exec (.stop arg) s = .next (errorEntry c s) := by
  rw [exec, execStop, h]

theorem exec_stop_of_no_cause (h : stopCause arg s.phase = none) :
    exec (.stop arg) s = .next (rejectCommand 0x04 arg s) := by
  rw [exec, execStop, h]

end

/-- In a running phase each reason has its code, CONFLICT in DEC_WAIT only. -/
theorem stopCause_of_running {arg : Byte} {p : Phase} {c : ErrCode} (hp : phaseRunning p = true)
    (h : (arg = 0 ∧ c = .cancel) ∨ (arg = 1 ∧ c = .conflict ∧ p = .decWait) ∨ (arg = 2 ∧ c = .io)) :
    stopCause arg p = some c := by
  rcases h with ⟨rfl, rfl⟩ | ⟨rfl, rfl, rfl⟩ | ⟨rfl, rfl⟩
  · simp [stopCause, hp]
  · rfl
  · simp [stopCause, hp]

/-- Outside the running phases no reason is legal, and reason 1 is legal in DEC_WAIT only. -/
theorem stopCause_of_illegal {arg : Byte} {p : Phase} (h : phaseRunning p = false ∨ (arg = 1 ∧ p ≠ .decWait)) :
    stopCause arg p = none := by
  rcases h with h | ⟨rfl, h⟩
  · exact if_pos h
  · simp [stopCause, h]

theorem phaseRunning_eq_false_iff {p : Phase} : phaseRunning p = false ↔ p = .idle ∨ p = .done ∨ p = .error := by
  cases p <;> simp [phaseRunning]

/-- Settles O11: `stopCause` says where the reason is legal and which error it raises. -/
theorem stopEntersTheError : Obligations.StopEntersTheError := by
  have hword (arg : Byte) : 0x00000004#32 ||| (arg.setWidth 32 <<< 8) = commandWord 4 arg :=
    (commandWord_eq_or 4 arg).symm
  refine ⟨fun arg h => ?_, fun s arg => ⟨fun c hp hc => ?_, fun h => ?_⟩⟩
  · rw [hword, decodeCommand_stop h]
  · rw [exec_stop_of_cause (stopCause_of_running hp hc)]
    rfl
  · have hcause : stopCause arg s.phase = none := by
      refine stopCause_of_illegal ?_
      rwa [phaseRunning_eq_false_iff, or_assoc, or_assoc]
    rw [hword, exec_stop_of_no_cause hcause]
    rfl

/-! ### CLEAR (R265) -/

/-- Settles O12: the three phases are those that are not running. -/
theorem clearReturnsToIdle : Obligations.ClearReturnsToIdle := by
  intro s h
  rw [exec, execClear, phaseRunning_eq_false_iff.2 h]
  rfl

/-! ### What waits while no input is accepted (R267) -/

theorem phaseAccepts_eq_false_iff {p : Phase} :
    phaseAccepts p = false ↔ p = .idle ∨ p = .decWait ∨ p = .done ∨ p = .error := by
  cases p <;> simp [phaseAccepts]

/-- Settles O20: each token goes by `tokenAt`, which waits. -/
theorem tokensWaitWhileInputIsClosed : Obligations.TokensWaitWhileInputIsClosed := by
  intro s v b sym bits hp i hi
  have ha : phaseAccepts s.phase = false := phaseAccepts_eq_false_iff.2 hp
  simp only [List.mem_cons, List.not_mem_nil, or_false] at hi
  rcases hi with rfl | rfl | rfl | rfl | rfl | rfl | rfl
  · exact tokenAt_of_closed _ (takeMagic v) ha
  · exact tokenAt_of_closed _ (extAppend b) ha
  · exact tokenAt_of_closed _ (fun t => .go (extEnd t)) ha
  · exact tokenAt_of_closed _ (takeSlot none) ha
  · exact tokenAt_of_closed _ (takeLeafSlot sym) ha
  · exact tokenAt_of_closed _ (takeCode bits) ha
  · exact tokenAt_of_closed _ Flow.go ha

/-- Settles O49: none of the bytes can be taken. -/
theorem aHeldByteWaits : Obligations.AHeldByteWaits := by
  intro s bytes ha he
  refine step_of_none (takeEvent_none.2 fun e hmem => ?_)
  rw [he] at hmem
  obtain ⟨b, -, rfl⟩ := List.mem_map.1 hmem
  exact ha

/-! ### The write that brings a command (R260) -/

/-- A write of CMD is acknowledged before its command is run (log 6). -/
theorem hostWrite_cmd (w : Word) (s : State) : hostWrite 0x004 w s = commandWrite w { s with reply := .ack } := rfl

theorem commandWrite_of_decodeCommand {w : Word} {i : Instr} (h : decodeCommand w = .ok i) (s : State) :
    commandWrite w s = exec i s := by
  rw [commandWrite, h]

theorem step_commandWrite {s : State} {w : Word} {rest : List HostEvent}
    (h : takeEvent s s.events = some (.write 0x004 w, rest)) :
    step s = commandWrite w { s with events := rest, reply := .ack } :=
  step_of_takeEvent h

/-- Settles O35: a step on a write is `hostWrite`, and of CMD `commandWrite`. -/
theorem aStepRunsTheCommandWritten : Obligations.AStepRunsTheCommandWritten := by
  refine ⟨fun _ _ _ _ h => step_of_takeEvent h, fun s w => hostWrite_cmd w s, fun s w rest h => ?_⟩
  refine ⟨fun i hi => ?_, fun hw => ?_⟩
  · rw [step_commandWrite h, commandWrite_of_decodeCommand hi]
  · rw [step_commandWrite h, commandWrite_of_illegalWord (s := { s with events := rest, reply := .ack }) hw]
    rfl

end Sys2Proof.Machine
end

section
/-!
PROOFS. The ways PHASE changes (48_host_commands.md R262): a written word goes by the cases of `Commanded`, and every other
event by those of `Reaction`.
-/

namespace Sys2Proof.Machine

section
variable {s t : State} {w : Word}

/-- Where a command is illegal it leaves PHASE as it is, and the table lists that. -/
theorem self_mem_commandMoves {i : Instr} {p : Phase} (hd : decodeCommand w = .ok i) (hw : illegalWord w p = true) :
    p ∈ commandMoves i p := by
  obtain ⟨_, he⟩ := encode_of_decodeCommand 0 hd
  cases i with
  | magic | extByte | extTerm | slotInternal | slotLeaf | code | pad => cases he
  | nop => exact List.mem_singleton.2 rfl
  | encStart | decStart | sinkOk =>
    cases he
    revert hw
    cases p <;> decide
  | stop arg =>
    rw [commandMoves]
    split <;> exact List.mem_cons_self
  | clear =>
    cases he
    rw [illegalWord_clear] at hw
    rw [commandMoves, if_pos hw]
    exact List.mem_singleton.2 rfl

theorem Commanded.phase_mem {i : Instr} (h : Commanded s w t) (hd : decodeCommand w = .ok i) :
    t.phase ∈ commandMoves i s.phase := by
  cases h with
  | rejected hw => exact self_mem_commandMoves hd hw
  | nop =>
    cases hd
    exact List.mem_singleton.2 rfl
  | encStart hp | encFail hp | decStart hp | decFail hp | sinkOk hp | sinkFail hp =>
    cases hd
    rw [hp]
    simp [commandMoves, encStarted, decStarted, errorEntry]
  | stop hp =>
    obtain rfl : i = .stop _ := by
      rw [decodeCommand_commandWord, if_pos rfl] at hd
      split_ifs at hd
      cases hd
      rfl
    rw [commandMoves, if_pos hp]
    exact List.mem_cons_of_mem _ List.mem_cons_self
  | clear hp =>
    cases hd
    rw [commandMoves, if_neg (Bool.eq_false_iff.1 hp)]
    exact List.mem_singleton.2 rfl

theorem commandWrite_phase (ht : commandWrite w s = .next t) : t.phase ∈ phaseMoves (.write 0x004 w) s.phase := by
  rw [phaseMoves, if_pos rfl]
  cases hd : decodeCommand w with
  | error e =>
    rw [commandWrite, hd] at ht
    cases ht
    exact List.mem_singleton.2 rfl
  | ok i =>
    obtain ⟨u, hu, hc⟩ := commandWrite_commanded w s
    rw [ht] at hu
    cases hu
    exact hc.phase_mem hd

end

theorem phaseMoves_write_of_ne {a : BitVec 15} (h : a ≠ 0x004) (v : Word) (p : Phase) :
    phaseMoves (.write a v) p = [p] := if_neg h

/-- Settles O51: only a command, an input byte and the reset change PHASE, a command by `commandWrite_phase` and a byte
by `InStep.phase`. -/
theorem phaseChangesAsListed : Obligations.PhaseChangesAsListed := by
  intro s t e rest he ht
  cases reaction_of_step he ht with
  | read | narrow | irqEn | irqPend | out | reset => exact List.mem_singleton.2 rfl
  | port ha | config ha =>
    rw [phaseMoves_write_of_ne ha]
    exact List.mem_singleton.2 rfl
  | command =>
    rw [step_commandWrite he] at ht
    exact commandWrite_phase (s := { s with events := rest, reply := .ack }) ht
  | byte _ h => exact h.phase

end Sys2Proof.Machine
end

section
/-!
PROOFS. The interrupt line (60_exceptions.md R302), and the progress percentage over a step (R310): the formula grows with
IN_CNT and stays at or below 100, an input byte goes by `InStep.pct`, and every other event leaves PCT as it is or leads to
IDLE.
-/

namespace Sys2Proof.Machine

/-! ### The interrupt line -/

/-- Two words have no set bit in common exactly when their conjunction is 0. -/
theorem and_eq_zero_iff {w : Nat} (x y : BitVec w) :
    x &&& y = 0 ↔ ∀ j, j < w → ¬ (x.getLsbD j = true ∧ y.getLsbD j = true) := by
  simp [BitVec.eq_of_getLsbD_eq_iff]

/-- Settles O48: the line is low exactly when IRQ_PEND and IRQ_EN have no set bit in common. -/
theorem theInterruptLine : Obligations.TheInterruptLine := by
  intro s
  rw [State.irq, decide_eq_true_iff, ne_eq, and_eq_zero_iff]
  simp only [not_forall, not_not, exists_prop]

/-! ### The progress formula -/

theorem counted_pct (s : State) : (counted s).pct = State.progress { s with inCnt := s.inCnt + 1 } := updatePct_pct _

section
variable {s : State}

/-- The progress of a decompress is at most 100, so it fits in PCT. -/
theorem progress_decompress (hop : s.op = .decompress) (hle : s.inCnt.toNat ≤ s.totalLen.toNat) :
    s.progress.toNat = 100 * s.inCnt.toNat / s.totalLen.toNat := by
  have hfits : 100 * s.inCnt.toNat / s.totalLen.toNat ≤ 100 := Nat.div_le_of_le_mul (by omega)
  simp only [State.progress, hop]
  rw [BitVec.toNat_ofNat, Nat.mod_eq_of_lt (by omega)]

/-- Of two moments of one operation in one phase the progress is no smaller where more bytes are counted. -/
theorem progress_mono {t : State} (hop : s.op ≠ .none) (hto : t.op = s.op) (hp : t.phase = s.phase)
    (hn : t.totalLen = s.totalLen) (hle : s.inCnt.toNat ≤ t.inCnt.toNat) (hmax : t.inCnt.toNat ≤ s.totalLen.toNat) :
    s.progress.toNat ≤ t.progress.toNat := by
  cases ho : s.op with
  | none => exact absurd ho hop
  | compress =>
    rw [progress_compress ho rfl (by split <;> omega), progress_compress (hto.trans ho) rfl (by rw [hn]; split <;> omega),
      hp, hn]
    exact Nat.div_le_div_right (Nat.mul_le_mul_left 100 (Nat.add_le_add_left hle _))
  | decompress =>
    rw [progress_decompress ho (hle.trans hmax), progress_decompress (hto.trans ho) (by rwa [hn]), hn]
    exact Nat.div_le_div_right (Nat.mul_le_mul_left 100 hle)

theorem progress_le_hundred (hop : s.op ≠ .none) (hle : s.inCnt.toNat ≤ s.totalLen.toNat) :
    s.progress.toNat ≤ 100 := by
  cases ho : s.op with
  | none => exact absurd ho hop
  | compress =>
    have hk : (if s.phase = .encCode then s.totalLen.toNat else 0) + s.inCnt.toNat ≤ 2 * s.totalLen.toNat := by
      split <;> omega
    rw [progress_compress ho rfl hk]
    exact Nat.div_le_of_le_mul (by omega)
  | decompress =>
    rw [progress_decompress ho hle]
    exact Nat.div_le_of_le_mul (by omega)

end

/-! ### PCT is the progress made -/

theorem progress_of_inCnt_zero {s : State} (hp : s.phase ≠ .encCode) (h0 : s.inCnt = 0) (hpct : s.pct = 0) :
    s.progress = 0 := by
  unfold State.progress
  split
  · simp [hp, h0]
  · simp [h0]
  · exact hpct

theorem Commanded.keeps_progressOk {s t : State} {w : Word} (h : Commanded s w t) (hs : progressOk s) : progressOk t := by
  cases h with
  | rejected | nop => exact hs
  | encStart | decStart => exact fun _ => (progress_of_inCnt_zero (by simp) rfl rfl).symm
  | encFail | decFail | sinkFail | stop | clear => nofun
  | sinkOk hp =>
    intro _
    have hpct : s.pct = s.progress := hs (by rw [hp]; rfl)
    have hkept : State.progress { s with phase := .decDict } = s.progress :=
      progress_congr rfl rfl rfl (by simp [hp]) fun _ => rfl
    exact hpct.trans hkept.symm

theorem Reaction.keeps_progressOk {s t : State} {e : HostEvent} (h : Reaction s e t) (hop : opOk s)
    (hs : progressOk s) : progressOk t := by
  cases h with
  | read | narrow | port | irqEn | irqPend | out => exact hs
  | config _ hp => exact fun hr => absurd hp (ne_idle_of_running hr)
  | command hc => exact hc.keeps_progressOk hs
  | byte _ hb => exact hb.progress hop
  | reset => nofun

/-! ### PCT never decreases within an operation -/

/-- No command changes PCT but those that begin or end an operation. -/
theorem Commanded.pct_kept {s t : State} {w : Word} (h : Commanded s w t) (hs : s.phase ≠ .idle) (ht : t.phase ≠ .idle) :
    t.pct = s.pct := by
  cases h with
  | rejected | nop | sinkOk | sinkFail | stop => rfl
  | encStart hp | encFail hp | decStart hp | decFail hp => exact absurd hp hs
  | clear => exact absurd rfl ht

theorem running_of_accepts {p : Phase} (h : phaseAccepts p = true) : phaseRunning p = true := by
  revert h
  cases p <;> decide

/-- An accepted byte leaves PCT, makes it 100 or makes it the progress with one byte more; none of them is lower. -/
theorem InStep.pct_le {b : Byte} {s t : State} (h : InStep b s t) (ha : phaseAccepts s.phase = true)
    (hcounters : countersOk s) (hop : opOk s) (hs : progressOk s) : s.pct.toNat ≤ t.pct.toNat := by
  have hlt := hcounters.1 ha
  have hne := hop.ne_none (ne_idle_of_accepts ha)
  have hpct : s.pct = s.progress := hs (running_of_accepts ha)
  rcases h.pct with e | e | e
  · exact e ▸ Nat.le_refl _
  · rw [e, hpct]
    exact progress_le_hundred hne (Nat.le_of_lt hlt)
  · rw [e, hpct, counted_pct]
    have hsucc : (s.inCnt + 1).toNat = s.inCnt.toNat + 1 := toNat_succ_of_lt hlt
    exact progress_mono hne rfl rfl rfl (hsucc ▸ Nat.le_succ _) (hsucc ▸ hlt)

/-- PCT does not go back from `s` to `t`, and PROG is pending where it has changed. -/
def advances (s t : State) : Prop := s.pct.toNat ≤ t.pct.toNat ∧ (s.pct ≠ t.pct → t.irqPend.getLsbD 3 = true)

theorem advances_of_eq {s t : State} (h : t.pct = s.pct) : advances s t :=
  ⟨h ▸ Nat.le_refl _, fun hn => absurd h.symm hn⟩

theorem InStep.advances {b : Byte} {s t : State} (h : InStep b s t) (hle : s.pct.toNat ≤ t.pct.toNat) : advances s t :=
  ⟨hle, fun hn => h.rises (Nat.lt_of_le_of_ne hle fun e => hn (BitVec.eq_of_toNat_eq e))⟩

theorem Reaction.advances {s t : State} {e : HostEvent} (h : Reaction s e t) (hcounters : countersOk s) (hop : opOk s)
    (hprogress : progressOk s) (hs : s.phase ≠ .idle) (ht : t.phase ≠ .idle) : advances s t := by
  cases h with
  | read | narrow | port | config | irqEn | irqPend | out => exact advances_of_eq rfl
  | command hc => exact advances_of_eq (hc.pct_kept hs ht)
  | byte ha hb => exact hb.advances (hb.pct_le ha hcounters hop hprogress)
  | reset => exact absurd rfl ht

/-- Settles O57: a step is a reaction, which keeps `progressOk` and advances PCT, or a wait, which changes nothing. -/
theorem progressNeverGoesBack : Obligations.ProgressNeverGoesBack := by
  intro s t hcounters hop hprogress ht
  rcases step_reaction ht with ⟨e, rest, _, hr⟩ | ⟨_, rfl⟩
  · exact ⟨hr.keeps_progressOk hop hprogress, fun hs ht => hr.advances hcounters hop hprogress hs ht⟩
  · exact ⟨hprogress, fun _ _ => advances_of_eq rfl⟩

end Sys2Proof.Machine
end
